-- ==== Sys2Proof/Word.lean ====
section
/-! DEFINITION. The word and byte types of the engine (R6, R8, R50). All arithmetic of the model that a test could show
wrong stands in Machine/Operands.lean and Machine/Flags.lean. -/

namespace Sys2Proof

/-- A word: 32 bits, unsigned, bit 0 the least significant (R6 `W`, R8). -/
abbrev Word := BitVec 32

/-- A byte: 8 bits, the smallest addressable unit of the data space (R50). -/
abbrev Byte := BitVec 8

/-- A byte string of one sub-chunk, `SUB` = 32 bytes, byte 0 first (R6, R9). -/
abbrev Chunk := Vector Byte 32

/-- One lane: the same word position of the four blocks (R28). -/
abbrev Lane := Vector Word 4

/-- The lane layout, `V[i][b]`: word position i major, block b minor (R28, R150). -/
abbrev Lanes := Vector Lane 16

/-- The matrix layout, `M[b][i]`: block b major, word i minor (R29, R150). -/
abbrev Matrices := Vector (Vector Word 16) 4

/-- The sixteen words of one cipher state or of one finished block (R21). -/
abbrev Block := Vector Word 16

end Sys2Proof
end

