-- ==== Sys2Proof/Config.lean ====
section
/-! DEFINITION. What the hardware fixes as a parameter (R6, R7), and the free values: constants with no body, so that no
proof can see what they are. -/

namespace Sys2Proof.Config

/-- `NMAX`: the largest byte count of one invocation (R6, Table 00-1). -/
def nMax : Nat := 256

/-- `NLOW`: the byte count must be strictly greater than this (R6, Table 00-1). -/
def nLow : Nat := 64

/-- `BLOCK`: bytes of one cipher block (R6, Table 00-1). -/
def block : Nat := 64

/-- `BATCH`: blocks processed together in one invocation (R6, Table 00-1). -/
def batch : Nat := 4

/-- `SUB`: bytes of one sub-chunk (R6, Table 00-1). -/
def sub : Nat := 32

/-- `NSUB`: sub-chunks of the keystream (R6, Table 00-1). -/
def nSub : Nat := 8

/-- `STAGE`: bytes of the dispatch loop's staging buffer (R6, Table 00-1; external). -/
def stage : Nat := 64

/-- The default of the open parameter `AW` (R7, D4). The width in force is `Platform.aw` of the state.
DESIGN CHOICE, log entry 6. -/
def defaultAw : Nat := 32

/-- `BASE`, the base address of the register window: OPEN, platform (R7, R52, R82). No value is given to it.
Log entry 7, safe. -/
opaque windowBase : Nat

/-- Free values of 32 bits: what RD returns for a register nothing has written since reset (R201, U12).
Applied to `State.freeCtr`, a fresh one each time. Log entry 3, safe. -/
opaque freeWord : Nat → Word

/-- Free values of 8 bits: the bytes of the staging buffer beyond the tail (R202, U15). Log entry 24, safe. -/
opaque freeByte : Nat → Byte

end Sys2Proof.Config
end

