-- ==== Sys2Proof/Syntax.lean ====
section
/-! DEFINITION. The instructions: one constructor per row of spec/opcode_table.json (R80 to R87). -/

namespace Sys2Proof

/-- The host transactions, the command and the micro-operations of the engine. Operand fields have the widths of the
encodings; which of their values are legal is `Instr.wellFormed`. -/
inductive Instr where
  /-- WR idx, data (R81, R200): the host writes one register of the window. -/
  | wr (idx : BitVec 7) (data : Word)
  /-- RD idx (R81, R201): the host reads one register of the window. -/
  | rd (idx : BitVec 7)
  /-- XFORM4 (R83, R110): the one command; its operands are in registers. -/
  | xform4
  /-- LATCH (R114). -/
  | latch
  /-- DERIVE (R115). -/
  | derive
  /-- DONE (R116). -/
  | done
  /-- ADD32 rd, rs (R130): two roles of the enclosing quarter round, 0 = a, 1 = b, 2 = c, 3 = d (R87). -/
  | add32 (rd rs : BitVec 2)
  /-- XOR32 rd, rs (R131). -/
  | xor32 (rd rs : BitVec 2)
  /-- ROTL32 rd, amount (R132): amount 1 to 31. -/
  | rotl32 (rd : BitVec 2) (amount : BitVec 5)
  /-- QR q (R133, R134): slot 0 to 7. -/
  | qr (q : BitVec 3)
  /-- COLRND (R135). -/
  | colrnd
  /-- DIAGRND (R136). -/
  | diagrnd
  /-- DBLRND dr (R137): index 0 to 126. -/
  | dblrnd (dr : BitVec 7)
  /-- ADDORIG (R139). -/
  | addorig
  /-- ILV (R151). -/
  | ilv
  /-- DLV (R152). -/
  | dlv
  /-- SER (R154). -/
  | ser
  /-- WALK (R166). -/
  | walk
  /-- XSTEP k (R167): sub-chunk 0 to 7. -/
  | xstep (k : BitVec 3)
  /-- XFULL k (R169): sub-chunk 0 to 6. -/
  | xfull (k : BitVec 3)
  /-- XEXACT K (R181): exit sub-chunk 2 to 7. -/
  | xexact (kx : BitVec 3)
  /-- BSHIFT r (R182): residue 1 to 31. -/
  | bshift (r : BitVec 5)
  /-- XPART K (R183): exit sub-chunk 2 to 7. -/
  | xpart (kx : BitVec 3)
  /-- XPREV K (R184): exit sub-chunk 2 to 7. -/
  | xprev (kx : BitVec 3)
deriving DecidableEq, Repr

end Sys2Proof
end

