-- ==== Sys2Proof/WellFormed.lean ====
section
/-! DEFINITION. Which operand values an instruction may carry (Table 30-2 of R86, R91). A host transaction may carry any
index and any data: an index outside Table 30-1 is refused when it is performed (R82, R200, R201), not when it is read. -/

namespace Sys2Proof

/-- An exit sub-chunk is 2 to 7 (Table 30-2; R165: n > 64, so K is at least 2). -/
def exitIndexOk (kx : BitVec 3) : Bool := decide (2 ≤ kx.toNat)

/-- The operand ranges of Table 30-2 and the reserved amount of R91. -/
def Instr.wellFormed : Instr → Bool
  | .wr _ _ => true
  | .rd _ => true
  | .xform4 => true
  | .latch => true
  | .derive => true
  | .done => true
  | .add32 _ _ => true
  | .xor32 _ _ => true
  | .rotl32 _ amount => decide (amount ≠ 0#5)
  | .qr _ => true
  | .colrnd => true
  | .diagrnd => true
  | .dblrnd dr => decide (dr.toNat ≤ 126)
  | .addorig => true
  | .ilv => true
  | .dlv => true
  | .ser => true
  | .walk => true
  | .xstep _ => true
  | .xfull k => decide (k.toNat ≤ 6)
  | .xexact kx => exitIndexOk kx
  | .bshift r => decide (r ≠ 0#5)
  | .xpart kx => exitIndexOk kx
  | .xprev kx => exitIndexOk kx

/-- The instructions that are micro-operations, format UW (R85, R86). -/
def Instr.isUop : Instr → Bool
  | .wr _ _ => false
  | .rd _ => false
  | .xform4 => false
  | .latch => true
  | .derive => true
  | .done => true
  | .add32 _ _ => true
  | .xor32 _ _ => true
  | .rotl32 _ _ => true
  | .qr _ => true
  | .colrnd => true
  | .diagrnd => true
  | .dblrnd _ => true
  | .addorig => true
  | .ilv => true
  | .dlv => true
  | .ser => true
  | .walk => true
  | .xstep _ => true
  | .xfull _ => true
  | .xexact _ => true
  | .bshift _ => true
  | .xpart _ => true
  | .xprev _ => true

end Sys2Proof
end

