-- ==== Sys2Proof/Decode.lean ====
section
/-! DEFINITION. The decoder of the three encodings (R80 to R91), total on any bytes and rejecting by name, and after it
the encoder, written from the same tables. -/

namespace Sys2Proof

/-- Why a word is no instruction. -/
inductive DecodeError where
  /-- A RD transaction whose DATA field is not zero (R81). -/
  | malformedRead
  /-- A command word other than 1 (R90). -/
  | reservedCommand
  /-- A micro-operation word outside Table 30-2 (R91). -/
  | reservedUop
  /-- A byte string that is as long as no encoding (R80: 5, 4 or 2 bytes). -/
  | badLength
deriving DecidableEq, Repr

/-- A word of one of the three encodings (R80). -/
inductive Code where
  /-- Format HT, a host transaction of 40 bits (R81). -/
  | ht (w : BitVec 40)
  /-- Format CW, a command word of 32 bits (R83). -/
  | cw (w : BitVec 32)
  /-- Format UW, a micro-operation word of 16 bits (R85). -/
  | uw (w : BitVec 16)
deriving DecidableEq, Repr

/-- Format HT (R81): RW in bit 39, IDX in bits 38 to 32, DATA in bits 31 to 0; DATA of a read must be 0. -/
def decodeHt (w : BitVec 40) : Except DecodeError Instr :=
  let idx : BitVec 7 := w.extractLsb' 32 7
  let data : Word := w.extractLsb' 0 32
  if w.extractLsb' 39 1 = 1#1 then .ok (.wr idx data)
  else if data = 0#32 then .ok (.rd idx)
  else .error .malformedRead

/-- Format CW (R83, R90): the one defined value is 1, XFORM4. -/
def decodeCw (w : BitVec 32) : Except DecodeError Instr :=
  if w = 1#32 then .ok .xform4 else .error .reservedCommand

/-- One row of the micro-operation code map (Table 30-2): the bits a mask selects, what they must be, and the operands
that the ARG byte then holds. -/
structure UwRow where
  mnemonic : String
  mask : BitVec 16
  pattern : BitVec 16
  build : BitVec 8 → Instr

/-- Table 30-2, control and round-function rows (R86, R87). -/
def uwTableControlAndRound : List UwRow :=
  [ ⟨"LATCH", 0xFFFF, 0x0100, fun _ => .latch⟩,
    ⟨"DERIVE", 0xFFFF, 0x0200, fun _ => .derive⟩,
    ⟨"DONE", 0xFFFF, 0x0F00, fun _ => .done⟩,
    ⟨"ADD32", 0xFFF0, 0x1000, fun a => .add32 (a.extractLsb' 2 2) (a.extractLsb' 0 2)⟩,
    ⟨"XOR32", 0xFFF0, 0x1100, fun a => .xor32 (a.extractLsb' 2 2) (a.extractLsb' 0 2)⟩,
    ⟨"ROTL32", 0xFF80, 0x1200, fun a => .rotl32 (a.extractLsb' 5 2) (a.extractLsb' 0 5)⟩,
    ⟨"QR", 0xFFF8, 0x1300, fun a => .qr (a.extractLsb' 0 3)⟩,
    ⟨"COLRND", 0xFFFF, 0x1400, fun _ => .colrnd⟩,
    ⟨"DIAGRND", 0xFFFF, 0x1500, fun _ => .diagrnd⟩,
    ⟨"DBLRND", 0xFF80, 0x1600, fun a => .dblrnd (a.extractLsb' 0 7)⟩,
    ⟨"ADDORIG", 0xFFFF, 0x1700, fun _ => .addorig⟩ ]

/-- Table 30-2, layout, walk and tail rows (R86). -/
def uwTableOutput : List UwRow :=
  [ ⟨"ILV", 0xFFFF, 0x2000, fun _ => .ilv⟩,
    ⟨"DLV", 0xFFFF, 0x2100, fun _ => .dlv⟩,
    ⟨"SER", 0xFFFF, 0x2200, fun _ => .ser⟩,
    ⟨"WALK", 0xFFFF, 0x3000, fun _ => .walk⟩,
    ⟨"XSTEP", 0xFFF8, 0x3100, fun a => .xstep (a.extractLsb' 0 3)⟩,
    ⟨"XFULL", 0xFFF8, 0x3200, fun a => .xfull (a.extractLsb' 0 3)⟩,
    ⟨"XEXACT", 0xFFF8, 0x4000, fun a => .xexact (a.extractLsb' 0 3)⟩,
    ⟨"BSHIFT", 0xFFE0, 0x4100, fun a => .bshift (a.extractLsb' 0 5)⟩,
    ⟨"XPART", 0xFFF8, 0x4200, fun a => .xpart (a.extractLsb' 0 3)⟩,
    ⟨"XPREV", 0xFFF8, 0x4300, fun a => .xprev (a.extractLsb' 0 3)⟩ ]

/-- Table 30-2, whole. -/
def uwTable : List UwRow := uwTableControlAndRound ++ uwTableOutput

/-- A row claims a word when the bits its mask selects are its pattern. -/
def UwRow.claims (r : UwRow) (w : BitVec 16) : Bool := w &&& r.mask == r.pattern

/-- Format UW (R85, R86): the row that claims the word, with ARG in the range the table gives; every other word is
reserved (R91). -/
def decodeUw (w : BitVec 16) : Except DecodeError Instr :=
  match uwTable.find? (fun r => r.claims w) with
  | some r =>
    let i := r.build (w.extractLsb' 0 8)
    if i.wellFormed then .ok i else .error .reservedUop
  | none => .error .reservedUop

/-- The decoder of a word of any of the three encodings. -/
def decode : Code → Except DecodeError Instr
  | .ht w => decodeHt w
  | .cw w => decodeCw w
  | .uw w => decodeUw w

/-- A number from its bytes, the lowest byte first. -/
def natOfBytes : List Byte → Nat
  | [] => 0
  | b :: bs => b.toNat + 256 * natOfBytes bs

/-- The `len` low bytes of a number, the lowest byte first. -/
def bytesOfNat : Nat → Nat → List Byte
  | 0, _ => []
  | len + 1, v => BitVec.ofNat 8 v :: bytesOfNat len (v / 256)

/-- The bytes of an encoded word. The spec numbers the bits of each word and stores none of them; the lowest byte first
is DESIGN CHOICE, log entry 12, safe. -/
def Code.toBytes : Code → List Byte
  | .ht w => bytesOfNat 5 w.toNat
  | .cw w => bytesOfNat 4 w.toNat
  | .uw w => bytesOfNat 2 w.toNat

/-- The word a byte string holds: the three encodings differ in length (R80), so the length tells which one it is. -/
def Code.ofBytes (bs : List Byte) : Option Code :=
  match bs.length with
  | 5 => some (.ht (BitVec.ofNat 40 (natOfBytes bs)))
  | 4 => some (.cw (BitVec.ofNat 32 (natOfBytes bs)))
  | 2 => some (.uw (BitVec.ofNat 16 (natOfBytes bs)))
  | _ => none

/-- The decoder on bytes, total: any byte string is an instruction or is rejected by name. -/
def decodeBytes (bs : List Byte) : Except DecodeError Instr :=
  match Code.ofBytes bs with
  | some c => decode c
  | none => .error .badLength

/-- An instruction whose bits are `w`, numbered as spec/opcode_table.json numbers them, laid out as bytes and given to
the decoder. -/
def decodeTableWord (nbits w : Nat) : Option Instr :=
  (decodeBytes (bytesOfNat (nbits / 8) w)).toOption

/-- A micro-operation word from its CODE and ARG bytes (R85). -/
def uwWord (code arg : BitVec 8) : BitVec 16 := code ++ arg

/-- The word of a micro-operation (Table 30-2, R87). WR, RD and XFORM4 are none: they get the word 0, which is reserved. -/
def encodeUw : Instr → BitVec 16
  | .wr _ _ => 0
  | .rd _ => 0
  | .xform4 => 0
  | .latch => uwWord 0x01 0
  | .derive => uwWord 0x02 0
  | .done => uwWord 0x0F 0
  | .add32 rd rs => uwWord 0x10 (0#4 ++ rd ++ rs)
  | .xor32 rd rs => uwWord 0x11 (0#4 ++ rd ++ rs)
  | .rotl32 rd amount => uwWord 0x12 (0#1 ++ rd ++ amount)
  | .qr q => uwWord 0x13 (0#5 ++ q)
  | .colrnd => uwWord 0x14 0
  | .diagrnd => uwWord 0x15 0
  | .dblrnd dr => uwWord 0x16 (0#1 ++ dr)
  | .addorig => uwWord 0x17 0
  | .ilv => uwWord 0x20 0
  | .dlv => uwWord 0x21 0
  | .ser => uwWord 0x22 0
  | .walk => uwWord 0x30 0
  | .xstep k => uwWord 0x31 (0#5 ++ k)
  | .xfull k => uwWord 0x32 (0#5 ++ k)
  | .xexact kx => uwWord 0x40 (0#5 ++ kx)
  | .bshift r => uwWord 0x41 (0#3 ++ r)
  | .xpart kx => uwWord 0x42 (0#5 ++ kx)
  | .xprev kx => uwWord 0x43 (0#5 ++ kx)

/-- The encoder (R81, R83, R85): `WR idx, data` is `(1 << 39) | (idx << 32) | data`, `RD idx` is `idx << 32`, XFORM4 is
the command word 1, the others are micro-operation words. -/
def encode : Instr → Code
  | .wr idx data => .ht (1#1 ++ idx ++ data)
  | .rd idx => .ht (0#1 ++ idx ++ 0#32)
  | .xform4 => .cw 1#32
  | .latch => .uw (encodeUw .latch)
  | .derive => .uw (encodeUw .derive)
  | .done => .uw (encodeUw .done)
  | .add32 rd rs => .uw (encodeUw (.add32 rd rs))
  | .xor32 rd rs => .uw (encodeUw (.xor32 rd rs))
  | .rotl32 rd amount => .uw (encodeUw (.rotl32 rd amount))
  | .qr q => .uw (encodeUw (.qr q))
  | .colrnd => .uw (encodeUw .colrnd)
  | .diagrnd => .uw (encodeUw .diagrnd)
  | .dblrnd dr => .uw (encodeUw (.dblrnd dr))
  | .addorig => .uw (encodeUw .addorig)
  | .ilv => .uw (encodeUw .ilv)
  | .dlv => .uw (encodeUw .dlv)
  | .ser => .uw (encodeUw .ser)
  | .walk => .uw (encodeUw .walk)
  | .xstep k => .uw (encodeUw (.xstep k))
  | .xfull k => .uw (encodeUw (.xfull k))
  | .xexact kx => .uw (encodeUw (.xexact kx))
  | .bshift r => .uw (encodeUw (.bshift r))
  | .xpart kx => .uw (encodeUw (.xpart kx))
  | .xprev kx => .uw (encodeUw (.xprev kx))

end Sys2Proof
end

