-- ==== Sys2Proof/Machine/State.lean ====
section
/-! DEFINITION. The state of the machine (10_state.md, R20 to R38), the reasons a step can stop, and the state right
after reset (R37, Table 10-2; R250). Plain data throughout. -/

namespace Sys2Proof.Machine

/-- The data memory: address and byte pairs, addresses strictly rising, no byte that an unlisted address would read as. -/
abbrev Memory := List Host.Cell

/-- What kind of thing answers at an address (R59): the engine's regions must be ordinary memory. -/
inductive MemKind where
  /-- A read returns the last value written, a rewrite changes nothing. -/
  | ordinary
  /-- Reads have side effects, or bytes are write-once: outside the precondition. -/
  | device
deriving DecidableEq, Repr

/-- One region of the platform's memory map (R52: what memory exists is the platform's affair). -/
structure Region where
  base : Nat
  size : Nat
  kind : MemKind
  readable : Bool
  writable : Bool
deriving DecidableEq, Repr

/-- The parameters of the platform (R7, R52): the address width AW, and the memory that exists. Changed by no step.
Log entry 6. -/
structure Platform where
  aw : Nat
  map : List Region
deriving DecidableEq, Repr

/-- What host and platform do next. Log entries 8 and 11. The register transactions and command words are the host's (R80), the
stores of data memory the caller's (R36, R64, R209); its loads change nothing and are no input. That they are inputs, taken
one at a time between commands, is DESIGN CHOICE, log entries 8 and 31. -/
inductive Input where
  /-- A host transaction, format HT (R81). -/
  | transaction (w : BitVec 40)
  /-- A value written to CMD, format CW (R80(b), R83). -/
  | command (w : BitVec 32)
  /-- The caller stores a byte string in its data memory, byte j at `addr + j` (R36, R209: new input for a command, the
  buffers reused). DESIGN CHOICE, log entry 31. -/
  | callerStore (addr : Nat) (bytes : List Byte)
  /-- The reset event, applied by the platform (R250). -/
  | reset
deriving DecidableEq, Repr

/-- One entry of the engine's event history (R61). Log entry 13. -/
inductive Event where
  /-- The sequencer issued a micro-operation word. -/
  | issue (w : BitVec 16)
  /-- `MemRead(addr, 32)`. -/
  | read (addr : Nat)
  /-- `MemWrite(addr, 32, v)`. -/
  | write (addr : Nat)
deriving DecidableEq, Repr

/-- The pieces of working state whose lifetime R35 bounds. -/
inductive WorkElem where
  | latched | matrices | lanes | original | keystream | remaining | subchunk | flags | pending | shifted | upc | slot
deriving DecidableEq, Repr

/-- Which working state the current command has written (R35); all false while no command runs. -/
structure Live where
  latched : Bool
  matrices : Bool
  lanes : Bool
  original : Bool
  keystream : Bool
  remaining : Bool
  subchunk : Bool
  flags : Bool
  pending : Bool
  shifted : Bool
deriving DecidableEq, Repr

/-- Nothing has been written: after reset and after DONE (R35, R37). -/
def Live.none : Live := ⟨false, false, false, false, false, false, false, false, false, false⟩

/-- Everything has been written. -/
def Live.all : Live := ⟨true, true, true, true, true, true, true, true, true, true⟩

/-- The working state of one command (R27 to R34), internal to the engine and invisible to the host. -/
structure Working where
  /-- Latched SRC (R27). -/
  s : Word
  /-- Latched DST (R27). -/
  d : Word
  /-- Latched NBYTES[8:0] (R27). -/
  n : BitVec 9
  /-- Latched ROUNDS[7:0] (R27). -/
  nr : BitVec 8
  /-- The matrix file M (R29). -/
  m : Matrices
  /-- The lane file V (R28). -/
  v : Lanes
  /-- The pre-mix copy V0 (R28). -/
  v0 : Lanes
  /-- The keystream buffer KS (R30). -/
  ks : Vector Byte 256
  /-- The remaining-count, 10 bits two's complement (R31). -/
  rem : BitVec 10
  /-- The sub-chunk index (R31). -/
  k : BitVec 3
  /-- Flag Z (R32). -/
  z : Bool
  /-- Flag N (R32). -/
  neg : Bool
  /-- The pending chunk PEND (R34). -/
  pend : Chunk
  /-- The shifted keystream T (R34). -/
  t : Chunk
  /-- The scratch region SCR: no architected content, nothing reads or writes it (R34). Log entry 28. -/
  scr : Chunk
  /-- The slot of the enclosing QR, which binds the roles of R87 to lanes (R134); none outside a QR. Log entry 15. -/
  slot : Option (BitVec 3)
  /-- Which of the above hold a value (R35). -/
  live : Live
deriving DecidableEq, Repr

/-- The machine. -/
structure State where
  /-- CS0 to CS15 (R21). -/
  cs : Block
  /-- CS[i] has been written since reset (R37, R118(6)). -/
  csSet : Vector Bool 16
  /-- SRC (R24). -/
  src : Word
  /-- SRC has been written since reset (R37, R118(3)). -/
  srcSet : Bool
  /-- DST (R24). -/
  dst : Word
  /-- DST has been written since reset (R37, R118(3)). -/
  dstSet : Bool
  /-- NBYTES, all 32 bits (R24, R200). -/
  nbytes : Word
  /-- ROUNDS, all 32 bits (R24, R200). -/
  rounds : Word
  /-- STATUS.DONE (R26). -/
  statusDone : Bool
  /-- The working state of the running command (R27 to R35). -/
  work : Working
  /-- The sequencer index; none is IDLE (R33). The host is held exactly while it is not IDLE (R25). -/
  upc : Option Nat
  /-- The micro-operation words still to be issued, next first (R112, R168). R36 calls the sequence no state: that the rest of
  it is a field is DESIGN CHOICE, log entry 16. -/
  seq : List (BitVec 16)
  /-- The data memory: the caller's, a parameter of the step in R36, carried here from step to step:
  DESIGN CHOICE, log entry 31. -/
  mem : Memory
  /-- The platform's parameters (R7, R52), no state in R36's words: carried here unchanged, DESIGN CHOICE, log entry 6. -/
  platform : Platform
  /-- What host and platform do next, first first (the model's own). Log entry 8. -/
  inputs : List Input
  /-- What RD has returned, first first (the model's own). Log entry 14. -/
  replies : List Word
  /-- The event history, first first (R61; the model's own, read by nothing). Log entry 13. -/
  history : List Event
  /-- Which free value comes next (the model's own). Log entry 5. -/
  freeCtr : Nat
deriving DecidableEq, Repr

/-- Reasons the machine stops with a fault. The hardware reports no fault (R220); each of these is the model's own. -/
inductive Fault where
  /-- Raised by a micro-operation that reads working state which the current command has not written (R35, U12, U13).
  No command of the sequencer reaches it. Safe. -/
  | deadRead (e : WorkElem)
  /-- Raised by an access of engine, collaborator or caller to an address outside the data space (R50, R53). An admitted
  command never makes one. Log entries 22, 25, 31 and 35, safe. -/
  | outOfSpace
  /-- Raised by an access to a byte that is not ordinary memory with the needed permission (R59, R234): for the engine
  excluded by MEM at the launch. Raised as well by a caller's store to a byte that is no ordinary memory, and by a
  collaborator's access to one. Log entries 22, 31 and 35, safe. -/
  | notMemory
  /-- Raised by BSHIFT when no sub-chunk precedes the exit (R182 needs K at least 1). Safe. -/
  | noPreviousSubchunk
  /-- Raised by a micro-operation word or operand outside Table 30-2 (R91, U11). The sequencer issues none. Safe. -/
  | reservedUop
  /-- Raised by a host operation performed while the host is held (R25, R228): it cannot happen. Log entry 21, safe. -/
  | hostHeld
  /-- Raised when the sequencer would issue a word that is no micro-operation, or has none left while a command runs (R33).
  Log entry 16, safe. -/
  | sequencer
  /-- Raised by the host's pseudo-instruction XFORM4 when an operand does not fit the 32 bits of a transaction's DATA (R81,
  R94, R202): no such transaction exists. DESIGN CHOICE, log entry 32, safe. -/
  | operandTooWide
  /-- Raised when a command has run for more micro-operations than any command has (R112, R116). Log entry 10, safe. -/
  | endless
deriving DecidableEq, Repr

/-- Reasons a step is refused. -/
inductive Refusal where
  /-- Raised by an arm of exec that has no meaning yet: the mnemonic as the opcode table has it. Safe. -/
  | notModelled (mnemonic : String)
  /-- LEN (Table 60-1 of R221): raised by a launch whose NBYTES is out of range. Safe. -/
  | len
  /-- ROUNDS (Table 60-1): raised by a launch whose round count is zero, odd or too wide. Safe. -/
  | rounds
  /-- RANGE (Table 60-1): raised by a launch with SRC or DST unwritten or a region past the top of the space. Safe. -/
  | range
  /-- MEM (Table 60-1): raised by a launch with a region that is not all ordinary memory. Safe. -/
  | memory
  /-- ALIAS (Table 60-1): raised by a launch whose regions overlap and are not the same. Safe. -/
  | aliasing
  /-- CSUNSET (Table 60-1): raised by a launch with a Cipher State word unwritten since reset. Safe. -/
  | csUnset
  /-- BADCMD (Table 60-1): raised by a write to CMD of any value but 1. Safe. -/
  | badCmd
  /-- BADREG (Table 60-1): raised by WR or RD with IDX 22 to 127, and by RD with non-zero DATA. Safe. -/
  | badReg
deriving DecidableEq, Repr

/-- What one step or one meaning answers. -/
abbrev Result := Host.Outcome State Fault Refusal

/-- A chunk of zero bytes. -/
def zeroChunk : Chunk := Vector.replicate 32 0

/-- The working state after reset: unspecified in the spec (R37), so every element is dead; the stored values are
DESIGN CHOICE, log entry 4, unsafe only for who reads them past the live bits. -/
def Working.reset : Working where
  s := 0
  d := 0
  n := 0
  nr := 0
  m := Vector.replicate 4 (Vector.replicate 16 0)
  v := Vector.replicate 16 (Vector.replicate 4 0)
  v0 := Vector.replicate 16 (Vector.replicate 4 0)
  ks := Vector.replicate 256 0
  rem := 0
  k := 0
  z := false
  neg := false
  pend := zeroChunk
  t := zeroChunk
  scr := zeroChunk
  slot := none
  live := Live.none

/-- The platform a machine has unless told otherwise: AW = 32 (D4) and ordinary memory everywhere. DESIGN CHOICE, log
entry 6, unsafe. -/
def Platform.default : Platform where
  aw := Config.defaultAw
  map := [⟨0, 2 ^ Config.defaultAw, .ordinary, true, true⟩]

/-- The machine right after reset (R37, Table 10-2; R38, R250). CS, SRC and DST are unspecified: unwritten, with 0 in
storage (DESIGN CHOICE, log entry 2). -/
def State.reset : State where
  cs := Vector.replicate 16 0
  csSet := Vector.replicate 16 false
  src := 0
  srcSet := false
  dst := 0
  dstSet := false
  nbytes := 0
  rounds := 0
  statusDone := false
  work := Working.reset
  upc := none
  seq := []
  mem := []
  platform := Platform.default
  inputs := []
  replies := []
  history := []
  freeCtr := 0

end Sys2Proof.Machine
end

