-- ==== Sys2Proof/Machine/Operands.lean ====
section
/-! DEFINITION. Every operand form of the spec: the quantities R84 derives, the slices of keystream buffer and memory that
a sub-chunk names, the lanes that a role names (R134), the window's addresses (R82), and byte strings. -/

namespace Sys2Proof.Machine

/-- `rotl32(x, c)` for 0 < c < 32 (R8, R132). -/
def rotl32 (x : Word) (c : Nat) : Word := (x <<< c) ||| (x >>> (32 - c))

/-- Byte j of `le32(v)`: bits 8j+7 to 8j (R9, R54). -/
def leByte (v : Word) (j : Nat) : Byte := v.extractLsb' (8 * j) 8

/-- `A ^ B` on two chunks (R9). -/
def chunkXor (a b : Chunk) : Chunk := Vector.ofFn fun j => a[j] ^^^ b[j]

/-- The legal NBYTES field, `n = zext(NBYTES[8:0])` (R84, R114). -/
def nbytesField (w : Word) : BitVec 9 := w.extractLsb' 0 9

/-- The ROUNDS field, `nr = zext(ROUNDS[7:0])` (R84, R114). -/
def roundsField (w : Word) : BitVec 8 := w.extractLsb' 0 8

/-- `ndr = nr / 2`, the number of double rounds (R84). R138 and R259 give an odd or zero count no meaning, and an admitted
command has none; where one is met outside a command the half is rounded down. DESIGN CHOICE, log entry 34, unsafe. -/
def doubleRounds (nr : Nat) : Nat := nr / 2

/-- `nblocks = ceil(n / 64)`, the blocks whose keystream is used (R84, R120). -/
def blocksUsed (n : Nat) : Nat := (n + 63) / 64

/-- `K = ceil(n / 32) - 1`, the exit sub-chunk (R14, R84). -/
def exitSubchunk (n : Nat) : Nat := (n + 31) / 32 - 1

/-- `r = n mod 32`, the residue (R14, R84). -/
def residue (n : Nat) : Nat := n % 32

/-- `ctr[b] = add32(CS[12], b)`, the counter word of block b (R84, R115). -/
def blockCounter (ctr : Word) (b : Nat) : Word := ctr + BitVec.ofNat 32 b

/-- The low AW bits of a word written to SRC or DST (R84, R200). -/
def addrField (aw : Nat) (w : Word) : Word := BitVec.ofNat 32 (w.toNat % 2 ^ aw)

/-- Sub-chunk k of the keystream, `KS[32k .. 32k+32)` (R30, R165). -/
def keystreamChunk (ks : Vector Byte 256) (k : BitVec 3) : Chunk :=
  Vector.ofFn fun j : Fin 32 => ks[32 * k.toNat + j.val]'(by have := k.isLt; omega)

/-- `(A ‖ B)[r .. r + 32)` for two adjacent chunks and a residue (R182). -/
def byteShift (a b : Chunk) (r : BitVec 5) : Chunk :=
  Vector.ofFn fun j : Fin 32 =>
    if h : r.toNat + j.val < 32 then a[r.toNat + j.val]
    else b[r.toNat + j.val - 32]'(by have := r.isLt; omega)

/-- The lane that slot q binds to a role (R87, R134). Word i stands in row i div 4 and column i mod 4 (R21), the role is
the row, and the slots are the four columns and the four wrapped diagonals. -/
def slotLane (q : BitVec 3) (role : BitVec 2) : Fin 16 :=
  if q.toNat < 4 then Fin.ofNat 16 (4 * role.toNat + q.toNat % 4)
  else Fin.ofNat 16 (4 * role.toNat + (q.toNat % 4 + role.toNat) % 4)

/-- The byte address of register IDX of the window: BASE plus four times the index (R82). -/
def windowAddr (idx : BitVec 7) : Nat := Config.windowBase + 4 * idx.toNat

end Sys2Proof.Machine
end

