-- ==== Sys2Proof/Machine/Flags.lean ====
section
/-! DEFINITION. Every flag computation of the spec: Z and N (R32, R167) and the STATUS word (R26). -/

namespace Sys2Proof.Machine

/-- `sext_10(zext(n))`: the remaining-count as WALK loads it (R166). -/
def remLoad (n : BitVec 9) : BitVec 10 := n.setWidth 10

/-- The remaining-count after one sub-chunk, 10-bit two's complement (R167). -/
def remStep (rem : BitVec 10) : BitVec 10 := rem - 32#10

/-- Flag Z of XSTEP: the count is exactly 0 after the subtraction (R32). -/
def flagZ (rem : BitVec 10) : Bool := rem == 0#10

/-- Flag N of XSTEP: the count is negative after the subtraction (R32). -/
def flagN (rem : BitVec 10) : Bool := rem.msb

/-- The residue `r = rem + 32` of a partial exit (R167, R168), 1 to 31 in a command; below that its low five bits. DESIGN
CHOICE, log entry 37. -/
def remResidue (rem : BitVec 10) : BitVec 5 := (rem + 32#10).setWidth 5

/-- The STATUS register: bit 0 is DONE, the other bits read 0 (R26). -/
def statusWord (done : Bool) : Word := if done then 1#32 else 0#32

end Sys2Proof.Machine
end

