-- ==== Sys2Proof/Machine/Ops.lean ====
section
/-! DEFINITION. The named operations over memory, registers and the sequencer that the meanings share.

TAKING AN EXCEPTION AND RETURNING FROM ONE. The engine has neither: its list of exceptions is empty (R220), it has no trap
entry (R225), no trap return (R226), no vectors and no cause codes (R227) and no interrupt (R223). So there is no such
operation here. What stands in its place is the refusal (R221), an outcome with no successor state, and the reset event
(R250), the only defined way back to a known state (R226): `State.resetEvent`. -/

namespace Sys2Proof.Machine

/-! ### The data memory (R50, R55, R58, R59) -/

/-- What an address that the memory does not list reads as. DESIGN CHOICE, log entry 1, unsafe. -/
def unlistedByte : Byte := 0#8

/-- The byte at an address. -/
def Memory.get : Memory → Nat → Byte
  | [], _ => unlistedByte
  | c :: rest, a => if c.1 = a then c.2 else Memory.get rest a

/-- Put one cell in front, unless it holds what an unlisted address reads as anyway. -/
def Memory.cons (a : Nat) (v : Byte) (rest : Memory) : Memory :=
  if v = unlistedByte then rest else (a, v) :: rest

/-- Write one byte, keeping the canonical form. -/
def Memory.set : Memory → Nat → Byte → Memory
  | [], a, v => Memory.cons a v []
  | c :: rest, a, v =>
    if a < c.1 then Memory.cons a v (c :: rest)
    else if c.1 = a then Memory.cons a v rest
    else c :: Memory.set rest a v

/-- The canonical form from a lower bound on: addresses strictly rising, no unlisted byte. -/
def Memory.wfFrom : Nat → Memory → Bool
  | _, [] => true
  | lo, c :: rest => decide (lo ≤ c.1) && decide (c.2 ≠ unlistedByte) && Memory.wfFrom (c.1 + 1) rest

/-- The canonical form. -/
def Memory.wf (m : Memory) : Bool := Memory.wfFrom 0 m

/-- The 32-byte string at an address, byte j from address a + j (R55). -/
def Memory.load (m : Memory) (a : Nat) : Chunk := Vector.ofFn fun j : Fin 32 => Memory.get m (a + j.val)

/-- Write a byte string, byte j to address a + j, in ascending address order (R55, R58). -/
def Memory.store (m : Memory) (a : Nat) : List Byte → Memory
  | [] => m
  | b :: bs => Memory.store (Memory.set m a b) (a + 1) bs

/-! ### The platform (R50, R52, R59) -/

/-- The region claims the address. -/
def Region.covers (r : Region) (a : Nat) : Bool := decide (r.base ≤ a) && decide (a < r.base + r.size)

/-- The address holds a byte of ordinary memory that may be read: `write = false`, or written: `write = true`. The first
region of the map that covers it decides. Log entry 6. -/
def Platform.ordinary (p : Platform) (write : Bool) (a : Nat) : Bool :=
  match p.map.find? (fun r => r.covers a) with
  | some r => decide (r.kind = .ordinary) && (if write then r.writable else r.readable)
  | none => false

/-- Why one byte may not be accessed, if it may not. -/
def Platform.byteFault (p : Platform) (write : Bool) (a : Nat) : Option Fault :=
  if 2 ^ p.aw ≤ a then some .outOfSpace
  else if p.ordinary write a then none
  else some .notMemory

/-- Why a byte string may not be accessed, if it may not: the first byte that fails, in ascending order. -/
def Platform.accessFault (p : Platform) (write : Bool) (a : Nat) : Nat → Option Fault
  | 0 => none
  | len + 1 =>
    match p.byteFault write a with
    | some f => some f
    | none => Platform.accessFault p write (a + 1) len

/-- Every byte of a region is ordinary memory of the needed permission (R118(4)). -/
def Platform.ordinaryRegion (p : Platform) (write : Bool) (a : Nat) : Nat → Bool
  | 0 => true
  | len + 1 => p.ordinary write a && Platform.ordinaryRegion p write (a + 1) len

/-! ### The engine's accesses (R10, R55 to R58, R61) -/

/-- Append to the event history. -/
def State.log (s : State) (e : Event) : State := { s with history := s.history ++ [e] }

/-- `MemRead(a, 32)`, then the rest of the micro-operation with the bytes read. -/
def memRead (s : State) (a : Nat) (k : Chunk → State → Result) : Result :=
  match s.platform.accessFault false a 32 with
  | some f => .fault f
  | none => k (s.mem.load a) (s.log (.read a))

/-- `MemWrite(a, 32, v)`, then the rest of the micro-operation. -/
def memWrite (s : State) (a : Nat) (v : Chunk) (k : State → Result) : Result :=
  match s.platform.accessFault true a 32 with
  | some f => .fault f
  | none => k ({ s with mem := s.mem.store a v.toList }.log (.write a))

/-! ### The caller's own stores (R36, R64, R209) -/

/-- Why the caller may not store at a byte, if it may not: it lies outside the data space, or is no ordinary memory (R52,
R59). What the engine may do there does not matter: the caller fills regions that the engine only reads. Log entry 31. -/
def Platform.callerFault (p : Platform) (a : Nat) : Option Fault :=
  if 2 ^ p.aw ≤ a then some .outOfSpace
  else
    match p.map.find? (fun r => r.covers a) with
    | some r => if r.kind = .ordinary then none else some .notMemory
    | none => some .notMemory

/-- Why the caller may not store a byte string, if it may not: the first byte that fails, in ascending order. -/
def Platform.callerStoreFault (p : Platform) (a : Nat) : Nat → Option Fault
  | 0 => none
  | len + 1 =>
    match p.callerFault a with
    | some f => some f
    | none => Platform.callerStoreFault p (a + 1) len

/-- The data memory with a byte string stored. -/
def State.storeBytes (s : State) (a : Nat) (bs : List Byte) : State := { s with mem := s.mem.store a bs }

/-- The caller stores a byte string in its data memory. It is no access of the engine and enters no history.
DESIGN CHOICE, log entry 31. -/
def callerStore (a : Nat) (bs : List Byte) (s : State) : Result :=
  match s.platform.callerStoreFault a bs.length with
  | some f => .fault f
  | none => .next (s.storeBytes a bs)

/-! ### Working state (R27 to R35) -/

/-- The element holds a value: the current command has written it (R35). -/
def State.isLive (s : State) : WorkElem → Bool
  | .latched => s.work.live.latched
  | .matrices => s.work.live.matrices
  | .lanes => s.work.live.lanes
  | .original => s.work.live.original
  | .keystream => s.work.live.keystream
  | .remaining => s.work.live.remaining
  | .subchunk => s.work.live.subchunk
  | .flags => s.work.live.flags
  | .pending => s.work.live.pending
  | .shifted => s.work.live.shifted
  | .upc => s.upc.isSome
  | .slot => s.work.slot.isSome

/-- A micro-operation that reads these elements: it faults on the first dead one (R35), else it goes on. -/
def reading (s : State) (es : List WorkElem) (k : Result) : Result :=
  match es.find? (fun e => !s.isLive e) with
  | some e => .fault (.deadRead e)
  | none => k

/-- `upc <- upc + 1` (R33). -/
def State.advance (s : State) : State := { s with upc := s.upc.map (· + 1) }

/-! ### Reset (R250) -/

/-- The reset event: `upc` IDLE, DONE, NBYTES and ROUNDS 0, every other element of the engine unspecified, no memory access.
The model's own fields and the platform are not the engine's and stay. -/
def State.resetEvent (s : State) : State :=
  { s with
    cs := Vector.replicate 16 0, csSet := Vector.replicate 16 false
    src := 0, srcSet := false, dst := 0, dstSet := false
    nbytes := 0, rounds := 0, statusDone := false
    work := Working.reset, upc := none, seq := [] }

/-! ### Host operations (R25, R200, R201) -/

/-- The host's write to CMD is pending: exactly while a command runs (R25, R116). -/
def State.hostHeld (s : State) : Bool := s.upc.isSome

/-- A host operation: the host is held while a command runs, so it can make none then (R25). Log entry 21. -/
def whenIdle (s : State) (k : Result) : Result := if s.hostHeld then .fault .hostHeld else k

/-- Write CS[i] (R200). -/
def State.writeCs (s : State) (i : Fin 16) (data : Word) : State :=
  { s with cs := s.cs.set i data, csSet := s.csSet.set i true }

/-- Write SRC, its AW low bits (R200). -/
def State.writeSrc (s : State) (data : Word) : State :=
  { s with src := addrField s.platform.aw data, srcSet := true }

/-- Write DST, its AW low bits (R200). -/
def State.writeDst (s : State) (data : Word) : State :=
  { s with dst := addrField s.platform.aw data, dstSet := true }

/-- Write NBYTES, all 32 bits (R200). -/
def State.writeNbytes (s : State) (data : Word) : State := { s with nbytes := data }

/-- Write ROUNDS, all 32 bits (R200). -/
def State.writeRounds (s : State) (data : Word) : State := { s with rounds := data }

/-- A read returns this word to the host (R201). -/
def State.reply (s : State) (w : Word) : State := { s with replies := s.replies ++ [w] }

/-- A read of a register: its value if it has been written since reset, else a free value, a fresh one each time
(R201, U12). Log entry 3, safe. -/
def State.replyRegister (s : State) (written : Bool) (w : Word) : State :=
  if written then s.reply w
  else { s.reply (Config.freeWord s.freeCtr) with freeCtr := s.freeCtr + 1 }

/-! ### Sequencing of outcomes -/

/-- Go on from a next state; a fault or a refusal ends the run. -/
def andThen (r : Result) (k : State → Result) : Result :=
  match r with
  | .next s => k s
  | .fault f => .fault f
  | .refused e => .refused e

end Sys2Proof.Machine
end

