-- ==== Sys2Proof/Machine/Sequence.lean ====
section
/-! DEFINITION. The micro-operation sequence of one command (R112) and the sequencer's branch (R168). -/

namespace Sys2Proof.Machine

/-- The double rounds of a command, `DBLRND 0` to `DBLRND ndr-1` (R112, R138). -/
def doubleRoundSeq (nr : Nat) : List Instr :=
  (List.range (doubleRounds nr)).map fun dr => .dblrnd (BitVec.ofNat 7 dr)

/-- What follows LATCH, up to the first XSTEP: fixed by nr at LATCH (R112, R168). -/
def preamble (nr : Nat) : List Instr :=
  [.derive, .ilv] ++ doubleRoundSeq nr ++ [.addorig, .dlv, .ser, .walk, .xstep 0]

/-- The branch after XSTEP k, chosen by the flags it just wrote (R168). On an index or a count that no admitted command has:
DESIGN CHOICE, log entry 37. -/
def continuation (k : BitVec 3) (z neg : Bool) (rem : BitVec 10) : List Instr :=
  if z then [.xexact k, .done]
  else if neg then [.bshift (remResidue rem), .xpart k, .xprev k, .done]
  else [.xfull k, .xstep (k + 1)]

/-- The walk up to the exit: `XSTEP 0 ; XFULL 0 ; ... ; XSTEP K-1 ; XFULL K-1` (R112). -/
def walkSeq (exit : Nat) : List Instr :=
  (List.range exit).flatMap fun k => [.xstep (BitVec.ofNat 3 k), .xfull (BitVec.ofNat 3 k)]

/-- `useq(nr, n)`, the whole sequence of one command as R112 writes it. The sequencer does not compute it: it issues LATCH,
then `preamble`, then the continuations its flags select, and this sequence is what results. -/
def useq (nr n : Nat) : List Instr :=
  let kx := BitVec.ofNat 3 (exitSubchunk n)
  [.latch, .derive, .ilv] ++ doubleRoundSeq nr ++ [.addorig, .dlv, .ser, .walk]
    ++ walkSeq (exitSubchunk n) ++ [.xstep kx]
    ++ (if residue n = 0 then [.xexact kx]
        else [.bshift (BitVec.ofNat 5 (residue n)), .xpart kx, .xprev kx])
    ++ [.done]

/-- The sequencer appends micro-operations to those still to be issued. -/
def State.enqueue (s : State) (is : List Instr) : State := { s with seq := s.seq ++ is.map encodeUw }

end Sys2Proof.Machine
end

