-- ==== Sys2Proof/Machine/Control.lean ====
section
/-! DEFINITION. The control micro-operations LATCH, DERIVE, DONE (R114 to R116, 40_command_xform4.md). -/

namespace Sys2Proof.Machine

/-- The operands as LATCH copies them (R27, R84, R114). -/
def State.latchOperands (s : State) : State :=
  { s with
    work := { s.work with
      s := addrField s.platform.aw s.src, d := addrField s.platform.aw s.dst
      n := nbytesField s.nbytes, nr := roundsField s.rounds
      live := { s.work.live with latched := true } }
    statusDone := false }

/-- LATCH (R114): the operands are copied, DONE is cleared, and with nr known the sequencer has the sequence up to the first
XSTEP (R112, R168). Performed on an odd or zero round count, which no admitted command has: log entry 34. -/
def execLatch (s : State) : Result :=
  reading s [.upc]
    (.next ((s.latchOperands.enqueue (preamble (roundsField s.rounds).toNat)).advance))

/-- The four per-block input states (R115): word 12 of block b is `add32(CS[12], b)`, every other word is the Cipher
State's. -/
def deriveStates (cs : Block) : Matrices :=
  Vector.ofFn fun b : Fin 4 => Vector.ofFn fun i : Fin 16 =>
    if i = 12 then blockCounter cs[12] b.val else cs[i]

/-- DERIVE (R115). -/
def execDerive (s : State) : Result :=
  reading s [.upc]
    (.next ({ s with work := { s.work with
      m := deriveStates s.cs, live := { s.work.live with matrices := true } } }.advance))

/-- DONE (R116): DONE is set, the sequencer is idle, the host's pending write is released, the working state is dead
(R35). Its contents are not erased (R230). -/
def execDone (s : State) : Result :=
  reading s [.upc]
    (.next { s with
      statusDone := true, upc := none, seq := []
      work := { s.work with slot := none, live := Live.none } })

end Sys2Proof.Machine
end

