-- ==== Sys2Proof/Machine/Layout.lean ====
section
/-! DEFINITION. Interleave, de-interleave, serialise (42_interleave.md): ILV, DLV, SER. -/

namespace Sys2Proof.Machine

/-- `V[i][b] <- M[b][i]` (R150, R151). -/
def interleave (m : Matrices) : Lanes := Vector.ofFn fun i => Vector.ofFn fun b => m[b][i]

/-- `M[b][i] <- V[i][b]` (R150, R152). -/
def deinterleave (v : Lanes) : Matrices := Vector.ofFn fun b => Vector.ofFn fun i => v[i][b]

/-- `KS[64b + 4i + j] <- bits [8j+7 : 8j] of M[b][i]` (R154). -/
def serialise (m : Matrices) : Vector Byte 256 :=
  Vector.ofFn fun x : Fin 256 =>
    leByte ((m[x.val / 64]'(by omega))[x.val / 4 % 16]'(by omega)) (x.val % 4)

/-- ILV (R151): the lanes, and the copy that ADDORIG needs. -/
def execIlv (s : State) : Result :=
  reading s [.upc, .matrices]
    (.next ({ s with work := { s.work with
      v := interleave s.work.m, v0 := interleave s.work.m
      live := { s.work.live with lanes := true, original := true } } }.advance))

/-- DLV (R152). -/
def execDlv (s : State) : Result :=
  reading s [.upc, .lanes]
    (.next ({ s with work := { s.work with
      m := deinterleave s.work.v, live := { s.work.live with matrices := true } } }.advance))

/-- SER (R154). -/
def execSer (s : State) : Result :=
  reading s [.upc, .matrices]
    (.next ({ s with work := { s.work with
      ks := serialise s.work.m, live := { s.work.live with keystream := true } } }.advance))

end Sys2Proof.Machine
end

