-- ==== Sys2Proof/Machine/RoundCore.lean ====
section
/-! DEFINITION. The round-function core (41_round_function.md): ADD32, XOR32, ROTL32, QR, COLRND, DIAGRND, DBLRND, ADDORIG.
The quarter round, its amounts, its slots and the double round are what the spec supplies from general knowledge (G1 to
G4). PRESUMED, log entry 17. -/

namespace Sys2Proof.Machine

/-- ADD32 rd, rs inside QR q, on the four blocks of the lane (R130). -/
def laneAdd (q : BitVec 3) (rd rs : BitVec 2) (v : Lanes) : Lanes :=
  v.set (slotLane q rd) (Vector.ofFn fun b => v[slotLane q rd][b] + v[slotLane q rs][b])

/-- XOR32 rd, rs inside QR q (R131). -/
def laneXor (q : BitVec 3) (rd rs : BitVec 2) (v : Lanes) : Lanes :=
  v.set (slotLane q rd) (Vector.ofFn fun b => v[slotLane q rd][b] ^^^ v[slotLane q rs][b])

/-- ROTL32 rd, c inside QR q (R132). -/
def laneRotl (q : BitVec 3) (rd : BitVec 2) (c : Nat) (v : Lanes) : Lanes :=
  v.set (slotLane q rd) (Vector.ofFn fun b => rotl32 v[slotLane q rd][b] c)

/-- QR q: the fixed sequence of twelve lane operations, roles a, b, c, d = 0, 1, 2, 3 (R133). -/
def quarterRound (q : BitVec 3) (v : Lanes) : Lanes :=
  v |> laneAdd q 0 1 |> laneXor q 3 0 |> laneRotl q 3 16
    |> laneAdd q 2 3 |> laneXor q 1 2 |> laneRotl q 1 12
    |> laneAdd q 0 1 |> laneXor q 3 0 |> laneRotl q 3 8
    |> laneAdd q 2 3 |> laneXor q 1 2 |> laneRotl q 1 7

/-- COLRND: QR 0 to QR 3 (R135). -/
def columnRound (v : Lanes) : Lanes :=
  v |> quarterRound 0 |> quarterRound 1 |> quarterRound 2 |> quarterRound 3

/-- DIAGRND: QR 4 to QR 7 (R136). -/
def diagonalRound (v : Lanes) : Lanes :=
  v |> quarterRound 4 |> quarterRound 5 |> quarterRound 6 |> quarterRound 7

/-- DBLRND: a column round, then a diagonal round (R137). -/
def doubleRound (v : Lanes) : Lanes := diagonalRound (columnRound v)

/-- ADDORIG: the pre-mix lanes are added back (R139). -/
def addOriginal (v v0 : Lanes) : Lanes :=
  Vector.ofFn fun i => Vector.ofFn fun b => v[i][b] + v0[i][b]

/-- The lane file rewritten. -/
def State.setLanes (s : State) (v : Lanes) : State := { s with work := { s.work with v := v } }

/-- A lane operation on the lanes that the enclosing QR binds (R87); outside a QR no lane is bound. -/
def inSlot (s : State) (f : BitVec 3 → Lanes → Lanes) : Result :=
  match s.work.slot with
  | some q => reading s [.lanes] (.next (s.setLanes (f q s.work.v)))
  | none => .fault (.deadRead .slot)

/-- ADD32 (R130). -/
def execAdd32 (rd rs : BitVec 2) (s : State) : Result := inSlot s fun q v => laneAdd q rd rs v

/-- XOR32 (R131). -/
def execXor32 (rd rs : BitVec 2) (s : State) : Result := inSlot s fun q v => laneXor q rd rs v

/-- ROTL32 (R132); amount 0 is reserved (R91). -/
def execRotl32 (rd : BitVec 2) (amount : BitVec 5) (s : State) : Result :=
  if amount = 0#5 then .fault .reservedUop
  else inSlot s fun q v => laneRotl q rd amount.toNat v

/-- QR (R133): the slot is bound for the twelve operations only. -/
def execQr (q : BitVec 3) (s : State) : Result :=
  reading s [.lanes] (.next (s.setLanes (quarterRound q s.work.v)))

/-- COLRND (R135). -/
def execColrnd (s : State) : Result := reading s [.lanes] (.next (s.setLanes (columnRound s.work.v)))

/-- DIAGRND (R136). -/
def execDiagrnd (s : State) : Result := reading s [.lanes] (.next (s.setLanes (diagonalRound s.work.v)))

/-- DBLRND (R137): the index only counts; 127 is reserved (Table 30-2). -/
def execDblrnd (dr : BitVec 7) (s : State) : Result :=
  if 126 < dr.toNat then .fault .reservedUop
  else reading s [.upc, .lanes] (.next ((s.setLanes (doubleRound s.work.v)).advance))

/-- ADDORIG (R139). -/
def execAddorig (s : State) : Result :=
  reading s [.upc, .lanes, .original] (.next ((s.setLanes (addOriginal s.work.v s.work.v0)).advance))

end Sys2Proof.Machine
end

