-- ==== Sys2Proof/Machine/Walk.lean ====
section
/-! DEFINITION. The batch XOR-output datapath up to the exit (43_xor_output.md): WALK, XSTEP, XFULL. -/

namespace Sys2Proof.Machine

/-- WALK (R166). -/
def execWalk (s : State) : Result :=
  reading s [.upc, .latched]
    (.next ({ s with work := { s.work with
      rem := remLoad s.work.n, k := 0
      live := { s.work.live with remaining := true, subchunk := true } } }.advance))

/-- XSTEP k (R167): the count and the two flags, then the continuation the flags select (R168). On a count or an index that no
admitted command has: log entry 37. -/
def execXstep (k : BitVec 3) (s : State) : Result :=
  let rem := remStep s.work.rem
  reading s [.upc, .remaining]
    (.next (({ s with work := { s.work with
      rem := rem, z := flagZ rem, neg := flagN rem
      live := { s.work.live with flags := true } } }.enqueue
        (continuation k (flagZ rem) (flagN rem) rem)).advance))

/-- The effective address of sub-chunk k of a region, base plus 32k, with no wrap (R53, R169). -/
def subchunkAddr (base : Word) (k : BitVec 3) : Nat := base.toNat + 32 * k.toNat

/-- The result held back, the index counted on (R169). -/
def State.holdBack (s : State) (o : Chunk) : State :=
  { s with work := { s.work with
    pend := o, k := s.work.k + 1, live := { s.work.live with pending := true } } }

/-- XFULL k (R169), k = 0 to 6: read source sub-chunk k, store the pending destination sub-chunk k - 1 if there is one, hold
the new result back. -/
def execXfull (k : BitVec 3) (s : State) : Result :=
  if 6 < k.toNat then .fault .reservedUop
  else
    reading s [.upc, .latched, .keystream, .subchunk]
      (memRead s (subchunkAddr s.work.s k) fun p s1 =>
        let o := chunkXor p (keystreamChunk s.work.ks k)
        if k = 0#3 then .next (s1.holdBack o).advance
        else
          reading s1 [.pending]
            (memWrite s1 (subchunkAddr s.work.d (k - 1)) s.work.pend fun s2 =>
              .next (s2.holdBack o).advance))

end Sys2Proof.Machine
end

