-- ==== Sys2Proof/Machine/Tail.lean ====
section
/-! DEFINITION. The tail-block handler (44_tail_handler.md): XEXACT, BSHIFT, XPART, XPREV, and the permitted variant of the
partial exit without overlapping stores (R190). -/

namespace Sys2Proof.Machine

/-- XEXACT K (R181), K = 2 to 7: the last sub-chunk is whole; the pending one is stored, then this one. -/
def execXexact (kx : BitVec 3) (s : State) : Result :=
  if exitIndexOk kx then
    reading s [.upc, .latched, .keystream, .pending]
      (memRead s (subchunkAddr s.work.s kx) fun p s1 =>
        let o := chunkXor p (keystreamChunk s.work.ks kx)
        memWrite s1 (subchunkAddr s.work.d (kx - 1)) s.work.pend fun s2 =>
          memWrite s2 (subchunkAddr s.work.d kx) o fun s3 => .next s3.advance)
  else .fault .reservedUop

/-- The keystream of the window: the last bytes of sub-chunk k - 1 and the first r of sub-chunk k (R182). -/
def windowKeystream (ks : Vector Byte 256) (k : BitVec 3) (r : BitVec 5) : Chunk :=
  byteShift (keystreamChunk ks (k - 1)) (keystreamChunk ks k) r

/-- BSHIFT r (R182), r = 1 to 31; K is the register k. -/
def execBshift (r : BitVec 5) (s : State) : Result :=
  if r = 0#5 then .fault .reservedUop
  else
    reading s [.upc, .keystream, .subchunk]
      (if s.work.k = 0#3 then .fault .noPreviousSubchunk
       else .next ({ s with work := { s.work with
         t := windowKeystream s.work.ks s.work.k r
         live := { s.work.live with shifted := true } } }.advance))

/-- The effective address of the window, base plus n - 32 (R183); none if it would lie below address 0. -/
def windowStart (base : Word) (n : BitVec 9) : Option Nat :=
  if base.toNat + n.toNat < 32 then none else some (base.toNat + n.toNat - 32)

/-- XPART K (R183), K = 2 to 7: the window is read, XORed and stored. -/
def execXpart (kx : BitVec 3) (s : State) : Result :=
  if exitIndexOk kx then
    reading s [.upc, .latched, .shifted]
      (match windowStart s.work.s s.work.n, windowStart s.work.d s.work.n with
       | some ra, some wa =>
         memRead s ra fun q s1 =>
           memWrite s1 wa (chunkXor q s.work.t) fun s2 => .next s2.advance
       | _, _ => .fault .outOfSpace)
  else .fault .reservedUop

/-- XPREV K (R184), K = 2 to 7: the pending sub-chunk K - 1 is stored at its own place, after the window. -/
def execXprev (kx : BitVec 3) (s : State) : Result :=
  if exitIndexOk kx then
    reading s [.upc, .latched, .pending]
      (memWrite s (subchunkAddr s.work.d (kx - 1)) s.work.pend fun s1 => .next s1.advance)
  else .fault .reservedUop

/-- The r bytes of a partial sub-chunk K in the staging variant: `IN[32K .. n) ^ KS[32K .. n)` (R190). -/
def stagedBytes (m : Memory) (base : Word) (ks : Vector Byte 256) (kx : BitVec 3) (r : BitVec 5) : List Byte :=
  (chunkXor (Memory.load m (subchunkAddr base kx)) (keystreamChunk ks kx)).toList.take r.toNat

/-- The final memory of the staging variant of the partial exit (R190, R68): PEND to sub-chunk K - 1, then exactly r bytes
to sub-chunk K. The engine is the overlapping-store variant and never performs this; it stands here to be compared with.
Log entry 26. -/
def stagingExit (s : State) (kx : BitVec 3) (r : BitVec 5) : Memory :=
  let m := s.mem.store (subchunkAddr s.work.d (kx - 1)) s.work.pend.toList
  m.store (subchunkAddr s.work.d kx) (stagedBytes m s.work.s s.work.ks kx r)

end Sys2Proof.Machine
end

