-- ==== Sys2Proof/Machine/Sequencer.lean ====
section
/-! DEFINITION. The hardwired sequencer (R33, R112): it issues the next micro-operation word, performs it, and goes on until
DONE has returned it to IDLE. -/

namespace Sys2Proof.Machine

/-- A micro-operation by its own rule. WR, RD and XFORM4 are none (R80). -/
def execUop (i : Instr) (s : State) : Result :=
  match i with
  | .wr _ _ => .fault .sequencer
  | .rd _ => .fault .sequencer
  | .xform4 => .fault .sequencer
  | .latch => execLatch s
  | .derive => execDerive s
  | .done => execDone s
  | .add32 rd rs => execAdd32 rd rs s
  | .xor32 rd rs => execXor32 rd rs s
  | .rotl32 rd amount => execRotl32 rd amount s
  | .qr q => execQr q s
  | .colrnd => execColrnd s
  | .diagrnd => execDiagrnd s
  | .dblrnd dr => execDblrnd dr s
  | .addorig => execAddorig s
  | .ilv => execIlv s
  | .dlv => execDlv s
  | .ser => execSer s
  | .walk => execWalk s
  | .xstep k => execXstep k s
  | .xfull k => execXfull k s
  | .xexact kx => execXexact kx s
  | .bshift r => execBshift r s
  | .xpart kx => execXpart kx s
  | .xprev kx => execXprev kx s

/-- What the sequencer does next while a command runs: the micro-operation it issues and the state it is performed in, or
why there is none. -/
def issueUop (s : State) : Except Fault (Instr × State) :=
  match s.seq with
  | [] => .error .sequencer
  | w :: rest =>
    match decodeUw w with
    | .ok i => .ok (i, { s with seq := rest }.log (.issue w))
    | .error _ => .error .reservedUop

/-- One micro-operation of the running command. -/
def uopStep (s : State) : Result :=
  match issueUop s with
  | .ok (i, s1) => execUop i s1
  | .error f => .fault f

/-- The command from here to DONE, at most so many micro-operations. -/
def runUops : Nat → State → Result
  | 0, _ => .fault .endless
  | fuel + 1, s =>
    if s.hostHeld then
      match uopStep s with
      | .next s1 => runUops fuel s1
      | .fault f => .fault f
      | .refused e => .refused e
    else .next s

/-- More micro-operations than any command has: at most 26 + nr/2 (R112), nr at most 254. -/
def uopBound : Nat := 160

end Sys2Proof.Machine
end

