-- ==== Sys2Proof/Machine/Command.lean ====
section
/-! DEFINITION. The command XFORM4: admission (R118, R222), launch, and the run to completion (R25, R110, R112). -/

namespace Sys2Proof.Machine

/-- LEN (R118(1)): NBYTES[31:9] is not zero or NBYTES[8:0] is not in 65 to 256. -/
def State.lenBad (s : State) : Bool :=
  decide (s.nbytes.extractLsb' 9 23 ≠ 0#23) || decide ((nbytesField s.nbytes).toNat ≤ Config.nLow)
    || decide (Config.nMax < (nbytesField s.nbytes).toNat)

/-- ROUNDS (R118(2)): ROUNDS[31:8] is not zero or ROUNDS[7:0] is not even and positive. -/
def State.roundsBad (s : State) : Bool :=
  decide (s.rounds.extractLsb' 8 24 ≠ 0#24) || decide (roundsField s.rounds = 0#8)
    || decide ((roundsField s.rounds).toNat % 2 = 1)

/-- RANGE (R118(3), R53): SRC or DST is unwritten, or a region passes the top of the data space. -/
def State.rangeBad (s : State) : Bool :=
  let n := (nbytesField s.nbytes).toNat
  !s.srcSet || !s.dstSet || decide (2 ^ s.platform.aw < s.src.toNat + n)
    || decide (2 ^ s.platform.aw < s.dst.toNat + n)

/-- MEM (R118(4), R59): a source byte is not readable ordinary memory, or a destination byte not writable ordinary
memory. -/
def State.memoryBad (s : State) : Bool :=
  let n := (nbytesField s.nbytes).toNat
  !s.platform.ordinaryRegion false s.src.toNat n || !s.platform.ordinaryRegion true s.dst.toNat n

/-- ALIAS (R118(5), R60): the regions overlap and are not the same. -/
def State.aliasBad (s : State) : Bool :=
  let n := (nbytesField s.nbytes).toNat
  decide (s.src ≠ s.dst) && decide (s.src.toNat < s.dst.toNat + n) && decide (s.dst.toNat < s.src.toNat + n)

/-- CSUNSET (R118(6)): some Cipher State word is unwritten since reset. -/
def State.csBad (s : State) : Bool := s.csSet.toList.any (fun b => !b)

/-- The conditions of a launch in their order; the first that fails names the refusal (R118, R222). -/
def State.admission (s : State) : Option Refusal :=
  if s.lenBad then some .len
  else if s.roundsBad then some .rounds
  else if s.rangeBad then some .range
  else if s.memoryBad then some .memory
  else if s.aliasBad then some .aliasing
  else if s.csBad then some .csUnset
  else none

/-- The command has been launched: LATCH stands at index 0 (R33), the host is held (R25). -/
def State.launched (s : State) : State := { s with upc := some 0, seq := [encodeUw .latch] }

/-- A write of 1 to CMD: refused before any effect if not admitted (R221), else the command runs to completion before the
write returns (R25, R200). One step of the machine, log entry 10. -/
def launch (s : State) : Result :=
  match s.admission with
  | some e => .refused e
  | none => runUops uopBound s.launched

/-- XFORM4 (R110, R112). -/
def execXform4 (s : State) : Result := whenIdle s (launch s)

end Sys2Proof.Machine
end

