-- ==== Sys2Proof/Machine/HostOps.lean ====
section
/-! DEFINITION. The host transactions WR and RD (R200, R201, 45_dispatch_collaborators.md). -/

namespace Sys2Proof.Machine

/-- A value written to CMD: 1 launches, every other value is reserved (R90, R200). -/
def writeCommand (s : State) (data : Word) : Result :=
  match decodeCw data with
  | .ok _ => launch s
  | .error _ => .refused .badCmd

/-- WR idx, data (R200). -/
def execWr (idx : BitVec 7) (data : Word) (s : State) : Result :=
  whenIdle s
    (if h : idx.toNat < 16 then .next (s.writeCs ⟨idx.toNat, h⟩ data)
     else if idx = 16#7 then .next (s.writeSrc data)
     else if idx = 17#7 then .next (s.writeDst data)
     else if idx = 18#7 then .next (s.writeNbytes data)
     else if idx = 19#7 then .next (s.writeRounds data)
     else if idx = 20#7 then writeCommand s data
     else if idx = 21#7 then .next s
     else .refused .badReg)

/-- RD idx (R201). -/
def execRd (idx : BitVec 7) (s : State) : Result :=
  whenIdle s
    (if h : idx.toNat < 16 then .next (s.replyRegister (s.csSet[idx.toNat]'h) (s.cs[idx.toNat]'h))
     else if idx = 16#7 then .next (s.replyRegister s.srcSet s.src)
     else if idx = 17#7 then .next (s.replyRegister s.dstSet s.dst)
     else if idx = 18#7 then .next (s.reply s.nbytes)
     else if idx = 19#7 then .next (s.reply s.rounds)
     else if idx = 20#7 then .next (s.reply 0)
     else if idx = 21#7 then .next (s.reply (statusWord s.statusDone))
     else .refused .badReg)

end Sys2Proof.Machine
end

