-- ==== Sys2Proof/Machine/Dispatch.lean ====
section
/-! DEFINITION. The dispatch: one arm per constructor of Instr. -/

namespace Sys2Proof.Machine

def exec (i : Instr) (s : State) : Host.Outcome State Fault Refusal :=
  match i with
  | .wr idx data => Sys2Proof.Machine.execWr idx data s
  | .rd idx => Sys2Proof.Machine.execRd idx s
  | .xform4 => Sys2Proof.Machine.execXform4 s
  | .latch => Sys2Proof.Machine.execLatch s
  | .derive => Sys2Proof.Machine.execDerive s
  | .done => Sys2Proof.Machine.execDone s
  | .add32 rd rs => Sys2Proof.Machine.execAdd32 rd rs s
  | .xor32 rd rs => Sys2Proof.Machine.execXor32 rd rs s
  | .rotl32 rd amount => Sys2Proof.Machine.execRotl32 rd amount s
  | .qr q => Sys2Proof.Machine.execQr q s
  | .colrnd => Sys2Proof.Machine.execColrnd s
  | .diagrnd => Sys2Proof.Machine.execDiagrnd s
  | .dblrnd dr => Sys2Proof.Machine.execDblrnd dr s
  | .addorig => Sys2Proof.Machine.execAddorig s
  | .ilv => Sys2Proof.Machine.execIlv s
  | .dlv => Sys2Proof.Machine.execDlv s
  | .ser => Sys2Proof.Machine.execSer s
  | .walk => Sys2Proof.Machine.execWalk s
  | .xstep k => Sys2Proof.Machine.execXstep k s
  | .xfull k => Sys2Proof.Machine.execXfull k s
  | .xexact kx => Sys2Proof.Machine.execXexact kx s
  | .bshift r => Sys2Proof.Machine.execBshift r s
  | .xpart kx => Sys2Proof.Machine.execXpart kx s
  | .xprev kx => Sys2Proof.Machine.execXprev kx s

end Sys2Proof.Machine
end

