-- ==== Sys2Proof/Machine/Fetch.lean ====
section
/-! DEFINITION. What the machine does next (R20, R25, R33, R80): the sequencer's micro-operation while a command runs, else
the next thing host or platform does. And how a word is put where the machine takes its next one. -/

namespace Sys2Proof.Machine

/-- What a step is about to do. -/
inductive Fetched where
  /-- Nothing: the engine is idle and stays idle until the host writes CMD (R38, R251). -/
  | idle
  /-- The reset event takes place, from this state. -/
  | resetEvent (s : State)
  /-- The caller stores this byte string at this address, in this state. -/
  | callerStore (a : Nat) (bs : List Byte) (s : State)
  /-- This instruction is performed, in this state. -/
  | run (i : Instr) (s : State)
  /-- The word is none the host may send. -/
  | refused (e : Refusal)
  /-- The sequencer has nothing it could issue. -/
  | fault (f : Fault)
deriving DecidableEq, Repr

/-- A host transaction, decoded; a malformed read is refused BADREG (R81). -/
def fetchTransaction (w : BitVec 40) (s : State) : Fetched :=
  match decodeHt w with
  | .ok i => .run i s
  | .error _ => .refused .badReg

/-- A command word, decoded; a reserved one is refused BADCMD (R90). -/
def fetchCommand (w : BitVec 32) (s : State) : Fetched :=
  match decodeCw w with
  | .ok i => .run i s
  | .error _ => .refused .badCmd

/-- The sequencer's next micro-operation. -/
def fetchUop (s : State) : Fetched :=
  match issueUop s with
  | .ok (i, s1) => .run i s1
  | .error f => .fault f

/-- What happens next. While a command runs the host is held, nobody else touches the memory and the platform makes no move
(R25, R65, R252). -/
def fetch (s : State) : Fetched :=
  if s.hostHeld then fetchUop s
  else
    match s.inputs with
    | [] => .idle
    | .reset :: rest => .resetEvent { s with inputs := rest }
    | .transaction w :: rest => fetchTransaction w { s with inputs := rest }
    | .command w :: rest => fetchCommand w { s with inputs := rest }
    | .callerStore a bs :: rest => .callerStore a bs { s with inputs := rest }

/-- The engine in mid command, with a working state that holds values, so that any one micro-operation can be performed:
the latched operands are those of the motivating case n = 140, nr = 20 (V14), at its exit sub-chunk 4, in QR slot 0.
Log entry 9. -/
def State.midCommand (s : State) : State :=
  { s with
    upc := some 0
    work := { s.work with n := 140, nr := 20, k := 4, slot := some 0, live := Live.all } }

/-- The state in which a micro-operation word stands next in the sequencer. -/
def State.withUop (s : State) (w : BitVec 16) : State :=
  let s1 := if s.hostHeld then s else s.midCommand
  { s1 with seq := w :: s1.seq }

/-- The state in which an input stands next and is taken, no command running. -/
def State.withInput (s : State) (x : Input) : State := { s with upc := none, inputs := x :: s.inputs }

/-- A word of a given width, put where the machine takes its next one from. -/
def State.withWord (s : State) (nbits w : Nat) : State :=
  if nbits = 40 then s.withInput (.transaction (BitVec.ofNat 40 w))
  else if nbits = 32 then s.withInput (.command (BitVec.ofNat 32 w))
  else s.withUop (BitVec.ofNat 16 w)

end Sys2Proof.Machine
end

