-- ==== Sys2Proof/Machine/Step.lean ====
section
/-! DEFINITION. One step of the machine: fetch, then perform. -/

namespace Sys2Proof.Machine

/-- One step: one host operation (a command from launch to completion among them, R25), one micro-operation of a running
command, a store of the caller (R36), the reset event (R250), or nothing while the engine is idle (R251). -/
def step (s : State) : Host.Outcome State Fault Refusal :=
  match fetch s with
  | .idle => .next s
  | .resetEvent s1 => .next s1.resetEvent
  | .callerStore a bs s1 => callerStore a bs s1
  | .run i s1 => exec i s1
  | .refused e => .refused e
  | .fault f => .fault f

/-- `s` with a word stored where the next step takes its instruction from. Log entry 9. -/
def State.withFetchWord (s : State) (nbits w : Nat) : State := s.withWord nbits w

end Sys2Proof.Machine
end

