-- ==== Sys2Proof/Machine/Keystream.lean ====
section
/-! DEFINITION. The keystream function of R111, block by block and without lanes: what the command is specified against, and
the block of the single-block collaborator (R204). The arithmetic of the round is general knowledge in the spec (G1 to G4).
PRESUMED, log entry 17. -/

namespace Sys2Proof.Machine

/-- The quarter round on four words (R133, 'on each block separately'). -/
def quarterWords (a b c d : Word) : Word × Word × Word × Word :=
  let a := a + b
  let d := rotl32 (d ^^^ a) 16
  let c := c + d
  let b := rotl32 (b ^^^ c) 12
  let a := a + b
  let d := rotl32 (d ^^^ a) 8
  let c := c + d
  let b := rotl32 (b ^^^ c) 7
  (a, b, c, d)

/-- A quarter round on four words of a block. -/
def blockQuarter (a b c d : Fin 16) (x : Block) : Block :=
  let y := quarterWords x[a] x[b] x[c] x[d]
  (((x.set a y.1).set b y.2.1).set c y.2.2.1).set d y.2.2.2

/-- A column round on one block: the column slots of R134. -/
def blockColumnRound (x : Block) : Block :=
  x |> blockQuarter 0 4 8 12 |> blockQuarter 1 5 9 13 |> blockQuarter 2 6 10 14 |> blockQuarter 3 7 11 15

/-- A diagonal round on one block: the diagonal slots of R134. -/
def blockDiagonalRound (x : Block) : Block :=
  x |> blockQuarter 0 5 10 15 |> blockQuarter 1 6 11 12 |> blockQuarter 2 7 8 13 |> blockQuarter 3 4 9 14

/-- A double round on one block (R137). -/
def blockDoubleRound (x : Block) : Block := blockDiagonalRound (blockColumnRound x)

/-- So many double rounds. -/
def blockRounds : Nat → Block → Block
  | 0, x => x
  | n + 1, x => blockRounds n (blockDoubleRound x)

/-- `X_b`: the state with the counter word of block b (R111, R115). -/
def blockInput (cs : Block) (b : Nat) : Block := cs.set 12 (blockCounter cs[12] b)

/-- `Z_b`: nr/2 double rounds, and the original added back (R111, R139). -/
def blockOutput (cs : Block) (nr b : Nat) : Block :=
  let x := blockInput cs b
  let y := blockRounds (doubleRounds nr) x
  Vector.ofFn fun i => y[i] + x[i]

/-- `keystream(CS, nr)`: the four blocks, serialised (R111). -/
def keystream (cs : Block) (nr : Nat) : Vector Byte 256 :=
  serialise (Vector.ofFn fun b : Fin 4 => blockOutput cs nr b.val)

end Sys2Proof.Machine
end

