-- ==== Sys2Proof/Machine/Collaborators.lean ====
section
/-! DEFINITION. The host's side of the protocol (45_dispatch_collaborators.md): the pseudo-instructions SETSTATE, XFORM4 with
operands and CTRADV (R94, R203), the single-block transform XFORM1 as the interface the engine needs of it (R204), and the
dispatch loop STREAM (R202). None of it is part of the engine (R5); no step performs it. Log entry 24. -/

namespace Sys2Proof.Machine

/-- SETSTATE: sixteen writes (R94). -/
def setCipherState (w : Block) (s : State) : Result :=
  (List.finRange 16).foldl (fun r i => andThen r (execWr (BitVec.ofNat 7 i.val) w[i])) (.next s)

/-- `SETSTATE state (if changed)` (R94): nothing when the Cipher State holds these words already, all of them written. -/
def setStateIfChanged (w : Block) (s : State) : Result :=
  if s.cs = w ∧ s.csSet = Vector.replicate 16 true then .next s else setCipherState w s

/-- The operands of XFORM4 fit the DATA field of a transaction (R81). -/
def operandsFit (src dst nr n : Nat) : Bool :=
  decide (src < 2 ^ 32) && decide (dst < 2 ^ 32) && decide (nr < 2 ^ 32) && decide (n < 2 ^ 32)

/-- The four operand registers, then CMD (R94). An operand of 2^32 or more is no DATA of any transaction, and the spec gives
no outcome: it stops here. DESIGN CHOICE, log entry 32, safe. -/
def xform4Operands (src dst nr n : Nat) (s : State) : Result :=
  if operandsFit src dst nr n then
    andThen (execWr 16 (BitVec.ofNat 32 src) s) fun s1 =>
    andThen (execWr 17 (BitVec.ofNat 32 dst) s1) fun s2 =>
    andThen (execWr 18 (BitVec.ofNat 32 n) s2) fun s3 =>
    andThen (execWr 19 (BitVec.ofNat 32 nr) s3) fun s4 => execWr 20 1 s4
  else .fault .operandTooWide

/-- `XFORM4 state,dst,src,nr,n`: SETSTATE if changed, the operand registers, CMD (R94). -/
def xform4Call (w : Block) (src dst nr n : Nat) (s : State) : Result :=
  andThen (setStateIfChanged w s) (xform4Operands src dst nr n)

/-- CTRADV c: read the counter word, write it back c higher, modulo 2^32 (R203). A word unwritten since reset reads as a free
value: log entries 3 and 36. -/
def counterAdvance (c : Nat) (s : State) : Result :=
  andThen (execRd 12 s) fun s1 => execWr 12 (blockCounter (s1.replies.getLast?.getD 0) c) s1

/-- The bytes at an address, in ascending order. -/
def loadBytes (m : Memory) (a : Nat) : Nat → List Byte
  | 0 => []
  | len + 1 => Memory.get m a :: loadBytes m (a + 1) len

/-- A byte string XORed with the 64-byte block of the state as it stands (R204). The block is made of what the registers hold,
written since reset or not, of any round count: DESIGN CHOICE, log entries 34 and 36, unsafe. -/
def blockXor (cs : Block) (nr : Nat) (p : List Byte) : List Byte :=
  List.zipWith (· ^^^ ·) p ((keystream cs nr).toList.take 64)

/-- A collaborator's copy of a byte string from one place to another through a function of its bytes; it is not the engine's
access and enters no history. All source bytes are read before any is stored: for partly overlapping buffers, of which R204
says nothing beyond a loop over the bytes, that is DESIGN CHOICE, log entry 33, unsafe. Where a byte lies outside the data
space or is no ordinary memory of the needed permission it faults before any byte moves: DESIGN CHOICE, log entry 35, safe. -/
def transformBytes (src dst len : Nat) (f : List Byte → List Byte) (s : State) : Result :=
  match s.platform.accessFault false src len, s.platform.accessFault true dst len with
  | none, none => .next { s with mem := s.mem.store dst (f (loadBytes s.mem src len)) }
  | some e, _ => .fault e
  | none, some e => .fault e

/-- XFORM1 on the buffers themselves, exactly 64 bytes (R204). DESIGN CHOICE on partly overlapping buffers (log entry 33), an
odd or zero round count (34), a byte that may not be accessed (35), Cipher State words unwritten since reset (36). -/
def xform1 (src dst nr : Nat) (s : State) : Result :=
  transformBytes src dst Config.block (blockXor s.cs nr) s

/-- The staging buffer holding a tail: the bytes beyond it are unspecified (R202, U15). -/
def stagingBuffer (s : State) (tail : List Byte) : List Byte :=
  tail ++ (List.range (Config.stage - tail.length)).map fun i => Config.freeByte (s.freeCtr + i)

/-- XFORM1 through the staging buffer, for a tail of fewer than 64 bytes (R202). The choices of `xform1`, log entries 33 to 36,
are its choices too. -/
def xform1Staged (src dst nr rest : Nat) (s : State) : Result :=
  andThen (transformBytes src dst rest (fun p => (blockXor s.cs nr (stagingBuffer s p)).take rest) s)
    fun s1 => .next { s1 with freeCtr := s1.freeCtr + (Config.stage - rest) }

/-- The hand-off of what remains, 0 to 64 bytes (R202). -/
def streamTail (nr rest p q : Nat) (s : State) : Result :=
  if rest = 0 then .next s
  else andThen (if rest = 64 then xform1 p q nr s else xform1Staged p q nr rest s) (counterAdvance 1)

/-- The loop of STREAM, at most so many turns (R202). Its `XFORM4 CS, ...` has the state that is in the registers, so there is
nothing to set (R94). A pointer that reaches 2^32 stops the loop: log entry 32. -/
def streamLoop (nr : Nat) : Nat → Nat → Nat → Nat → State → Result
  | 0, rest, p, q, s => streamTail nr rest p q s
  | fuel + 1, rest, p, q, s =>
    if 64 < rest then
      let l := min rest Config.nMax
      andThen (xform4Operands p q nr l s) fun s1 =>
      andThen (counterAdvance (blocksUsed l) s1) fun s2 => streamLoop nr fuel (rest - l) (p + l) (q + l) s2
    else streamTail nr rest p q s

/-- STREAM state, dst, src, rounds, len (R202): each turn takes more than 64 bytes, so len turns are enough. -/
def stream (src dst nr len : Nat) (s : State) : Result := streamLoop nr len len src dst s

end Sys2Proof.Machine
end

