-- ==== Sys2Proof/Safety.lean ====
section
/-! DEFINITION. What counts as a safe run, and the words the claims use. -/

namespace Sys2Proof.Machine

/-- The state an outcome goes on to, if it does. -/
def nextState? (r : Result) : Option State :=
  match r with
  | .next s => some s
  | .fault _ => none
  | .refused _ => none

/-- The fault an outcome ends in, if it does. -/
def fault? (r : Result) : Option Fault :=
  match r with
  | .next _ => none
  | .fault f => some f
  | .refused _ => none

/-- The refusal an outcome ends in, if it does. -/
def refusal? (r : Result) : Option Refusal :=
  match r with
  | .next _ => none
  | .fault _ => none
  | .refused e => some e

/-- The outcome with the working state of its next state put back to one value: what is left is what R35 lets survive a
command. -/
def forgetWork (r : Result) : Result :=
  match r with
  | .next s => .next { s with work := Working.reset }
  | .fault f => .fault f
  | .refused e => .refused e

/-- The working state that each micro-operation reads, in the order its rule needs it (R27 to R35, R87, R114 to R116, R130 to
R139, R151 to R154, R166 to R169, R181 to R184): `upc` for those that advance it, the slot for those that name roles. XFULL k
reads PEND as well when k is not 0, after its read of the source. -/
def Instr.reads : Instr → List WorkElem
  | .wr _ _ => []
  | .rd _ => []
  | .xform4 => []
  | .latch => [.upc]
  | .derive => [.upc]
  | .done => [.upc]
  | .add32 _ _ => [.slot, .lanes]
  | .xor32 _ _ => [.slot, .lanes]
  | .rotl32 _ _ => [.slot, .lanes]
  | .qr _ => [.lanes]
  | .colrnd => [.lanes]
  | .diagrnd => [.lanes]
  | .dblrnd _ => [.upc, .lanes]
  | .addorig => [.upc, .lanes, .original]
  | .ilv => [.upc, .matrices]
  | .dlv => [.upc, .lanes]
  | .ser => [.upc, .matrices]
  | .walk => [.upc, .latched]
  | .xstep _ => [.upc, .remaining]
  | .xfull _ => [.upc, .latched, .keystream, .subchunk]
  | .xexact _ => [.upc, .latched, .keystream, .pending]
  | .bshift _ => [.upc, .keystream, .subchunk]
  | .xpart _ => [.upc, .latched, .shifted]
  | .xprev _ => [.upc, .latched, .pending]

/-- The first element of the working state that a micro-operation lacks. -/
def State.firstDead (s : State) (i : Instr) : Option WorkElem := (Instr.reads i).find? fun e => !s.isLive e

/-- The byte at an address of the data space. -/
def State.byteAt (s : State) (a : Nat) : Byte := Memory.get s.mem a

/-- The byte count of the operands now in the registers (R84). -/
def State.byteCount (s : State) : Nat := (nbytesField s.nbytes).toNat

/-- The round count of the operands now in the registers (R84). -/
def State.roundCount (s : State) : Nat := (roundsField s.rounds).toNat

/-- A launch would be admitted (R118) and the host is not held (R25). -/
abbrev State.Ready (s : State) : Prop := s.upc = none ∧ s.admission = none

/-- The micro-operation words of a history, in order (R112). -/
def issuedWords (h : List Event) : List (BitVec 16) :=
  h.filterMap fun
    | .issue w => some w
    | .read _ => none
    | .write _ => none

/-- The memory accesses of a history, in order (R61). -/
def accesses (h : List Event) : List Event :=
  h.filter fun
    | .issue _ => false
    | .read _ => true
    | .write _ => true

/-- The access schedule of one command with source s, destination d and byte count n, as R61 writes it. -/
def accessSchedule (s d n : Nat) : List Event :=
  let kx := exitSubchunk n
  ((List.range kx).flatMap fun k =>
      .read (s + 32 * k) :: (if k = 0 then [] else [.write (d + 32 * (k - 1))]))
    ++ (if residue n = 0 then
          [.read (s + 32 * kx), .write (d + 32 * (kx - 1)), .write (d + 32 * kx)]
        else [.read (s + (n - 32)), .write (d + (n - 32)), .write (d + 32 * (kx - 1))])

/-- The two regions of a command are the same or disjoint (R60). -/
abbrev sameOrDisjoint (s d n : Nat) : Prop := s = d ∨ s + n ≤ d ∨ d + n ≤ s

/-- Condition (1) of R118, on the whole register: bits above the field are zero and the count is 65 to 256. -/
abbrev State.LengthOk (s : State) : Prop := 65 ≤ s.nbytes.toNat ∧ s.nbytes.toNat ≤ 256

/-- Condition (2) of R118: bits above the field are zero, the count is even and positive. -/
abbrev State.RoundsOk (s : State) : Prop :=
  2 ≤ s.rounds.toNat ∧ s.rounds.toNat ≤ 255 ∧ s.rounds.toNat % 2 = 0

/-- Condition (3) of R118: both regions are given and neither passes the top of the space (R53). -/
abbrev State.RangeOk (s : State) : Prop :=
  s.srcSet = true ∧ s.dstSet = true ∧ s.src.toNat + s.byteCount ≤ 2 ^ s.platform.aw
    ∧ s.dst.toNat + s.byteCount ≤ 2 ^ s.platform.aw

/-- Condition (4) of R118: every source byte is readable and every destination byte writable ordinary memory (R59). -/
abbrev State.MemoryOk (s : State) : Prop :=
  ∀ x, x < s.byteCount →
    s.platform.ordinary false (s.src.toNat + x) = true ∧ s.platform.ordinary true (s.dst.toNat + x) = true

/-- Condition (5) of R118: the regions are the same or disjoint (R60). -/
abbrev State.RegionsOk (s : State) : Prop := sameOrDisjoint s.src.toNat s.dst.toNat s.byteCount

/-- Condition (6) of R118: every Cipher State word has been written since reset. -/
abbrev State.CipherOk (s : State) : Prop := ∀ i : Fin 16, s.csSet[i] = true

/-- The 32 bytes at an address may be read (`write = false`) or written (`write = true`) by the engine. -/
abbrev State.CanAccess (s : State) (write : Bool) (a : Nat) : Prop :=
  ∀ j, j < 32 → a + j < 2 ^ s.platform.aw ∧ s.platform.ordinary write (a + j) = true

/-- What the legal ARG bytes of each CODE are: Table 30-2 once more, as ranges (R86, R91). -/
def legalArg (code arg : Nat) : Bool :=
  if code ∈ [0x01, 0x02, 0x0F, 0x14, 0x15, 0x17, 0x20, 0x21, 0x22, 0x30] then arg = 0
  else if code = 0x10 ∨ code = 0x11 then arg ≤ 15
  else if code = 0x12 then arg ≤ 127 ∧ arg % 32 ≠ 0
  else if code = 0x13 ∨ code = 0x31 then arg ≤ 7
  else if code = 0x16 then arg ≤ 126
  else if code = 0x32 then arg ≤ 6
  else if code = 0x40 ∨ code = 0x42 ∨ code = 0x43 then 2 ≤ arg ∧ arg ≤ 7
  else if code = 0x41 then 1 ≤ arg ∧ arg ≤ 31
  else false

/-- Byte x of the keystream of a whole stream that starts at the counter of the state: byte x mod 64 of the block whose
counter is x / 64 higher (R206(a)). -/
def streamByte (cs : Block) (nr x : Nat) : Byte :=
  leByte ((blockOutput cs nr (x / 64))[x / 4 % 16]'(by omega)) (x % 4)

/-- What the host owes before STREAM: the state created, the round count legal, both buffers ordinary memory inside the data
space, the same or disjoint, no command running (R202, R209). -/
abbrev State.StreamReady (s : State) (src dst nr len : Nat) : Prop :=
  s.upc = none ∧ s.CipherOk ∧ (2 ≤ nr ∧ nr ≤ 254 ∧ nr % 2 = 0) ∧ s.platform.aw ≤ 32
    ∧ src + len ≤ 2 ^ s.platform.aw ∧ dst + len ≤ 2 ^ s.platform.aw
    ∧ (∀ x, x < len → s.platform.ordinary false (src + x) = true ∧ s.platform.ordinary true (dst + x) = true)
    ∧ sameOrDisjoint src dst len

/-- The four words that the slot of a QR binds in block b. -/
def slotWords (v : Lanes) (q : BitVec 3) (b : Fin 4) : Word × Word × Word × Word :=
  (v[slotLane q 0][b], v[slotLane q 1][b], v[slotLane q 2][b], v[slotLane q 3][b])

/-- A partial exit is under way (R170, R191): exit sub-chunk K, residue r, the window's keystream in T, the finished
sub-chunk K - 1 in PEND, the regions as the launch admitted them. -/
abbrev State.AtPartialExit (s : State) (kx : BitVec 3) (r : BitVec 5) : Prop :=
  s.upc ≠ none ∧ s.work.live.latched = true ∧ s.work.live.pending = true ∧ s.work.live.shifted = true
    ∧ 2 ≤ kx.toNat ∧ r ≠ 0#5 ∧ s.work.n.toNat = 32 * kx.toNat + r.toNat
    ∧ s.work.s.toNat + s.work.n.toNat ≤ 2 ^ s.platform.aw ∧ s.work.d.toNat + s.work.n.toNat ≤ 2 ^ s.platform.aw
    ∧ (∀ x, x < s.work.n.toNat → s.platform.ordinary false (s.work.s.toNat + x) = true
        ∧ s.platform.ordinary true (s.work.d.toNat + x) = true)
    ∧ s.work.t = windowKeystream s.work.ks kx r
    ∧ s.work.pend = chunkXor (Memory.load s.mem (s.work.s.toNat + 32 * (kx.toNat - 1))) (keystreamChunk s.work.ks (kx - 1))

/-- The invariant of the machine: the memory is in canonical form and lies in the data space (R50), SRC and DST are AW bits
wide (R24), and while no command runs nothing is left to issue and the working state is dead (R33, R35). -/
abbrev State.Inv (s : State) : Prop :=
  Memory.wf s.mem = true
    ∧ (∀ c ∈ s.mem, c.1 < 2 ^ s.platform.aw)
    ∧ s.src.toNat < 2 ^ s.platform.aw
    ∧ s.dst.toNat < 2 ^ s.platform.aw
    ∧ (s.upc = none → s.seq = [] ∧ s.work.live = Live.none ∧ s.work.slot = none)

end Sys2Proof.Machine
end

