-- ==== Sys2Proof/Certificates/Slice0/Obligations.lean ====
section
/-! DEFINITION. The statements for the provers. Each docstring names the rules of spec/ it formalises. -/

open Sys2Proof Sys2Proof.Machine

/-! ### Encodings -/

/-- R81, R83, R85, R86: decoding an encoded well-formed instruction gives it back, for every instruction and every operand
value its encoding admits. -/
def Obligations.DecodeEncodeRoundTrip : Prop :=
  ∀ i : Instr, i.wellFormed = true → decode (encode i) = .ok i

/-- R81, R83, R86, R91: a word that decodes is the encoding of what it decodes to, and the instruction is well-formed. -/
def Obligations.EncodeDecodeRoundTrip : Prop :=
  ∀ (c : Code) (i : Instr), decode c = .ok i → i.wellFormed = true ∧ encode i = c

/-- R86, R92: no word is claimed by two rows of the micro-operation code map. -/
def Obligations.UopRowsNeverOverlap : Prop :=
  uwTable.Pairwise fun a b => ∀ w : BitVec 16, ¬ (a.claims w = true ∧ b.claims w = true)

/-- R86, R91: a micro-operation word is reserved exactly when its CODE is not in Table 30-2 or its ARG is outside the range
the table gives. -/
def Obligations.ReservedUopWords : Prop :=
  ∀ code arg : BitVec 8,
    decodeUw (code ++ arg) = .error .reservedUop ↔ legalArg code.toNat arg.toNat = false

/-- Words the spec writes out: R81's examples, V24, V26 and V14 of 95_test_vectors.md. -/
def Obligations.SpecWordsDecode : Prop :=
  decode (.ht 0x920000008C) = .ok (.wr 18 140) ∧ decode (.ht 0x9400000001) = .ok (.wr 20#7 1#32)
    ∧ decode (.ht 0x1500000000) = .ok (.rd 21) ∧ decode (.cw 0x00000001) = .ok .xform4
    ∧ decode (.uw 0x0100) = .ok .latch ∧ decode (.uw 0x1001) = .ok (.add32 0 1)
    ∧ decode (.uw 0x110C) = .ok (.xor32 3 0) ∧ decode (.uw 0x1270) = .ok (.rotl32 3 16)
    ∧ decode (.uw 0x2200) = .ok .ser ∧ decode (.uw 0x3104) = .ok (.xstep 4)
    ∧ decode (.uw 0x410C) = .ok (.bshift 12) ∧ decode (.uw 0x4304) = .ok (.xprev 4)

/-! ### Host transactions -/

/-- R90: every value of CMD other than 1 is refused BADCMD, through WR and as a command word. -/
def Obligations.ReservedCommandRefused : Prop :=
  ∀ (s : State) (w : Word) (rest : List Input), s.upc = none → w ≠ 1#32 →
    exec (.wr 20#7 w) s = .refused .badCmd ∧ step { s with inputs := .command w :: rest } = .refused .badCmd

/-- R81, R82, R200, R201: a transaction outside Table 30-1, and a RD with non-zero DATA, is refused BADREG. -/
def Obligations.UndefinedRegisterRefused : Prop :=
  ∀ s : State, s.upc = none →
    (∀ (idx : BitVec 7) (data : Word), 22 ≤ idx.toNat →
      exec (.wr idx data) s = .refused .badReg ∧ exec (.rd idx) s = .refused .badReg)
    ∧ ∀ (w : BitVec 40) (rest : List Input), w.extractLsb' 39 1 = 0#1 → w.extractLsb' 0 32 ≠ 0#32 →
        step { s with inputs := .transaction w :: rest } = .refused .badReg

/-- R200: what WR does at every index, and that it does nothing else. -/
def Obligations.WriteTransaction : Prop :=
  ∀ (s : State) (data : Word), s.upc = none →
    (∀ i : Fin 16, exec (.wr (BitVec.ofNat 7 i.val) data) s =
      .next { s with cs := s.cs.set i data, csSet := s.csSet.set i true })
    ∧ exec (.wr 16#7 data) s =
        .next { s with src := BitVec.ofNat 32 (data.toNat % 2 ^ s.platform.aw), srcSet := true }
    ∧ exec (.wr 17#7 data) s =
        .next { s with dst := BitVec.ofNat 32 (data.toNat % 2 ^ s.platform.aw), dstSet := true }
    ∧ exec (.wr 18#7 data) s = .next { s with nbytes := data }
    ∧ exec (.wr 19#7 data) s = .next { s with rounds := data }
    ∧ exec (.wr 20#7 1#32) s = exec .xform4 s
    ∧ (data ≠ 1#32 → exec (.wr 20#7 data) s = .refused .badCmd)
    ∧ exec (.wr 21#7 data) s = .next s
    ∧ (∀ idx : BitVec 7, 22 ≤ idx.toNat → exec (.wr idx data) s = .refused .badReg)

/-- R201: what RD returns at every index, and that it changes nothing. Of a register unwritten since reset the spec gives no
value; that the read completes with some value is the model's choice, log entry 3, and the clause says no more. -/
def Obligations.ReadTransaction : Prop :=
  ∀ s : State, s.upc = none →
    (∀ i : Fin 16, s.csSet[i] = true →
      exec (.rd (BitVec.ofNat 7 i.val)) s = .next { s with replies := s.replies ++ [s.cs[i]] })
    ∧ (s.srcSet = true → exec (.rd 16#7) s = .next { s with replies := s.replies ++ [s.src] })
    ∧ (s.dstSet = true → exec (.rd 17#7) s = .next { s with replies := s.replies ++ [s.dst] })
    ∧ exec (.rd 18#7) s = .next { s with replies := s.replies ++ [s.nbytes] }
    ∧ exec (.rd 19#7) s = .next { s with replies := s.replies ++ [s.rounds] }
    ∧ exec (.rd 20#7) s = .next { s with replies := s.replies ++ [0#32] }
    ∧ exec (.rd 21#7) s = .next { s with replies := s.replies ++ [if s.statusDone then 1#32 else 0#32] }
    ∧ (∀ idx : BitVec 7, 22 ≤ idx.toNat → exec (.rd idx) s = .refused .badReg)
    ∧ (∀ idx : BitVec 7, idx.toNat < 18 →
        ∃ (w : Word) (c : Nat), exec (.rd idx) s = .next { s with replies := s.replies ++ [w], freeCtr := c })

/-- D36, R200, R201: a register reads back the value last written, all 32 bits of it; SRC and DST the AW low bits. -/
def Obligations.ReadBackAfterWrite : Prop :=
  ∀ (s : State) (idx : BitVec 7) (data : Word), s.upc = none → idx.toNat < 20 →
    ∃ t u, exec (.wr idx data) s = .next t ∧ exec (.rd idx) t = .next u
      ∧ u.replies = s.replies ++
          [if idx = 16#7 ∨ idx = 17#7 then BitVec.ofNat 32 (data.toNat % 2 ^ s.platform.aw) else data]

/-! ### Reset -/

/-- R37, R38, R250: every value Table 10-2 gives for the state after reset. -/
def Obligations.ResetValues : Prop :=
  State.reset.nbytes = 0#32 ∧ State.reset.rounds = 0#32 ∧ State.reset.statusDone = false
    ∧ State.reset.upc = none ∧ State.reset.csSet = Vector.replicate 16 false
    ∧ State.reset.srcSet = false ∧ State.reset.dstSet = false ∧ State.reset.work.live = Live.none

/-- R250: the reset event makes the engine idle and unwritten, and makes no memory access. -/
def Obligations.ResetEventEffect : Prop :=
  ∀ (s : State) (rest : List Input), s.upc = none → s.inputs = .reset :: rest →
    ∃ t, step s = .next t ∧ t.upc = none ∧ t.seq = [] ∧ t.statusDone = false ∧ t.nbytes = 0#32 ∧ t.rounds = 0#32
      ∧ (∀ i : Fin 16, t.csSet[i] = false) ∧ t.srcSet = false ∧ t.dstSet = false ∧ t.work.live = Live.none
      ∧ t.mem = s.mem ∧ t.history = s.history ∧ t.platform = s.platform ∧ t.inputs = rest
      ∧ t.replies = s.replies

/-- R38, R251: an idle engine with nothing to do stays as it is; a launch straight after reset is refused LEN. -/
def Obligations.IdleAfterReset : Prop :=
  (∀ s : State, s.upc = none → s.inputs = [] → step s = .next s)
    ∧ exec (.wr 20#7 1#32) State.reset = .refused .len ∧ exec .xform4 State.reset = .refused .len

/-! ### Admission -/

/-- R118, R221, R222: a launch is refused with the first of the six conditions that fails, in the order LEN, ROUNDS, RANGE,
MEM, ALIAS, CSUNSET, and admitted when all hold. -/
def Obligations.AdmissionOrder : Prop :=
  ∀ s : State, s.upc = none →
    (¬ s.LengthOk → exec .xform4 s = .refused .len)
    ∧ (s.LengthOk → ¬ s.RoundsOk → exec .xform4 s = .refused .rounds)
    ∧ (s.LengthOk → s.RoundsOk → ¬ s.RangeOk → exec .xform4 s = .refused .range)
    ∧ (s.LengthOk → s.RoundsOk → s.RangeOk → ¬ s.MemoryOk → exec .xform4 s = .refused .memory)
    ∧ (s.LengthOk → s.RoundsOk → s.RangeOk → s.MemoryOk → ¬ s.RegionsOk → exec .xform4 s = .refused .aliasing)
    ∧ (s.LengthOk → s.RoundsOk → s.RangeOk → s.MemoryOk → s.RegionsOk → ¬ s.CipherOk →
        exec .xform4 s = .refused .csUnset)
    ∧ (s.LengthOk → s.RoundsOk → s.RangeOk → s.MemoryOk → s.RegionsOk → s.CipherOk → s.admission = none)

/-- R89: 64 and 257 are refused whatever the rest; 65 and 256 are accepted when the other conditions hold. -/
def Obligations.BoundaryByteCounts : Prop :=
  ∀ s : State, s.upc = none →
    exec .xform4 { s with nbytes := 64#32 } = .refused .len
    ∧ exec .xform4 { s with nbytes := 257#32 } = .refused .len
    ∧ ∀ n : Word, n = 65#32 ∨ n = 256#32 → ∀ u : State, u = { s with nbytes := n } →
        u.RoundsOk → u.RangeOk → u.MemoryOk → u.RegionsOk → u.CipherOk →
        ∃ t, exec .xform4 u = .next t ∧ t.statusDone = true

/-! ### The command -/

/-- R2, R110, R111: dst[0..n) = src[0..n) XOR keystream(state, rounds), and DONE. -/
def Obligations.CommandXorsKeystream : Prop :=
  ∀ s : State, s.Ready → Memory.wf s.mem = true →
    ∃ t, exec .xform4 s = .next t ∧ t.statusDone = true
      ∧ ∀ x : Fin 256, x.val < s.byteCount →
          t.byteAt (s.dst.toNat + x.val) =
            s.byteAt (s.src.toNat + x.val) ^^^ (keystream s.cs s.roundCount)[x]

/-- R117, R23, R24: what the command leaves unchanged: the Cipher State, the operand registers, and every byte outside the
destination region. -/
def Obligations.CommandFrame : Prop :=
  ∀ s t : State, s.upc = none → exec .xform4 s = .next t →
    t.cs = s.cs ∧ t.src = s.src ∧ t.dst = s.dst ∧ t.nbytes = s.nbytes ∧ t.rounds = s.rounds
      ∧ t.csSet = s.csSet ∧ t.srcSet = s.srcSet ∧ t.dstSet = s.dstSet
      ∧ t.platform = s.platform ∧ t.inputs = s.inputs ∧ t.replies = s.replies ∧ t.freeCtr = s.freeCtr
      ∧ (∀ a, a < s.dst.toNat ∨ s.dst.toNat + s.byteCount ≤ a → t.byteAt a = s.byteAt a)

/-- R12, R116, R220: a command completes, leaving the engine idle with DONE set, or is refused by its admission; it never
faults and never hangs. -/
def Obligations.CommandCompletesOrIsRefused : Prop :=
  ∀ s : State, s.upc = none →
    (s.admission = none →
      ∃ t, exec .xform4 s = .next t ∧ t.upc = none ∧ t.seq = [] ∧ t.statusDone = true ∧ t.work.live = Live.none)
    ∧ ∀ e, s.admission = some e → exec .xform4 s = .refused e

/-- R112: the micro-operations a command performs are exactly useq(nr, n), in order. -/
def Obligations.CommandIssuesUseq : Prop :=
  ∀ s t : State, s.upc = none → exec .xform4 s = .next t →
    issuedWords t.history = issuedWords s.history ++ (useq s.roundCount s.byteCount).map encodeUw

/-- R61, R62: the memory accesses a command makes are exactly the schedule, in order; in a partial exit the window is stored
before the previous full sub-chunk. -/
def Obligations.CommandAccessSchedule : Prop :=
  ∀ s t : State, s.upc = none → exec .xform4 s = .next t →
    accesses t.history = accesses s.history ++ accessSchedule s.src.toNat s.dst.toNat s.byteCount

/-- R51: every access of a command, 32 bytes long, lies inside the source region if it reads and inside the destination
region if it writes. -/
def Obligations.CommandStaysInside : Prop :=
  ∀ s t : State, s.upc = none → exec .xform4 s = .next t →
    ∃ h, t.history = s.history ++ h
      ∧ (∀ a, Event.read a ∈ h → s.src.toNat ≤ a ∧ a + 32 ≤ s.src.toNat + s.byteCount)
      ∧ (∀ a, Event.write a ∈ h → s.dst.toNat ≤ a ∧ a + 32 ≤ s.dst.toNat + s.byteCount)

/-- R57, R112, R267: the numbers of reads, writes and micro-operations of a command. -/
def Obligations.CommandCounts : Prop :=
  ∀ s t : State, s.upc = none → exec .xform4 s = .next t →
    ∃ h, t.history = s.history ++ h
      ∧ (h.filter fun e => match e with | .read _ => true | .write _ => false | .issue _ => false).length
          = exitSubchunk s.byteCount + 1
      ∧ (h.filter fun e => match e with | .read _ => false | .write _ => true | .issue _ => false).length
          = exitSubchunk s.byteCount + 1
      ∧ (issuedWords h).length
          = 7 + s.roundCount / 2 + 2 * exitSubchunk s.byteCount + 1
            + (if residue s.byteCount = 0 then 1 else 3) + 1

/-- R268: the micro-operations and the accesses, with their addresses and their order, depend on nr, n, s and d only: two
commands with the same operands leave the same trace whatever the Cipher States and the memories. -/
def Obligations.TraceIsDataIndependent : Prop :=
  ∀ s₁ s₂ t₁ t₂ : State, s₁.upc = none → s₂.upc = none →
    s₁.src = s₂.src → s₁.dst = s₂.dst → s₁.nbytes = s₂.nbytes → s₁.rounds = s₂.rounds →
    exec .xform4 s₁ = .next t₁ → exec .xform4 s₂ = .next t₂ →
    ∃ h, t₁.history = s₁.history ++ h ∧ t₂.history = s₂.history ++ h

/-- R35: nothing of the working state passes from one command to the next: whatever it holds at the launch, the outcome is
the same but for the dead contents. -/
def Obligations.WorkingStateDoesNotSurvive : Prop :=
  ∀ (s : State) (w : Working), s.upc = none →
    forgetWork (exec .xform4 { s with work := w }) = forgetWork (exec .xform4 s)

/-- R119(a): in place, the command twice with the same operands restores the memory; and for any two destinations, a second
command that takes the first's destination as its source gives back the original bytes. -/
def Obligations.CommandTwiceRestores : Prop :=
  (∀ s : State, s.Ready → s.src = s.dst → Memory.wf s.mem = true →
    ∃ t u, exec .xform4 s = .next t ∧ exec .xform4 t = .next u ∧ u.mem = s.mem)
  ∧ ∀ (s t u : State) (d : Word), s.Ready → Memory.wf s.mem = true → exec .xform4 s = .next t →
      u = { t with src := s.dst, dst := d } → u.Ready →
      ∃ v, exec .xform4 u = .next v
        ∧ ∀ x, x < s.byteCount → v.byteAt (d.toNat + x) = s.byteAt (s.src.toNat + x)

/-- R119(b): the shorter command's output is the beginning of the longer one's. -/
def Obligations.ShorterCommandIsPrefix : Prop :=
  ∀ (s₁ s₂ : State) (n₁ : Word), s₁ = { s₂ with nbytes := n₁ } → s₁.Ready → s₂.Ready →
    s₁.byteCount ≤ s₂.byteCount → Memory.wf s₂.mem = true →
    ∃ t₁ t₂, exec .xform4 s₁ = .next t₁ ∧ exec .xform4 s₂ = .next t₂
      ∧ ∀ x, x < s₁.byteCount → t₁.byteAt (s₁.dst.toNat + x) = t₂.byteAt (s₂.dst.toNat + x)

/-- R11, R112, R113: the two levels agree: the command in one step is the machine's own micro-operation steps, as many as
useq(nr, n) has entries, from the launched engine. -/
def Obligations.CommandIsItsMicroSteps : Prop :=
  ∀ s : State, s.Ready →
    Host.Core.run Sys2Proof.core (useq s.roundCount s.byteCount).length s.launched = exec .xform4 s

/-! ### Whole-machine rules -/

/-- R20, R23, R24, R25: while a command runs no step writes the Cipher State or an operand register, takes an input, or
returns anything to the host. -/
def Obligations.EngineWritesNoHostRegister : Prop :=
  ∀ s t : State, s.upc ≠ none → step s = .next t →
    t.cs = s.cs ∧ t.csSet = s.csSet ∧ t.src = s.src ∧ t.srcSet = s.srcSet ∧ t.dst = s.dst ∧ t.dstSet = s.dstSet
      ∧ t.nbytes = s.nbytes ∧ t.rounds = s.rounds ∧ t.inputs = s.inputs ∧ t.replies = s.replies
      ∧ t.platform = s.platform ∧ t.freeCtr = s.freeCtr

/-- R26, R32: of the micro-operations only XSTEP writes Z and N, and only LATCH and DONE write STATUS.DONE. -/
def Obligations.FlagsHaveOneWriter : Prop :=
  ∀ (i : Instr) (s t : State), i.isUop = true → exec i s = .next t →
    ((∀ k, i ≠ .xstep k) → t.work.z = s.work.z ∧ t.work.neg = s.work.neg)
    ∧ (i ≠ .latch → i ≠ .done → t.statusDone = s.statusDone)

/-- R36, R169, R181, R183, R184: of the micro-operations only XFULL, XEXACT, XPART and XPREV store; no other one, and no host
transaction but the launch, changes a byte of memory. -/
def Obligations.OnlyOutputUnitsStore : Prop :=
  ∀ (i : Instr) (s t : State), exec i s = .next t →
    (∀ k, i ≠ .xfull k) → (∀ kx, i ≠ .xexact kx ∧ i ≠ .xpart kx ∧ i ≠ .xprev kx) → i ≠ .xform4 →
    (∀ data, i ≠ .wr 20#7 data) → ∀ a, t.byteAt a = s.byteAt a

/-- R35: a micro-operation that reads working state the command has not written faults, naming the first element it lacks:
every micro-operation, every legal operand, every element it reads; and XFULL k with k not 0 on a dead PEND, where its source
can be read. That it faults is what R35 says a model should do, log entry 4. R35's list has no QR slot: that ADD32, XOR32 and
ROTL32 outside a QR fault by the slot is the model's own, read from R87 and R134, DEDUCED, log entry 15. -/
def Obligations.DeadReadsFault : Prop :=
  ∀ s : State,
    (∀ (i : Instr) (e : WorkElem), i.isUop = true → i.wellFormed = true → s.firstDead i = some e →
      exec i s = .fault (.deadRead e))
    ∧ ∀ k : BitVec 3, k ≠ 0#3 → k.toNat ≤ 6 → s.firstDead (.xfull k) = none → s.work.live.pending = false →
        s.CanAccess false (s.work.s.toNat + 32 * k.toNat) → exec (.xfull k) s = .fault (.deadRead .pending)

/-- R25, R53, R91, R228, R234: where the meanings stop. A reserved operand is no micro-operation; the host is held while a
command runs; the engine makes no access to an address that does not exist or is not ordinary memory of the needed
permission. That these stop with a fault is the model's choice, log entries 21, 22 and 30. -/
def Obligations.ReservedAndForbiddenStop : Prop :=
  ∀ s : State,
    (∀ rd, exec (.rotl32 rd 0#5) s = .fault .reservedUop)
    ∧ exec (.dblrnd 127#7) s = .fault .reservedUop ∧ exec (.xfull 7#3) s = .fault .reservedUop
    ∧ exec (.bshift 0#5) s = .fault .reservedUop
    ∧ (∀ kx : BitVec 3, kx.toNat < 2 → exec (.xexact kx) s = .fault .reservedUop
        ∧ exec (.xpart kx) s = .fault .reservedUop ∧ exec (.xprev kx) s = .fault .reservedUop)
    ∧ (s.upc ≠ none → ∀ idx data, exec (.wr idx data) s = .fault .hostHeld
        ∧ exec (.rd idx) s = .fault .hostHeld ∧ exec .xform4 s = .fault .hostHeld)
    ∧ (s.upc ≠ none → s.work.live = Live.all →
        (∀ k : BitVec 3, k.toNat ≤ 6 → ¬ s.CanAccess false (s.work.s.toNat + 32 * k.toNat) →
          ∃ f, exec (.xfull k) s = .fault f)
        ∧ (∀ kx : BitVec 3, 2 ≤ kx.toNat →
          (¬ s.CanAccess false (s.work.s.toNat + 32 * kx.toNat) → ∃ f, exec (.xexact kx) s = .fault f)
          ∧ (¬ s.CanAccess true (s.work.d.toNat + 32 * (kx.toNat - 1)) → ∃ f, exec (.xprev kx) s = .fault f)
          ∧ (32 ≤ s.work.n.toNat → ¬ s.CanAccess true (s.work.d.toNat + (s.work.n.toNat - 32)) →
            ∃ f, exec (.xpart kx) s = .fault f)))

/-! ### Control micro-operations -/

/-- R114: LATCH copies the operands, clears DONE and advances; nothing else changes but the sequencer's own list. -/
def Obligations.LatchEffect : Prop :=
  ∀ (s : State) (u : Nat), s.upc = some u →
    ∃ t, exec .latch s = .next t
      ∧ t.work.s.toNat = s.src.toNat % 2 ^ s.platform.aw ∧ t.work.d.toNat = s.dst.toNat % 2 ^ s.platform.aw
      ∧ t.work.n.toNat = s.nbytes.toNat % 512 ∧ t.work.nr.toNat = s.rounds.toNat % 256
      ∧ t.statusDone = false ∧ t.upc = some (u + 1)
      ∧ t = { s with
          statusDone := false, upc := some (u + 1), seq := t.seq
          work := { s.work with
            s := t.work.s, d := t.work.d, n := t.work.n, nr := t.work.nr
            live := { s.work.live with latched := true } } }

/-- R115: DERIVE makes the four per-block input states, the counter modulo 2^32 with no carry into word 13. -/
def Obligations.DeriveEffect : Prop :=
  ∀ (s : State) (u : Nat), s.upc = some u →
    ∃ t, exec .derive s = .next t
      ∧ (∀ (b : Fin 4) (i : Fin 16), i ≠ 12 → t.work.m[b][i] = s.cs[i])
      ∧ (∀ b : Fin 4, (t.work.m[b][12]).toNat = (s.cs[12].toNat + b.val) % 2 ^ 32)
      ∧ t = { s with
          upc := some (u + 1)
          work := { s.work with m := t.work.m, live := { s.work.live with matrices := true } } }

/-- R116, R35: DONE sets STATUS.DONE, returns the sequencer to IDLE and leaves the working state dead; memory and every
register but STATUS stay. -/
def Obligations.DoneEffect : Prop :=
  ∀ (s : State) (u : Nat), s.upc = some u →
    exec .done s = .next { s with
      statusDone := true, upc := none, seq := []
      work := { s.work with slot := none, live := Live.none } }

/-! ### The round-function core -/

/-- R130, R131, R132, R140, R141: the lane operations act on the four blocks of the destination lane of the enclosing slot and
on nothing else. -/
def Obligations.LaneOperations : Prop :=
  ∀ (s : State) (q : BitVec 3) (rd rs : BitVec 2), s.work.slot = some q → s.work.live.lanes = true →
    (∃ t, exec (.add32 rd rs) s = .next t
      ∧ (∀ b : Fin 4, t.work.v[slotLane q rd][b] = s.work.v[slotLane q rd][b] + s.work.v[slotLane q rs][b])
      ∧ (∀ i : Fin 16, i ≠ slotLane q rd → t.work.v[i] = s.work.v[i])
      ∧ t = { s with work := { s.work with v := t.work.v } })
    ∧ (∃ t, exec (.xor32 rd rs) s = .next t
      ∧ (∀ b : Fin 4, t.work.v[slotLane q rd][b] = s.work.v[slotLane q rd][b] ^^^ s.work.v[slotLane q rs][b])
      ∧ (∀ i : Fin 16, i ≠ slotLane q rd → t.work.v[i] = s.work.v[i])
      ∧ t = { s with work := { s.work with v := t.work.v } })
    ∧ ∀ c : BitVec 5, c ≠ 0#5 →
      ∃ t, exec (.rotl32 rd c) s = .next t
        ∧ (∀ b : Fin 4, t.work.v[slotLane q rd][b] = (s.work.v[slotLane q rd][b]).rotateLeft c.toNat)
        ∧ (∀ i : Fin 16, i ≠ slotLane q rd → t.work.v[i] = s.work.v[i])
        ∧ t = { s with work := { s.work with v := t.work.v } }

/-- R134: the lanes that the eight slots bind to the roles a, b, c, d. -/
def Obligations.SlotTable : Prop :=
  ∀ q : BitVec 3,
    [slotLane q 0, slotLane q 1, slotLane q 2, slotLane q 3] =
      ([[0, 4, 8, 12], [1, 5, 9, 13], [2, 6, 10, 14], [3, 7, 11, 15],
        [0, 5, 10, 15], [1, 6, 11, 12], [2, 7, 8, 13], [3, 4, 9, 14]] : List (List (Fin 16)))[q.toNat]?.getD []

/-- R133, R141: QR applies the quarter round to the four words of its slot, in each block separately, and changes no other
lane and nothing else. -/
def Obligations.QuarterRoundEffect : Prop :=
  ∀ (s : State) (q : BitVec 3), s.work.live.lanes = true →
    ∃ t, exec (.qr q) s = .next t
      ∧ (∀ b : Fin 4, slotWords t.work.v q b =
          (let x := slotWords s.work.v q b; quarterWords x.1 x.2.1 x.2.2.1 x.2.2.2))
      ∧ (∀ i : Fin 16, (∀ role, i ≠ slotLane q role) → t.work.v[i] = s.work.v[i])
      ∧ t = { s with work := { s.work with v := t.work.v } }

/-- R133 (corner cases): QR is a bijection of the lane file, so no input collapses, and it fixes zero. -/
def Obligations.QuarterRoundIsBijective : Prop :=
  ∀ q : BitVec 3, Function.Bijective (quarterRound q)
    ∧ quarterRound q (Vector.replicate 16 (Vector.replicate 4 0)) = Vector.replicate 16 (Vector.replicate 4 0)

/-- R135, R136, R137: COLRND is QR 0 to 3, DIAGRND is QR 4 to 7, DBLRND is COLRND then DIAGRND and one step of the sequencer,
whatever its index. That a double round is a column round and then a diagonal round is general knowledge in the spec,
PRESUMED, log entry 17. -/
def Obligations.RoundsAreTheirQuarterRounds : Prop :=
  ∀ (s : State) (u : Nat) (dr : BitVec 7), s.upc = some u → s.work.live.lanes = true → dr.toNat ≤ 126 →
    ∃ tc td tr, exec .colrnd s = .next tc ∧ exec .diagrnd s = .next td ∧ exec (.dblrnd dr) s = .next tr
      ∧ andThen (exec (.qr 0) s) (fun s => andThen (exec (.qr 1) s) fun s => andThen (exec (.qr 2) s) fun s =>
          exec (.qr 3) s) = .next tc
      ∧ andThen (exec (.qr 4) s) (fun s => andThen (exec (.qr 5) s) fun s => andThen (exec (.qr 6) s) fun s =>
          exec (.qr 7) s) = .next td
      ∧ andThen (exec .colrnd s) (fun s => exec .diagrnd s) = .next { tr with upc := some u }
      ∧ tr.upc = some (u + 1)
      ∧ tc = { s with work := { s.work with v := tc.work.v } }
      ∧ td = { s with work := { s.work with v := td.work.v } }
      ∧ tr = { s with upc := some (u + 1), work := { s.work with v := tr.work.v } }

/-- R141, R137: a double round on the lanes is the block double round on each block alone. -/
def Obligations.BlocksAreIndependent : Prop :=
  ∀ (v : Lanes) (b : Fin 4), (deinterleave (doubleRound v))[b] = blockDoubleRound (deinterleave v)[b]

/-- R139: ADDORIG adds the pre-mix word to every word of every block, modulo 2^32. -/
def Obligations.AddOriginalEffect : Prop :=
  ∀ (s : State) (u : Nat), s.upc = some u → s.work.live.lanes = true → s.work.live.original = true →
    ∃ t, exec .addorig s = .next t
      ∧ (∀ (i : Fin 16) (b : Fin 4),
          (t.work.v[i][b]).toNat = ((s.work.v[i][b]).toNat + (s.work.v0[i][b]).toNat) % 2 ^ 32)
      ∧ t = { s with upc := some (u + 1), work := { s.work with v := t.work.v } }

/-! ### Interleave, de-interleave, serialise -/

/-- R151, R152, R154: what ILV, DLV and SER write, word for word and byte for byte, and that they change nothing else. -/
def Obligations.LayoutEffects : Prop :=
  ∀ (s : State) (u : Nat), s.upc = some u →
    (s.work.live.matrices = true →
      ∃ t, exec .ilv s = .next t
        ∧ (∀ (i : Fin 16) (b : Fin 4),
            t.work.v[i][b] = s.work.m[b][i] ∧ t.work.v0[i][b] = s.work.m[b][i])
        ∧ t = { s with
            upc := some (u + 1)
            work := { s.work with
              v := t.work.v, v0 := t.work.v0
              live := { s.work.live with lanes := true, original := true } } })
    ∧ (s.work.live.lanes = true →
      ∃ t, exec .dlv s = .next t
        ∧ (∀ (b : Fin 4) (i : Fin 16), t.work.m[b][i] = s.work.v[i][b])
        ∧ t = { s with
            upc := some (u + 1)
            work := { s.work with m := t.work.m, live := { s.work.live with matrices := true } } })
    ∧ (s.work.live.matrices = true →
      ∃ t, exec .ser s = .next t
        ∧ (∀ (b : Fin 4) (i : Fin 16) (j : Fin 4),
            (t.work.ks[64 * b.val + 4 * i.val + j.val]'(by omega)).toNat
              = (s.work.m[b][i]).toNat / 2 ^ (8 * j.val) % 256)
        ∧ t = { s with
            upc := some (u + 1)
            work := { s.work with ks := t.work.ks, live := { s.work.live with keystream := true } } })

/-- R153: DLV after ILV restores M exactly, and ILV after DLV restores V exactly, for every content. -/
def Obligations.LayoutsAreInverse : Prop :=
  ∀ (s : State) (u : Nat), s.upc = some u →
    (s.work.live.matrices = true →
      ∃ t, andThen (exec .ilv s) (fun s => exec .dlv s) = .next t ∧ t.work.m = s.work.m)
    ∧ (s.work.live.lanes = true →
      ∃ t, andThen (exec .dlv s) (fun s => exec .ilv s) = .next t ∧ t.work.v = s.work.v)

/-! ### The walk -/

/-- R166: WALK loads the remaining-count with n and clears k. -/
def Obligations.WalkEffect : Prop :=
  ∀ (s : State) (u : Nat), s.upc = some u → s.work.live.latched = true →
    ∃ t, exec .walk s = .next t ∧ t.work.rem.toInt = s.work.n.toNat ∧ t.work.k = 0#3
      ∧ t = { s with
          upc := some (u + 1)
          work := { s.work with
            rem := t.work.rem, k := 0#3
            live := { s.work.live with remaining := true, subchunk := true } } }

/-- R32, R167, R168: XSTEP subtracts 32, Z is 1 exactly when the count is then 0 and N exactly when it is negative, and the
flags select the continuation that the sequencer will issue after whatever it still had to issue. The subtraction is that of
integers as long as the count is in the range of the register. A count below -31 or an index 7 with a positive count, which no
command meets, selects what the model chose: log entry 37. -/
def Obligations.WalkStepEffect : Prop :=
  ∀ (s : State) (u : Nat) (k : BitVec 3), s.upc = some u → s.work.live.remaining = true →
    ∃ t, exec (.xstep k) s = .next t
      ∧ (-480 ≤ s.work.rem.toInt → t.work.rem.toInt = s.work.rem.toInt - 32)
      ∧ (t.work.z = true ↔ t.work.rem.toInt = 0)
      ∧ (t.work.neg = true ↔ t.work.rem.toInt < 0)
      ∧ (0 < t.work.rem.toInt → t.seq = s.seq ++ [encodeUw (.xfull k), encodeUw (.xstep (k + 1))])
      ∧ (t.work.rem.toInt = 0 → t.seq = s.seq ++ [encodeUw (.xexact k), encodeUw .done])
      ∧ (t.work.rem.toInt < 0 → t.seq = s.seq ++
          [encodeUw (.bshift (BitVec.ofInt 5 (t.work.rem.toInt + 32))), encodeUw (.xpart k), encodeUw (.xprev k),
            encodeUw .done])
      ∧ t = { s with
          upc := some (u + 1), seq := t.seq
          work := { s.work with
            rem := t.work.rem, z := t.work.z, neg := t.work.neg
            live := { s.work.live with flags := true } } }

/-- R169: XFULL reads source sub-chunk k, XORs it with keystream sub-chunk k into PEND, and stores the old PEND to destination
sub-chunk k - 1 unless k is 0; no other byte changes. -/
def Obligations.FullSubchunkEffect : Prop :=
  ∀ (s : State) (u : Nat) (k : BitVec 3), s.upc = some u → k.toNat ≤ 6 →
    s.work.live.latched = true → s.work.live.keystream = true → s.work.live.subchunk = true →
    s.CanAccess false (s.work.s.toNat + 32 * k.toNat) →
    (k ≠ 0#3 → s.work.live.pending = true ∧ s.CanAccess true (s.work.d.toNat + 32 * (k.toNat - 1))) →
    ∃ t, exec (.xfull k) s = .next t
      ∧ (∀ j : Fin 32, t.work.pend[j] =
          s.byteAt (s.work.s.toNat + 32 * k.toNat + j.val) ^^^ (keystreamChunk s.work.ks k)[j])
      ∧ t.work.k = s.work.k + 1
      ∧ (k = 0#3 → t.mem = s.mem)
      ∧ (k ≠ 0#3 →
          (Memory.wf s.mem = true →
            ∀ j : Fin 32, t.byteAt (s.work.d.toNat + 32 * (k.toNat - 1) + j.val) = s.work.pend[j])
          ∧ ∀ a, (a < s.work.d.toNat + 32 * (k.toNat - 1) ∨ s.work.d.toNat + 32 * (k.toNat - 1) + 32 ≤ a) →
              t.byteAt a = s.byteAt a)
      ∧ t = { s with
          upc := some (u + 1), mem := t.mem, history := t.history
          work := { s.work with
            pend := t.work.pend, k := t.work.k, live := { s.work.live with pending := true } } }

/-! ### The tail handler -/

/-- R181: XEXACT stores the pending sub-chunk K - 1 and then the XORed sub-chunk K, and no other byte changes. -/
def Obligations.ExactExitEffect : Prop :=
  ∀ (s : State) (u : Nat) (kx : BitVec 3), s.upc = some u → 2 ≤ kx.toNat →
    s.work.live.latched = true → s.work.live.keystream = true → s.work.live.pending = true →
    s.CanAccess false (s.work.s.toNat + 32 * kx.toNat) →
    s.CanAccess true (s.work.d.toNat + 32 * (kx.toNat - 1)) → s.CanAccess true (s.work.d.toNat + 32 * kx.toNat) →
    ∃ t, exec (.xexact kx) s = .next t
      ∧ (Memory.wf s.mem = true →
          ∀ j : Fin 32, t.byteAt (s.work.d.toNat + 32 * (kx.toNat - 1) + j.val) = s.work.pend[j]
            ∧ t.byteAt (s.work.d.toNat + 32 * kx.toNat + j.val) =
                s.byteAt (s.work.s.toNat + 32 * kx.toNat + j.val) ^^^ (keystreamChunk s.work.ks kx)[j])
      ∧ (∀ a, (a < s.work.d.toNat + 32 * (kx.toNat - 1) ∨ s.work.d.toNat + 32 * kx.toNat + 32 ≤ a) →
          t.byteAt a = s.byteAt a)
      ∧ t = { s with upc := some (u + 1), mem := t.mem, history := t.history }

/-- R182, R191(b): BSHIFT writes T, the keystream bytes from 32(k-1) + r on, which for n = 32k + r are KS[n-32 .. n). -/
def Obligations.ByteShiftEffect : Prop :=
  ∀ (s : State) (u : Nat) (r : BitVec 5), s.upc = some u → r ≠ 0#5 → s.work.k ≠ 0#3 →
    s.work.live.keystream = true → s.work.live.subchunk = true →
    ∃ t, exec (.bshift r) s = .next t
      ∧ (∀ (j : Fin 32) (x : Fin 256), x.val = 32 * (s.work.k.toNat - 1) + r.toNat + j.val →
          t.work.t[j] = s.work.ks[x])
      ∧ t = { s with
          upc := some (u + 1)
          work := { s.work with t := t.work.t, live := { s.work.live with shifted := true } } }

/-- R183: XPART reads the source window at offset n - 32, XORs it with T and stores it to the destination window; no other
byte changes. -/
def Obligations.PartialStoreEffect : Prop :=
  ∀ (s : State) (u : Nat) (kx : BitVec 3), s.upc = some u → 2 ≤ kx.toNat → 32 ≤ s.work.n.toNat →
    s.work.live.latched = true → s.work.live.shifted = true →
    s.CanAccess false (s.work.s.toNat + (s.work.n.toNat - 32)) →
    s.CanAccess true (s.work.d.toNat + (s.work.n.toNat - 32)) →
    ∃ t, exec (.xpart kx) s = .next t
      ∧ (Memory.wf s.mem = true →
          ∀ j : Fin 32, t.byteAt (s.work.d.toNat + (s.work.n.toNat - 32) + j.val) =
            s.byteAt (s.work.s.toNat + (s.work.n.toNat - 32) + j.val) ^^^ s.work.t[j])
      ∧ (∀ a, (a < s.work.d.toNat + (s.work.n.toNat - 32) ∨ s.work.d.toNat + s.work.n.toNat ≤ a) →
          t.byteAt a = s.byteAt a)
      ∧ t = { s with upc := some (u + 1), mem := t.mem, history := t.history }

/-- R184: XPREV stores PEND to destination sub-chunk K - 1; no other byte changes. -/
def Obligations.PreviousStoreEffect : Prop :=
  ∀ (s : State) (u : Nat) (kx : BitVec 3), s.upc = some u → 2 ≤ kx.toNat →
    s.work.live.latched = true → s.work.live.pending = true →
    s.CanAccess true (s.work.d.toNat + 32 * (kx.toNat - 1)) →
    ∃ t, exec (.xprev kx) s = .next t
      ∧ (Memory.wf s.mem = true →
          ∀ j : Fin 32, t.byteAt (s.work.d.toNat + 32 * (kx.toNat - 1) + j.val) = s.work.pend[j])
      ∧ (∀ a, (a < s.work.d.toNat + 32 * (kx.toNat - 1) ∨ s.work.d.toNat + 32 * (kx.toNat - 1) + 32 ≤ a) →
          t.byteAt a = s.byteAt a)
      ∧ t = { s with upc := some (u + 1), mem := t.mem, history := t.history }

/-- R68, R185, R190: at a partial exit, the overlapping stores in the order partial then full leave the memory that the
staging variant leaves, in place and disjoint alike. -/
def Obligations.OverlappingStoresEqualStaging : Prop :=
  ∀ (s : State) (kx : BitVec 3) (r : BitVec 5), s.AtPartialExit kx r → Memory.wf s.mem = true →
    sameOrDisjoint s.work.s.toNat s.work.d.toNat s.work.n.toNat →
    ∃ t, andThen (exec (.xpart kx) s) (fun s => exec (.xprev kx) s) = .next t ∧ t.mem = stagingExit s kx r

/-- R185, R255: in place, the other order, full then partial, leaves the caller's original bytes at the overlap. -/
def Obligations.WrongStoreOrderLeavesPlaintext : Prop :=
  ∀ (s : State) (kx : BitVec 3) (r : BitVec 5), s.AtPartialExit kx r → Memory.wf s.mem = true →
    s.work.s = s.work.d →
    ∃ t, andThen (exec (.xprev kx) s) (fun s => exec (.xpart kx) s) = .next t
      ∧ ∀ x, s.work.n.toNat - 32 ≤ x → x < 32 * kx.toNat →
          t.byteAt (s.work.d.toNat + x) = s.byteAt (s.work.d.toNat + x)

/-! ### The machine's steps and its invariant -/

/-- R20, R33, R80: when the word that stands next decodes to an instruction, the step is that instruction's meaning, in the
state from which the word has been taken; the sequencer's issue is noted in the history. A store of the caller that stands
next is performed in the same way (log entry 31). -/
def Obligations.StepRunsTheNextInstruction : Prop :=
  ∀ (s : State) (i : Instr),
    (∀ w rest, s.upc = none → s.inputs = .transaction w :: rest → decode (.ht w) = .ok i →
      step s = exec i { s with inputs := rest })
    ∧ (∀ w rest, s.upc = none → s.inputs = .command w :: rest → decode (.cw w) = .ok i →
      step s = exec i { s with inputs := rest })
    ∧ (∀ w rest, s.upc ≠ none → s.seq = w :: rest → decode (.uw w) = .ok i →
      step s = exec i { s with seq := rest, history := s.history ++ [.issue w] })
    ∧ (∀ a bs rest, s.upc = none → s.inputs = .callerStore a bs :: rest →
      step s = callerStore a bs { s with inputs := rest })

/-- The invariant holds right after reset (R37, R50). -/
def Obligations.InvariantAtReset : Prop := State.reset.Inv

/-- R24, R33, R35, R50: every step keeps the invariant: memory in canonical form inside the data space, SRC and DST AW bits
wide, an idle engine with nothing to issue and a dead working state. -/
def Obligations.InvariantKeptByStep : Prop :=
  ∀ s t : State, s.Inv → step s = .next t → t.Inv

/-! ### The host's side of the protocol -/

/-- R94, R203: SETSTATE writes all sixteen Cipher State words and nothing else; XFORM4 with operands is the command from the
state with Cipher State and operand registers so written, and stops when an operand does not fit a transaction (the model's
choice, log entry 32); CTRADV c adds c to the counter word modulo 2^32 and changes no other register and no memory. R36, R64:
a store of the caller to ordinary memory changes exactly its bytes, so the next command reads them (log entry 31). -/
def Obligations.HostPseudoInstructions : Prop :=
  ∀ s : State, s.upc = none →
    (∀ w : Block, ∃ t, setCipherState w s = .next t ∧ t.cs = w ∧ t.CipherOk
      ∧ t = { s with cs := t.cs, csSet := t.csSet })
    ∧ (∀ (w : Block) (src dst nr n : Nat), src < 2 ^ 32 → dst < 2 ^ 32 → nr < 2 ^ 32 → n < 2 ^ 32 →
      xform4Call w src dst nr n s = exec .xform4 { s with
        cs := w, csSet := Vector.replicate 16 true
        src := BitVec.ofNat 32 (src % 2 ^ s.platform.aw), srcSet := true
        dst := BitVec.ofNat 32 (dst % 2 ^ s.platform.aw), dstSet := true
        nbytes := BitVec.ofNat 32 n, rounds := BitVec.ofNat 32 nr })
    ∧ (∀ (w : Block) (src dst nr n : Nat), 2 ^ 32 ≤ src ∨ 2 ^ 32 ≤ dst ∨ 2 ^ 32 ≤ nr ∨ 2 ^ 32 ≤ n →
      xform4Call w src dst nr n s = .fault .operandTooWide)
    ∧ (s.csSet[12] = true → ∀ c : Nat,
      ∃ t, counterAdvance c s = .next t
        ∧ (t.cs[12]).toNat = (s.cs[12].toNat + c) % 2 ^ 32
        ∧ (∀ i : Fin 16, i ≠ 12 → t.cs[i] = s.cs[i])
        ∧ t = { s with cs := t.cs, replies := t.replies })
    ∧ ∀ (a : Nat) (bs : List Byte) (rest : List Input), s.inputs = .callerStore a bs :: rest →
        (∀ j, j < bs.length → a + j < 2 ^ s.platform.aw
          ∧ (s.platform.ordinary false (a + j) = true ∨ s.platform.ordinary true (a + j) = true)) →
        ∃ t, step s = .next t
          ∧ (Memory.wf s.mem = true → ∀ j : Fin bs.length, t.byteAt (a + j.val) = bs[j])
          ∧ (∀ b, b < a ∨ a + bs.length ≤ b → t.byteAt b = s.byteAt b)
          ∧ t = { s with inputs := rest, mem := t.mem }

/-- R204: XFORM1 XORs exactly 64 bytes with the block of the state as it stands, which is keystream(CS, nr)[0 .. 64), and
mutates no register. On an odd or zero round count and on Cipher State words unwritten since reset it is the model's choice that
the block is still `keystream s.cs nr`: log entries 34 and 36. -/
def Obligations.SingleBlockEffect : Prop :=
  ∀ (s : State) (src dst nr : Nat), sameOrDisjoint src dst 64 → Memory.wf s.mem = true →
    (∀ j, j < 64 → (src + j < 2 ^ s.platform.aw ∧ s.platform.ordinary false (src + j) = true)
      ∧ (dst + j < 2 ^ s.platform.aw ∧ s.platform.ordinary true (dst + j) = true)) →
    ∃ t, xform1 src dst nr s = .next t
      ∧ (∀ x : Fin 256, x.val < 64 →
          t.byteAt (dst + x.val) = s.byteAt (src + x.val) ^^^ (keystream s.cs nr)[x])
      ∧ (∀ a, a < dst ∨ dst + 64 ≤ a → t.byteAt a = s.byteAt a)
      ∧ t = { s with mem := t.mem }

/-- R206(b): after STREAM over len bytes the counter word is its start plus ceil(len / 64), modulo 2^32, and the other
fifteen words are unchanged. -/
def Obligations.StreamAdvancesCounter : Prop :=
  ∀ (s : State) (src dst nr len : Nat), s.StreamReady src dst nr len →
    ∃ t, stream src dst nr len s = .next t
      ∧ (t.cs[12]).toNat = (s.cs[12].toNat + (len + 63) / 64) % 2 ^ 32
      ∧ ∀ i : Fin 16, i ≠ 12 → t.cs[i] = s.cs[i]

/-- R206(a): STREAM's output is the input XORed with the blocks of counters c0, c0 + 1, c0 + 2, ... truncated to len, and no
byte outside the destination changes. -/
def Obligations.StreamEqualsReference : Prop :=
  ∀ (s : State) (src dst nr len : Nat), s.StreamReady src dst nr len → Memory.wf s.mem = true →
    ∃ t, stream src dst nr len s = .next t
      ∧ (∀ x, x < len → t.byteAt (dst + x) = s.byteAt (src + x) ^^^ streamByte s.cs nr x)
      ∧ ∀ a, a < dst ∨ dst + len ≤ a → t.byteAt a = s.byteAt a
end

