-- ==== Sys2Proof/Laws/State.lean ====
section
/-! SUPPORT. One lemma per field per update of the state, true by rfl, so that no proof unfolds a record update. -/

namespace Sys2Proof.Machine

section log
variable (s : State) (e : Event)

@[simp] theorem State.log_cs : (s.log e).cs = s.cs := rfl
@[simp] theorem State.log_csSet : (s.log e).csSet = s.csSet := rfl
@[simp] theorem State.log_src : (s.log e).src = s.src := rfl
@[simp] theorem State.log_srcSet : (s.log e).srcSet = s.srcSet := rfl
@[simp] theorem State.log_dst : (s.log e).dst = s.dst := rfl
@[simp] theorem State.log_dstSet : (s.log e).dstSet = s.dstSet := rfl
@[simp] theorem State.log_nbytes : (s.log e).nbytes = s.nbytes := rfl
@[simp] theorem State.log_rounds : (s.log e).rounds = s.rounds := rfl
@[simp] theorem State.log_statusDone : (s.log e).statusDone = s.statusDone := rfl
@[simp] theorem State.log_work : (s.log e).work = s.work := rfl
@[simp] theorem State.log_upc : (s.log e).upc = s.upc := rfl
@[simp] theorem State.log_seq : (s.log e).seq = s.seq := rfl
@[simp] theorem State.log_mem : (s.log e).mem = s.mem := rfl
@[simp] theorem State.log_platform : (s.log e).platform = s.platform := rfl
@[simp] theorem State.log_inputs : (s.log e).inputs = s.inputs := rfl
@[simp] theorem State.log_replies : (s.log e).replies = s.replies := rfl
@[simp] theorem State.log_history : (s.log e).history = s.history ++ [e] := rfl
@[simp] theorem State.log_freeCtr : (s.log e).freeCtr = s.freeCtr := rfl

end log

section advance
variable (s : State)

@[simp] theorem State.advance_cs : s.advance.cs = s.cs := rfl
@[simp] theorem State.advance_csSet : s.advance.csSet = s.csSet := rfl
@[simp] theorem State.advance_src : s.advance.src = s.src := rfl
@[simp] theorem State.advance_srcSet : s.advance.srcSet = s.srcSet := rfl
@[simp] theorem State.advance_dst : s.advance.dst = s.dst := rfl
@[simp] theorem State.advance_dstSet : s.advance.dstSet = s.dstSet := rfl
@[simp] theorem State.advance_nbytes : s.advance.nbytes = s.nbytes := rfl
@[simp] theorem State.advance_rounds : s.advance.rounds = s.rounds := rfl
@[simp] theorem State.advance_statusDone : s.advance.statusDone = s.statusDone := rfl
@[simp] theorem State.advance_work : s.advance.work = s.work := rfl
@[simp] theorem State.advance_upc : s.advance.upc = s.upc.map (· + 1) := rfl
@[simp] theorem State.advance_seq : s.advance.seq = s.seq := rfl
@[simp] theorem State.advance_mem : s.advance.mem = s.mem := rfl
@[simp] theorem State.advance_platform : s.advance.platform = s.platform := rfl
@[simp] theorem State.advance_inputs : s.advance.inputs = s.inputs := rfl
@[simp] theorem State.advance_replies : s.advance.replies = s.replies := rfl
@[simp] theorem State.advance_history : s.advance.history = s.history := rfl
@[simp] theorem State.advance_freeCtr : s.advance.freeCtr = s.freeCtr := rfl

end advance

section enqueue
variable (s : State) (is : List Instr)

@[simp] theorem State.enqueue_cs : (s.enqueue is).cs = s.cs := rfl
@[simp] theorem State.enqueue_csSet : (s.enqueue is).csSet = s.csSet := rfl
@[simp] theorem State.enqueue_src : (s.enqueue is).src = s.src := rfl
@[simp] theorem State.enqueue_srcSet : (s.enqueue is).srcSet = s.srcSet := rfl
@[simp] theorem State.enqueue_dst : (s.enqueue is).dst = s.dst := rfl
@[simp] theorem State.enqueue_dstSet : (s.enqueue is).dstSet = s.dstSet := rfl
@[simp] theorem State.enqueue_nbytes : (s.enqueue is).nbytes = s.nbytes := rfl
@[simp] theorem State.enqueue_rounds : (s.enqueue is).rounds = s.rounds := rfl
@[simp] theorem State.enqueue_statusDone : (s.enqueue is).statusDone = s.statusDone := rfl
@[simp] theorem State.enqueue_work : (s.enqueue is).work = s.work := rfl
@[simp] theorem State.enqueue_upc : (s.enqueue is).upc = s.upc := rfl
@[simp] theorem State.enqueue_seq : (s.enqueue is).seq = s.seq ++ is.map encodeUw := rfl
@[simp] theorem State.enqueue_mem : (s.enqueue is).mem = s.mem := rfl
@[simp] theorem State.enqueue_platform : (s.enqueue is).platform = s.platform := rfl
@[simp] theorem State.enqueue_inputs : (s.enqueue is).inputs = s.inputs := rfl
@[simp] theorem State.enqueue_replies : (s.enqueue is).replies = s.replies := rfl
@[simp] theorem State.enqueue_history : (s.enqueue is).history = s.history := rfl
@[simp] theorem State.enqueue_freeCtr : (s.enqueue is).freeCtr = s.freeCtr := rfl

end enqueue

section setLanes
variable (s : State) (v : Lanes)

@[simp] theorem State.setLanes_cs : (s.setLanes v).cs = s.cs := rfl
@[simp] theorem State.setLanes_csSet : (s.setLanes v).csSet = s.csSet := rfl
@[simp] theorem State.setLanes_src : (s.setLanes v).src = s.src := rfl
@[simp] theorem State.setLanes_srcSet : (s.setLanes v).srcSet = s.srcSet := rfl
@[simp] theorem State.setLanes_dst : (s.setLanes v).dst = s.dst := rfl
@[simp] theorem State.setLanes_dstSet : (s.setLanes v).dstSet = s.dstSet := rfl
@[simp] theorem State.setLanes_nbytes : (s.setLanes v).nbytes = s.nbytes := rfl
@[simp] theorem State.setLanes_rounds : (s.setLanes v).rounds = s.rounds := rfl
@[simp] theorem State.setLanes_statusDone : (s.setLanes v).statusDone = s.statusDone := rfl
@[simp] theorem State.setLanes_work : (s.setLanes v).work = { s.work with v := v } := rfl
@[simp] theorem State.setLanes_upc : (s.setLanes v).upc = s.upc := rfl
@[simp] theorem State.setLanes_seq : (s.setLanes v).seq = s.seq := rfl
@[simp] theorem State.setLanes_mem : (s.setLanes v).mem = s.mem := rfl
@[simp] theorem State.setLanes_platform : (s.setLanes v).platform = s.platform := rfl
@[simp] theorem State.setLanes_inputs : (s.setLanes v).inputs = s.inputs := rfl
@[simp] theorem State.setLanes_replies : (s.setLanes v).replies = s.replies := rfl
@[simp] theorem State.setLanes_history : (s.setLanes v).history = s.history := rfl
@[simp] theorem State.setLanes_freeCtr : (s.setLanes v).freeCtr = s.freeCtr := rfl

end setLanes

section holdBack
variable (s : State) (o : Chunk)

@[simp] theorem State.holdBack_cs : (s.holdBack o).cs = s.cs := rfl
@[simp] theorem State.holdBack_csSet : (s.holdBack o).csSet = s.csSet := rfl
@[simp] theorem State.holdBack_src : (s.holdBack o).src = s.src := rfl
@[simp] theorem State.holdBack_srcSet : (s.holdBack o).srcSet = s.srcSet := rfl
@[simp] theorem State.holdBack_dst : (s.holdBack o).dst = s.dst := rfl
@[simp] theorem State.holdBack_dstSet : (s.holdBack o).dstSet = s.dstSet := rfl
@[simp] theorem State.holdBack_nbytes : (s.holdBack o).nbytes = s.nbytes := rfl
@[simp] theorem State.holdBack_rounds : (s.holdBack o).rounds = s.rounds := rfl
@[simp] theorem State.holdBack_statusDone : (s.holdBack o).statusDone = s.statusDone := rfl
@[simp] theorem State.holdBack_work : (s.holdBack o).work = { s.work with
      pend := o, k := s.work.k + 1, live := { s.work.live with pending := true } } := rfl
@[simp] theorem State.holdBack_upc : (s.holdBack o).upc = s.upc := rfl
@[simp] theorem State.holdBack_seq : (s.holdBack o).seq = s.seq := rfl
@[simp] theorem State.holdBack_mem : (s.holdBack o).mem = s.mem := rfl
@[simp] theorem State.holdBack_platform : (s.holdBack o).platform = s.platform := rfl
@[simp] theorem State.holdBack_inputs : (s.holdBack o).inputs = s.inputs := rfl
@[simp] theorem State.holdBack_replies : (s.holdBack o).replies = s.replies := rfl
@[simp] theorem State.holdBack_history : (s.holdBack o).history = s.history := rfl
@[simp] theorem State.holdBack_freeCtr : (s.holdBack o).freeCtr = s.freeCtr := rfl

end holdBack

section latchOperands
variable (s : State)

@[simp] theorem State.latchOperands_cs : s.latchOperands.cs = s.cs := rfl
@[simp] theorem State.latchOperands_csSet : s.latchOperands.csSet = s.csSet := rfl
@[simp] theorem State.latchOperands_src : s.latchOperands.src = s.src := rfl
@[simp] theorem State.latchOperands_srcSet : s.latchOperands.srcSet = s.srcSet := rfl
@[simp] theorem State.latchOperands_dst : s.latchOperands.dst = s.dst := rfl
@[simp] theorem State.latchOperands_dstSet : s.latchOperands.dstSet = s.dstSet := rfl
@[simp] theorem State.latchOperands_nbytes : s.latchOperands.nbytes = s.nbytes := rfl
@[simp] theorem State.latchOperands_rounds : s.latchOperands.rounds = s.rounds := rfl
@[simp] theorem State.latchOperands_statusDone : s.latchOperands.statusDone = false := rfl
@[simp] theorem State.latchOperands_work : s.latchOperands.work = { s.work with
      s := addrField s.platform.aw s.src, d := addrField s.platform.aw s.dst
      n := nbytesField s.nbytes, nr := roundsField s.rounds
      live := { s.work.live with latched := true } } := rfl
@[simp] theorem State.latchOperands_upc : s.latchOperands.upc = s.upc := rfl
@[simp] theorem State.latchOperands_seq : s.latchOperands.seq = s.seq := rfl
@[simp] theorem State.latchOperands_mem : s.latchOperands.mem = s.mem := rfl
@[simp] theorem State.latchOperands_platform : s.latchOperands.platform = s.platform := rfl
@[simp] theorem State.latchOperands_inputs : s.latchOperands.inputs = s.inputs := rfl
@[simp] theorem State.latchOperands_replies : s.latchOperands.replies = s.replies := rfl
@[simp] theorem State.latchOperands_history : s.latchOperands.history = s.history := rfl
@[simp] theorem State.latchOperands_freeCtr : s.latchOperands.freeCtr = s.freeCtr := rfl

end latchOperands

section writeCs
variable (s : State) (i : Fin 16) (w : Word)

@[simp] theorem State.writeCs_cs : (s.writeCs i w).cs = s.cs.set i w := rfl
@[simp] theorem State.writeCs_csSet : (s.writeCs i w).csSet = s.csSet.set i true := rfl
@[simp] theorem State.writeCs_src : (s.writeCs i w).src = s.src := rfl
@[simp] theorem State.writeCs_srcSet : (s.writeCs i w).srcSet = s.srcSet := rfl
@[simp] theorem State.writeCs_dst : (s.writeCs i w).dst = s.dst := rfl
@[simp] theorem State.writeCs_dstSet : (s.writeCs i w).dstSet = s.dstSet := rfl
@[simp] theorem State.writeCs_nbytes : (s.writeCs i w).nbytes = s.nbytes := rfl
@[simp] theorem State.writeCs_rounds : (s.writeCs i w).rounds = s.rounds := rfl
@[simp] theorem State.writeCs_statusDone : (s.writeCs i w).statusDone = s.statusDone := rfl
@[simp] theorem State.writeCs_work : (s.writeCs i w).work = s.work := rfl
@[simp] theorem State.writeCs_upc : (s.writeCs i w).upc = s.upc := rfl
@[simp] theorem State.writeCs_seq : (s.writeCs i w).seq = s.seq := rfl
@[simp] theorem State.writeCs_mem : (s.writeCs i w).mem = s.mem := rfl
@[simp] theorem State.writeCs_platform : (s.writeCs i w).platform = s.platform := rfl
@[simp] theorem State.writeCs_inputs : (s.writeCs i w).inputs = s.inputs := rfl
@[simp] theorem State.writeCs_replies : (s.writeCs i w).replies = s.replies := rfl
@[simp] theorem State.writeCs_history : (s.writeCs i w).history = s.history := rfl
@[simp] theorem State.writeCs_freeCtr : (s.writeCs i w).freeCtr = s.freeCtr := rfl

end writeCs

section writeSrc
variable (s : State) (w : Word)

@[simp] theorem State.writeSrc_cs : (s.writeSrc w).cs = s.cs := rfl
@[simp] theorem State.writeSrc_csSet : (s.writeSrc w).csSet = s.csSet := rfl
@[simp] theorem State.writeSrc_src : (s.writeSrc w).src = addrField s.platform.aw w := rfl
@[simp] theorem State.writeSrc_srcSet : (s.writeSrc w).srcSet = true := rfl
@[simp] theorem State.writeSrc_dst : (s.writeSrc w).dst = s.dst := rfl
@[simp] theorem State.writeSrc_dstSet : (s.writeSrc w).dstSet = s.dstSet := rfl
@[simp] theorem State.writeSrc_nbytes : (s.writeSrc w).nbytes = s.nbytes := rfl
@[simp] theorem State.writeSrc_rounds : (s.writeSrc w).rounds = s.rounds := rfl
@[simp] theorem State.writeSrc_statusDone : (s.writeSrc w).statusDone = s.statusDone := rfl
@[simp] theorem State.writeSrc_work : (s.writeSrc w).work = s.work := rfl
@[simp] theorem State.writeSrc_upc : (s.writeSrc w).upc = s.upc := rfl
@[simp] theorem State.writeSrc_seq : (s.writeSrc w).seq = s.seq := rfl
@[simp] theorem State.writeSrc_mem : (s.writeSrc w).mem = s.mem := rfl
@[simp] theorem State.writeSrc_platform : (s.writeSrc w).platform = s.platform := rfl
@[simp] theorem State.writeSrc_inputs : (s.writeSrc w).inputs = s.inputs := rfl
@[simp] theorem State.writeSrc_replies : (s.writeSrc w).replies = s.replies := rfl
@[simp] theorem State.writeSrc_history : (s.writeSrc w).history = s.history := rfl
@[simp] theorem State.writeSrc_freeCtr : (s.writeSrc w).freeCtr = s.freeCtr := rfl

end writeSrc

section writeDst
variable (s : State) (w : Word)

@[simp] theorem State.writeDst_cs : (s.writeDst w).cs = s.cs := rfl
@[simp] theorem State.writeDst_csSet : (s.writeDst w).csSet = s.csSet := rfl
@[simp] theorem State.writeDst_src : (s.writeDst w).src = s.src := rfl
@[simp] theorem State.writeDst_srcSet : (s.writeDst w).srcSet = s.srcSet := rfl
@[simp] theorem State.writeDst_dst : (s.writeDst w).dst = addrField s.platform.aw w := rfl
@[simp] theorem State.writeDst_dstSet : (s.writeDst w).dstSet = true := rfl
@[simp] theorem State.writeDst_nbytes : (s.writeDst w).nbytes = s.nbytes := rfl
@[simp] theorem State.writeDst_rounds : (s.writeDst w).rounds = s.rounds := rfl
@[simp] theorem State.writeDst_statusDone : (s.writeDst w).statusDone = s.statusDone := rfl
@[simp] theorem State.writeDst_work : (s.writeDst w).work = s.work := rfl
@[simp] theorem State.writeDst_upc : (s.writeDst w).upc = s.upc := rfl
@[simp] theorem State.writeDst_seq : (s.writeDst w).seq = s.seq := rfl
@[simp] theorem State.writeDst_mem : (s.writeDst w).mem = s.mem := rfl
@[simp] theorem State.writeDst_platform : (s.writeDst w).platform = s.platform := rfl
@[simp] theorem State.writeDst_inputs : (s.writeDst w).inputs = s.inputs := rfl
@[simp] theorem State.writeDst_replies : (s.writeDst w).replies = s.replies := rfl
@[simp] theorem State.writeDst_history : (s.writeDst w).history = s.history := rfl
@[simp] theorem State.writeDst_freeCtr : (s.writeDst w).freeCtr = s.freeCtr := rfl

end writeDst

section writeNbytes
variable (s : State) (w : Word)

@[simp] theorem State.writeNbytes_cs : (s.writeNbytes w).cs = s.cs := rfl
@[simp] theorem State.writeNbytes_csSet : (s.writeNbytes w).csSet = s.csSet := rfl
@[simp] theorem State.writeNbytes_src : (s.writeNbytes w).src = s.src := rfl
@[simp] theorem State.writeNbytes_srcSet : (s.writeNbytes w).srcSet = s.srcSet := rfl
@[simp] theorem State.writeNbytes_dst : (s.writeNbytes w).dst = s.dst := rfl
@[simp] theorem State.writeNbytes_dstSet : (s.writeNbytes w).dstSet = s.dstSet := rfl
@[simp] theorem State.writeNbytes_nbytes : (s.writeNbytes w).nbytes = w := rfl
@[simp] theorem State.writeNbytes_rounds : (s.writeNbytes w).rounds = s.rounds := rfl
@[simp] theorem State.writeNbytes_statusDone : (s.writeNbytes w).statusDone = s.statusDone := rfl
@[simp] theorem State.writeNbytes_work : (s.writeNbytes w).work = s.work := rfl
@[simp] theorem State.writeNbytes_upc : (s.writeNbytes w).upc = s.upc := rfl
@[simp] theorem State.writeNbytes_seq : (s.writeNbytes w).seq = s.seq := rfl
@[simp] theorem State.writeNbytes_mem : (s.writeNbytes w).mem = s.mem := rfl
@[simp] theorem State.writeNbytes_platform : (s.writeNbytes w).platform = s.platform := rfl
@[simp] theorem State.writeNbytes_inputs : (s.writeNbytes w).inputs = s.inputs := rfl
@[simp] theorem State.writeNbytes_replies : (s.writeNbytes w).replies = s.replies := rfl
@[simp] theorem State.writeNbytes_history : (s.writeNbytes w).history = s.history := rfl
@[simp] theorem State.writeNbytes_freeCtr : (s.writeNbytes w).freeCtr = s.freeCtr := rfl

end writeNbytes

section writeRounds
variable (s : State) (w : Word)

@[simp] theorem State.writeRounds_cs : (s.writeRounds w).cs = s.cs := rfl
@[simp] theorem State.writeRounds_csSet : (s.writeRounds w).csSet = s.csSet := rfl
@[simp] theorem State.writeRounds_src : (s.writeRounds w).src = s.src := rfl
@[simp] theorem State.writeRounds_srcSet : (s.writeRounds w).srcSet = s.srcSet := rfl
@[simp] theorem State.writeRounds_dst : (s.writeRounds w).dst = s.dst := rfl
@[simp] theorem State.writeRounds_dstSet : (s.writeRounds w).dstSet = s.dstSet := rfl
@[simp] theorem State.writeRounds_nbytes : (s.writeRounds w).nbytes = s.nbytes := rfl
@[simp] theorem State.writeRounds_rounds : (s.writeRounds w).rounds = w := rfl
@[simp] theorem State.writeRounds_statusDone : (s.writeRounds w).statusDone = s.statusDone := rfl
@[simp] theorem State.writeRounds_work : (s.writeRounds w).work = s.work := rfl
@[simp] theorem State.writeRounds_upc : (s.writeRounds w).upc = s.upc := rfl
@[simp] theorem State.writeRounds_seq : (s.writeRounds w).seq = s.seq := rfl
@[simp] theorem State.writeRounds_mem : (s.writeRounds w).mem = s.mem := rfl
@[simp] theorem State.writeRounds_platform : (s.writeRounds w).platform = s.platform := rfl
@[simp] theorem State.writeRounds_inputs : (s.writeRounds w).inputs = s.inputs := rfl
@[simp] theorem State.writeRounds_replies : (s.writeRounds w).replies = s.replies := rfl
@[simp] theorem State.writeRounds_history : (s.writeRounds w).history = s.history := rfl
@[simp] theorem State.writeRounds_freeCtr : (s.writeRounds w).freeCtr = s.freeCtr := rfl

end writeRounds

section reply
variable (s : State) (w : Word)

@[simp] theorem State.reply_cs : (s.reply w).cs = s.cs := rfl
@[simp] theorem State.reply_csSet : (s.reply w).csSet = s.csSet := rfl
@[simp] theorem State.reply_src : (s.reply w).src = s.src := rfl
@[simp] theorem State.reply_srcSet : (s.reply w).srcSet = s.srcSet := rfl
@[simp] theorem State.reply_dst : (s.reply w).dst = s.dst := rfl
@[simp] theorem State.reply_dstSet : (s.reply w).dstSet = s.dstSet := rfl
@[simp] theorem State.reply_nbytes : (s.reply w).nbytes = s.nbytes := rfl
@[simp] theorem State.reply_rounds : (s.reply w).rounds = s.rounds := rfl
@[simp] theorem State.reply_statusDone : (s.reply w).statusDone = s.statusDone := rfl
@[simp] theorem State.reply_work : (s.reply w).work = s.work := rfl
@[simp] theorem State.reply_upc : (s.reply w).upc = s.upc := rfl
@[simp] theorem State.reply_seq : (s.reply w).seq = s.seq := rfl
@[simp] theorem State.reply_mem : (s.reply w).mem = s.mem := rfl
@[simp] theorem State.reply_platform : (s.reply w).platform = s.platform := rfl
@[simp] theorem State.reply_inputs : (s.reply w).inputs = s.inputs := rfl
@[simp] theorem State.reply_replies : (s.reply w).replies = s.replies ++ [w] := rfl
@[simp] theorem State.reply_history : (s.reply w).history = s.history := rfl
@[simp] theorem State.reply_freeCtr : (s.reply w).freeCtr = s.freeCtr := rfl

end reply

section storeBytes
variable (s : State) (a : Nat) (bs : List Byte)

@[simp] theorem State.storeBytes_cs : (s.storeBytes a bs).cs = s.cs := rfl
@[simp] theorem State.storeBytes_csSet : (s.storeBytes a bs).csSet = s.csSet := rfl
@[simp] theorem State.storeBytes_src : (s.storeBytes a bs).src = s.src := rfl
@[simp] theorem State.storeBytes_srcSet : (s.storeBytes a bs).srcSet = s.srcSet := rfl
@[simp] theorem State.storeBytes_dst : (s.storeBytes a bs).dst = s.dst := rfl
@[simp] theorem State.storeBytes_dstSet : (s.storeBytes a bs).dstSet = s.dstSet := rfl
@[simp] theorem State.storeBytes_nbytes : (s.storeBytes a bs).nbytes = s.nbytes := rfl
@[simp] theorem State.storeBytes_rounds : (s.storeBytes a bs).rounds = s.rounds := rfl
@[simp] theorem State.storeBytes_statusDone : (s.storeBytes a bs).statusDone = s.statusDone := rfl
@[simp] theorem State.storeBytes_work : (s.storeBytes a bs).work = s.work := rfl
@[simp] theorem State.storeBytes_upc : (s.storeBytes a bs).upc = s.upc := rfl
@[simp] theorem State.storeBytes_seq : (s.storeBytes a bs).seq = s.seq := rfl
@[simp] theorem State.storeBytes_mem : (s.storeBytes a bs).mem = s.mem.store a bs := rfl
@[simp] theorem State.storeBytes_platform : (s.storeBytes a bs).platform = s.platform := rfl
@[simp] theorem State.storeBytes_inputs : (s.storeBytes a bs).inputs = s.inputs := rfl
@[simp] theorem State.storeBytes_replies : (s.storeBytes a bs).replies = s.replies := rfl
@[simp] theorem State.storeBytes_history : (s.storeBytes a bs).history = s.history := rfl
@[simp] theorem State.storeBytes_freeCtr : (s.storeBytes a bs).freeCtr = s.freeCtr := rfl

end storeBytes

section launched
variable (s : State)

@[simp] theorem State.launched_cs : s.launched.cs = s.cs := rfl
@[simp] theorem State.launched_csSet : s.launched.csSet = s.csSet := rfl
@[simp] theorem State.launched_src : s.launched.src = s.src := rfl
@[simp] theorem State.launched_srcSet : s.launched.srcSet = s.srcSet := rfl
@[simp] theorem State.launched_dst : s.launched.dst = s.dst := rfl
@[simp] theorem State.launched_dstSet : s.launched.dstSet = s.dstSet := rfl
@[simp] theorem State.launched_nbytes : s.launched.nbytes = s.nbytes := rfl
@[simp] theorem State.launched_rounds : s.launched.rounds = s.rounds := rfl
@[simp] theorem State.launched_statusDone : s.launched.statusDone = s.statusDone := rfl
@[simp] theorem State.launched_work : s.launched.work = s.work := rfl
@[simp] theorem State.launched_upc : s.launched.upc = some 0 := rfl
@[simp] theorem State.launched_seq : s.launched.seq = [encodeUw .latch] := rfl
@[simp] theorem State.launched_mem : s.launched.mem = s.mem := rfl
@[simp] theorem State.launched_platform : s.launched.platform = s.platform := rfl
@[simp] theorem State.launched_inputs : s.launched.inputs = s.inputs := rfl
@[simp] theorem State.launched_replies : s.launched.replies = s.replies := rfl
@[simp] theorem State.launched_history : s.launched.history = s.history := rfl
@[simp] theorem State.launched_freeCtr : s.launched.freeCtr = s.freeCtr := rfl

end launched

section resetEvent
variable (s : State)

@[simp] theorem State.resetEvent_cs : s.resetEvent.cs = Vector.replicate 16 0 := rfl
@[simp] theorem State.resetEvent_csSet : s.resetEvent.csSet = Vector.replicate 16 false := rfl
@[simp] theorem State.resetEvent_src : s.resetEvent.src = 0 := rfl
@[simp] theorem State.resetEvent_srcSet : s.resetEvent.srcSet = false := rfl
@[simp] theorem State.resetEvent_dst : s.resetEvent.dst = 0 := rfl
@[simp] theorem State.resetEvent_dstSet : s.resetEvent.dstSet = false := rfl
@[simp] theorem State.resetEvent_nbytes : s.resetEvent.nbytes = 0 := rfl
@[simp] theorem State.resetEvent_rounds : s.resetEvent.rounds = 0 := rfl
@[simp] theorem State.resetEvent_statusDone : s.resetEvent.statusDone = false := rfl
@[simp] theorem State.resetEvent_work : s.resetEvent.work = Working.reset := rfl
@[simp] theorem State.resetEvent_upc : s.resetEvent.upc = none := rfl
@[simp] theorem State.resetEvent_seq : s.resetEvent.seq = [] := rfl
@[simp] theorem State.resetEvent_mem : s.resetEvent.mem = s.mem := rfl
@[simp] theorem State.resetEvent_platform : s.resetEvent.platform = s.platform := rfl
@[simp] theorem State.resetEvent_inputs : s.resetEvent.inputs = s.inputs := rfl
@[simp] theorem State.resetEvent_replies : s.resetEvent.replies = s.replies := rfl
@[simp] theorem State.resetEvent_history : s.resetEvent.history = s.history := rfl
@[simp] theorem State.resetEvent_freeCtr : s.resetEvent.freeCtr = s.freeCtr := rfl

end resetEvent

section replyRegister
variable (s : State) (b : Bool) (w : Word)

@[simp] theorem State.replyRegister_cs : (s.replyRegister b w).cs = s.cs := by cases b <;> rfl
@[simp] theorem State.replyRegister_csSet : (s.replyRegister b w).csSet = s.csSet := by cases b <;> rfl
@[simp] theorem State.replyRegister_src : (s.replyRegister b w).src = s.src := by cases b <;> rfl
@[simp] theorem State.replyRegister_srcSet : (s.replyRegister b w).srcSet = s.srcSet := by cases b <;> rfl
@[simp] theorem State.replyRegister_dst : (s.replyRegister b w).dst = s.dst := by cases b <;> rfl
@[simp] theorem State.replyRegister_dstSet : (s.replyRegister b w).dstSet = s.dstSet := by cases b <;> rfl
@[simp] theorem State.replyRegister_nbytes : (s.replyRegister b w).nbytes = s.nbytes := by cases b <;> rfl
@[simp] theorem State.replyRegister_rounds : (s.replyRegister b w).rounds = s.rounds := by cases b <;> rfl
@[simp] theorem State.replyRegister_statusDone : (s.replyRegister b w).statusDone = s.statusDone := by cases b <;> rfl
@[simp] theorem State.replyRegister_work : (s.replyRegister b w).work = s.work := by cases b <;> rfl
@[simp] theorem State.replyRegister_upc : (s.replyRegister b w).upc = s.upc := by cases b <;> rfl
@[simp] theorem State.replyRegister_seq : (s.replyRegister b w).seq = s.seq := by cases b <;> rfl
@[simp] theorem State.replyRegister_mem : (s.replyRegister b w).mem = s.mem := by cases b <;> rfl
@[simp] theorem State.replyRegister_platform : (s.replyRegister b w).platform = s.platform := by cases b <;> rfl
@[simp] theorem State.replyRegister_inputs : (s.replyRegister b w).inputs = s.inputs := by cases b <;> rfl
@[simp] theorem State.replyRegister_history : (s.replyRegister b w).history = s.history := by cases b <;> rfl

@[simp] theorem State.replyRegister_written : s.replyRegister true w = s.reply w := rfl
@[simp] theorem State.replyRegister_unwritten :
    s.replyRegister false w =
      { s.reply (Config.freeWord s.freeCtr) with freeCtr := s.freeCtr + 1 } := rfl

end replyRegister

end Sys2Proof.Machine
end

