-- ==== Sys2Proof/Laws/Memory.lean ====
section
/-! SUPPORT. The laws of the data memory: a read after a write, the bytes a write leaves alone, and that every memory
operation keeps the canonical form. -/

namespace Sys2Proof.Machine

variable {m : Memory} {a b lo : Nat} {v : Byte}

theorem Memory.get_cons_self (rest : Memory) (h : Memory.get rest a = unlistedByte) :
    Memory.get (Memory.cons a v rest) a = v := by
  unfold Memory.cons
  split
  · next hv => rw [h, hv]
  · simp [Memory.get]

theorem Memory.get_cons_ne (rest : Memory) (h : a ≠ b) :
    Memory.get (Memory.cons a v rest) b = Memory.get rest b := by
  unfold Memory.cons
  split
  · rfl
  · simp [Memory.get, h]

/-- A list whose addresses all lie at or above a bound reads as unlisted below it. -/
theorem Memory.get_below (h : Memory.wfFrom lo m = true) (ha : a < lo) : Memory.get m a = unlistedByte := by
  induction m generalizing lo with
  | nil => rfl
  | cons c rest ih =>
    simp only [Memory.wfFrom, Bool.and_eq_true, decide_eq_true_eq] at h
    have hne : c.1 ≠ a := by omega
    simp only [Memory.get, hne, if_false]
    exact ih h.2 (by omega)

/-- A write changes no other byte, in any list. -/
theorem Memory.get_set_ne (m : Memory) (h : a ≠ b) : Memory.get (Memory.set m a v) b = Memory.get m b := by
  induction m with
  | nil => exact Memory.get_cons_ne [] h
  | cons c rest ih =>
    simp only [Memory.set]
    split
    · exact Memory.get_cons_ne _ h
    · split
      · next hc => rw [Memory.get_cons_ne _ h]; simp [Memory.get, show c.1 ≠ b by omega]
      · simp only [Memory.get, ih]

theorem Memory.get_set_self_from (h : Memory.wfFrom lo m = true) : Memory.get (Memory.set m a v) a = v := by
  induction m generalizing lo with
  | nil => exact Memory.get_cons_self [] rfl
  | cons c rest ih =>
    have hw := h
    simp only [Memory.wfFrom, Bool.and_eq_true, decide_eq_true_eq] at h
    simp only [Memory.set]
    split
    · next ha =>
      refine Memory.get_cons_self _ ?_
      simp only [Memory.get, show c.1 ≠ a by omega, if_false]
      exact Memory.get_below h.2 (by omega)
    · split
      · next hc => exact Memory.get_cons_self _ (Memory.get_below h.2 (by omega))
      · next hc => simp only [Memory.get, hc, if_false]; exact ih h.2

/-- A byte reads as it was written, in a memory of canonical form. -/
theorem Memory.get_set_self (h : Memory.wf m = true) : Memory.get (Memory.set m a v) a = v :=
  Memory.get_set_self_from h

theorem Memory.wfFrom_mono (h : Memory.wfFrom lo m = true) (hlo : b ≤ lo) : Memory.wfFrom b m = true := by
  cases m with
  | nil => rfl
  | cons c rest =>
    simp only [Memory.wfFrom, Bool.and_eq_true, decide_eq_true_eq] at h ⊢
    exact ⟨⟨by omega, h.1.2⟩, h.2⟩

theorem Memory.wfFrom_cons (hlo : lo ≤ a) (h : Memory.wfFrom (a + 1) m = true) :
    Memory.wfFrom lo (Memory.cons a v m) = true := by
  unfold Memory.cons
  split
  · exact Memory.wfFrom_mono h (by omega)
  · next hv => simp [Memory.wfFrom, hlo, hv, h]

theorem Memory.wfFrom_set (h : Memory.wfFrom lo m = true) (hlo : lo ≤ a) :
    Memory.wfFrom lo (Memory.set m a v) = true := by
  induction m generalizing lo with
  | nil => exact Memory.wfFrom_cons hlo rfl
  | cons c rest ih =>
    have hw := h
    simp only [Memory.wfFrom, Bool.and_eq_true, decide_eq_true_eq] at h
    simp only [Memory.set]
    split
    · next ha =>
      refine Memory.wfFrom_cons hlo ?_
      simp only [Memory.wfFrom, Bool.and_eq_true, decide_eq_true_eq]
      exact ⟨⟨by omega, h.1.2⟩, h.2⟩
    · split
      · next hc => exact Memory.wfFrom_cons hlo (by rw [← hc]; exact h.2)
      · next hc =>
        simp only [Memory.wfFrom, Bool.and_eq_true, decide_eq_true_eq]
        exact ⟨h.1, ih h.2 (by omega)⟩

/-- A write keeps the canonical form. -/
theorem Memory.set_wf (h : Memory.wf m = true) : Memory.wf (Memory.set m a v) = true :=
  Memory.wfFrom_set h (Nat.zero_le _)

/-- A write of a byte string keeps the canonical form. -/
theorem Memory.store_wf (bs : List Byte) (h : Memory.wf m = true) : Memory.wf (Memory.store m a bs) = true := by
  induction bs generalizing m a with
  | nil => exact h
  | cons b bs ih => exact ih (Memory.set_wf h)

/-- A write of a byte string changes no byte outside it, in any list. -/
theorem Memory.get_store_outside (m : Memory) (bs : List Byte) (h : b < a ∨ a + bs.length ≤ b) :
    Memory.get (Memory.store m a bs) b = Memory.get m b := by
  induction bs generalizing m a with
  | nil => rfl
  | cons c bs ih =>
    rw [List.length_cons] at h
    rw [Memory.store, ih _ (by omega), Memory.get_set_ne _ (by omega)]

/-- A byte string reads as it was written, in a memory of canonical form. -/
theorem Memory.get_store_inside (bs : List Byte) (hw : Memory.wf m = true) (j : Nat) (hj : j < bs.length) :
    Memory.get (Memory.store m a bs) (a + j) = bs[j] := by
  induction bs generalizing m a j with
  | nil => simp at hj
  | cons c bs ih =>
    rw [Memory.store]
    cases j with
    | zero =>
      rw [Memory.get_store_outside _ _ (by omega)]
      exact Memory.get_set_self hw
    | succ j =>
      rw [show a + (j + 1) = a + 1 + j by omega]
      exact ih (Memory.set_wf hw) j (by simpa using hj)

/-- The addresses of a written memory are those it had and the one written. -/
theorem Memory.mem_set {c : Host.Cell} (h : c ∈ Memory.set m a v) : c ∈ m ∨ c.1 = a := by
  have hcons : ∀ rest : Memory, c ∈ Memory.cons a v rest → c ∈ rest ∨ c.1 = a := by
    intro rest hc
    unfold Memory.cons at hc
    split at hc
    · exact .inl hc
    · rcases List.mem_cons.mp hc with rfl | hc
      · exact .inr rfl
      · exact .inl hc
  induction m with
  | nil => exact hcons [] h
  | cons d rest ih =>
    simp only [Memory.set] at h
    split at h
    · exact hcons _ h
    · split at h
      · rcases hcons _ h with h | h
        · exact .inl (List.mem_cons_of_mem _ h)
        · exact .inr h
      · rcases List.mem_cons.mp h with rfl | h
        · exact .inl List.mem_cons_self
        · rcases ih h with h | h
          · exact .inl (List.mem_cons_of_mem _ h)
          · exact .inr h

/-- The addresses of a memory after a byte string is written are those it had and those of the string. -/
theorem Memory.mem_store {c : Host.Cell} (bs : List Byte) (h : c ∈ Memory.store m a bs) :
    c ∈ m ∨ (a ≤ c.1 ∧ c.1 < a + bs.length) := by
  induction bs generalizing m a with
  | nil => exact .inl h
  | cons b bs ih =>
    rw [List.length_cons]
    rcases ih h with h | h
    · rcases Memory.mem_set h with h | h
      · exact .inl h
      · exact .inr (by omega)
    · exact .inr (by omega)

theorem Memory.get_eq_of_mem {c : Host.Cell} (h : Memory.wfFrom lo m = true) (hc : c ∈ m) :
    Memory.get m c.1 = c.2 ∧ c.2 ≠ unlistedByte := by
  induction m generalizing lo with
  | nil => simp at hc
  | cons d rest ih =>
    simp only [Memory.wfFrom, Bool.and_eq_true, decide_eq_true_eq] at h
    rcases List.mem_cons.mp hc with rfl | hc
    · exact ⟨by simp [Memory.get], h.1.2⟩
    · have hlt : d.1 < c.1 := by
        have hlow : ¬ c.1 < d.1 + 1 := fun hlt => by
          have := ih h.2 hc
          rw [Memory.get_below h.2 hlt] at this
          exact this.2 this.1.symm
        omega
      have := ih h.2 hc
      exact ⟨by simp only [Memory.get, show d.1 ≠ c.1 by omega, if_false]; exact this.1, this.2⟩

theorem Memory.ext_from {m₁ m₂ : Memory} {lo₁ lo₂ : Nat} (h₁ : Memory.wfFrom lo₁ m₁ = true)
    (h₂ : Memory.wfFrom lo₂ m₂ = true) (h : ∀ a, Memory.get m₁ a = Memory.get m₂ a) : m₁ = m₂ := by
  induction m₁ generalizing lo₁ lo₂ m₂ with
  | nil =>
    cases m₂ with
    | nil => rfl
    | cons c rest =>
      have := Memory.get_eq_of_mem h₂ List.mem_cons_self
      rw [← h] at this
      exact absurd this.1.symm this.2
  | cons c rest ih =>
    cases m₂ with
    | nil =>
      have := Memory.get_eq_of_mem h₁ List.mem_cons_self
      rw [h] at this
      exact absurd this.1.symm this.2
    | cons d rest₂ =>
      have w₁ := h₁
      have w₂ := h₂
      simp only [Memory.wfFrom, Bool.and_eq_true, decide_eq_true_eq] at h₁ h₂
      have hc := Memory.get_eq_of_mem w₁ List.mem_cons_self
      have hd := Memory.get_eq_of_mem w₂ List.mem_cons_self
      have key : ∀ x y : Host.Cell, ∀ t : Memory, Memory.wfFrom (y.1 + 1) t = true → x.1 < y.1 →
          Memory.get (y :: t) x.1 = unlistedByte := fun x y t ht hlt => by
        simp only [Memory.get, show y.1 ≠ x.1 by omega, if_false]
        exact Memory.get_below ht (by omega)
      have haddr : c.1 = d.1 := by
        rcases Nat.lt_trichotomy c.1 d.1 with hlt | heq | hgt
        · exact absurd (by rw [← hc.1, h]; exact key c d rest₂ h₂.2 hlt) hc.2
        · exact heq
        · exact absurd (by rw [← hd.1, ← h]; exact key d c rest h₁.2 hgt) hd.2
      have hcd : c = d := Prod.ext haddr (by rw [← hc.1, ← hd.1, h, haddr])
      subst hcd
      refine congrArg _ (ih h₁.2 h₂.2 fun a => ?_)
      by_cases ha : c.1 = a
      · subst ha
        rw [Memory.get_below h₁.2 (by omega), Memory.get_below h₂.2 (by omega)]
      · have := h a
        simpa only [Memory.get, ha, if_false] using this

/-- Two memories of canonical form with the same bytes are the same memory. -/
theorem Memory.ext {m₁ m₂ : Memory} (h₁ : Memory.wf m₁ = true) (h₂ : Memory.wf m₂ = true)
    (h : ∀ a, Memory.get m₁ a = Memory.get m₂ a) : m₁ = m₂ := Memory.ext_from h₁ h₂ h

/-- Byte j of a chunk that is read. -/
@[simp] theorem Memory.load_getElem (m : Memory) (a j : Nat) (hj : j < 32) :
    (Memory.load m a)[j] = Memory.get m (a + j) := by
  simp [Memory.load]

/-- A chunk reads as it was written, byte for byte. -/
theorem Memory.get_store_chunk (x : Chunk) (hw : Memory.wf m = true) (j : Nat) (hj : j < 32) :
    Memory.get (Memory.store m a x.toList) (a + j) = x[j] := by
  rw [Memory.get_store_inside x.toList hw j (by simpa using hj)]
  simp

/-- A written chunk changes no byte outside its 32. -/
theorem Memory.get_store_chunk_outside (m : Memory) (x : Chunk) (h : b < a ∨ a + 32 ≤ b) :
    Memory.get (Memory.store m a x.toList) b = Memory.get m b :=
  Memory.get_store_outside m x.toList (by simpa using h)

end Sys2Proof.Machine
end

