-- ==== Sys2Proof/Laws/Ops.lean ====
section
/-! SUPPORT. For each shared operation, once, everything it can do: cited instead of unfolding it. -/

namespace Sys2Proof.Machine

variable {s t : State} {k : Result}

/-- A micro-operation whose elements are all live goes on. -/
theorem reading_of_live {es : List WorkElem} (h : ∀ e ∈ es, s.isLive e = true) : reading s es k = k := by
  have : es.find? (fun e => !s.isLive e) = none := by
    rw [List.find?_eq_none]
    intro e he
    simp [h e he]
  simp [reading, this]

/-- A micro-operation that answers a next state found its elements live. -/
theorem reading_next {es : List WorkElem} (h : reading s es k = .next t) :
    (∀ e ∈ es, s.isLive e = true) ∧ k = .next t := by
  unfold reading at h
  split at h
  · cases h
  · next hn =>
    rw [List.find?_eq_none] at hn
    exact ⟨fun e he => by simpa using hn e he, h⟩

/-- A micro-operation that reads a dead element faults by the first dead one. -/
theorem reading_of_dead {es : List WorkElem} {e : WorkElem} (h : es.find? (fun e => !s.isLive e) = some e) :
    reading s es k = .fault (.deadRead e) := by simp [reading, h]

/-- The host held: no host operation. Not held: the operation itself. -/
theorem whenIdle_of_idle (h : s.upc = none) : whenIdle s k = k := by simp [whenIdle, State.hostHeld, h]

theorem whenIdle_next (h : whenIdle s k = .next t) : s.upc = none ∧ k = .next t := by
  unfold whenIdle State.hostHeld at h
  split at h
  · cases h
  · next hn => exact ⟨by simpa using hn, h⟩

/-- What an access check that passes says. -/
theorem accessFault_eq_none {p : Platform} {write : Bool} {a len : Nat} :
    p.accessFault write a len = none ↔ ∀ j, j < len → p.byteFault write (a + j) = none := by
  induction len generalizing a with
  | zero => simp [Platform.accessFault]
  | succ len ih =>
    rw [Platform.accessFault]
    constructor
    · intro h j hj
      split at h
      · cases h
      · next hb =>
        cases j with
        | zero => exact hb
        | succ j =>
          rw [show a + (j + 1) = a + 1 + j by omega]
          exact ih.mp h j (by omega)
    · intro h
      rw [show p.byteFault write a = none from h 0 (by omega)]
      exact ih.mpr fun j hj => by
        rw [show a + 1 + j = a + (j + 1) by omega]
        exact h (j + 1) (by omega)

theorem byteFault_eq_none {p : Platform} {write : Bool} {a : Nat} :
    p.byteFault write a = none ↔ a < 2 ^ p.aw ∧ p.ordinary write a = true := by
  unfold Platform.byteFault
  split
  · simp; omega
  · split <;> simp_all

/-- Every byte of a region is ordinary, byte by byte. -/
theorem ordinaryRegion_iff {p : Platform} {write : Bool} {a len : Nat} :
    p.ordinaryRegion write a len = true ↔ ∀ j, j < len → p.ordinary write (a + j) = true := by
  induction len generalizing a with
  | zero => simp [Platform.ordinaryRegion]
  | succ len ih =>
    rw [Platform.ordinaryRegion, Bool.and_eq_true, ih]
    constructor
    · rintro ⟨h0, h⟩ j hj
      cases j with
      | zero => exact h0
      | succ j =>
        rw [show a + (j + 1) = a + 1 + j by omega]
        exact h j (by omega)
    · intro h
      refine ⟨h 0 (by omega), fun j hj => ?_⟩
      rw [show a + 1 + j = a + (j + 1) by omega]
      exact h (j + 1) (by omega)

/-- An access inside an ordinary region that does not pass the top of the space is allowed. -/
theorem accessFault_of_region {p : Platform} {write : Bool} {base n a len : Nat}
    (hr : p.ordinaryRegion write base n = true) (htop : base + n ≤ 2 ^ p.aw) (hlo : base ≤ a)
    (hhi : a + len ≤ base + n) : p.accessFault write a len = none := by
  rw [accessFault_eq_none]
  intro j hj
  rw [byteFault_eq_none]
  refine ⟨by omega, ?_⟩
  have := ordinaryRegion_iff.mp hr (a + j - base) (by omega)
  rwa [show base + (a + j - base) = a + j by omega] at this

section accesses
variable {a : Nat} {v : Chunk}

/-- A read that is allowed goes on with the bytes there. -/
theorem memRead_ok {f : Chunk → State → Result} (h : s.platform.accessFault false a 32 = none) :
    memRead s a f = f (s.mem.load a) (s.log (.read a)) := by simp [memRead, h]

/-- A read that goes on was allowed. -/
theorem memRead_next {f : Chunk → State → Result} (h : memRead s a f = .next t) :
    s.platform.accessFault false a 32 = none ∧ f (s.mem.load a) (s.log (.read a)) = .next t := by
  unfold memRead at h
  split at h
  · cases h
  · next hn => exact ⟨hn, h⟩

/-- A write that is allowed goes on with the bytes written. -/
theorem memWrite_ok {f : State → Result} (h : s.platform.accessFault true a 32 = none) :
    memWrite s a v f = f ({ s with mem := s.mem.store a v.toList }.log (.write a)) := by simp [memWrite, h]

/-- A write that goes on was allowed. -/
theorem memWrite_next {f : State → Result} (h : memWrite s a v f = .next t) :
    s.platform.accessFault true a 32 = none
      ∧ f ({ s with mem := s.mem.store a v.toList }.log (.write a)) = .next t := by
  unfold memWrite at h
  split at h
  · cases h
  · next hn => exact ⟨hn, h⟩

end accesses

/-- What a caller's store that is allowed says of its bytes. -/
theorem callerStoreFault_eq_none {p : Platform} {a len : Nat} :
    p.callerStoreFault a len = none ↔ ∀ j, j < len → p.callerFault (a + j) = none := by
  induction len generalizing a with
  | zero => simp [Platform.callerStoreFault]
  | succ len ih =>
    rw [Platform.callerStoreFault]
    constructor
    · intro h j hj
      split at h
      · cases h
      · next hb =>
        cases j with
        | zero => exact hb
        | succ j =>
          rw [show a + (j + 1) = a + 1 + j by omega]
          exact ih.mp h j (by omega)
    · intro h
      rw [show p.callerFault a = none from h 0 (by omega)]
      exact ih.mpr fun j hj => by
        rw [show a + 1 + j = a + (j + 1) by omega]
        exact h (j + 1) (by omega)

/-- A byte the caller may store at lies in the data space. -/
theorem lt_of_callerFault {p : Platform} {a : Nat} (h : p.callerFault a = none) : a < 2 ^ p.aw := by
  unfold Platform.callerFault at h
  split at h
  · cases h
  · omega

/-- Where the engine may access a byte, the caller may store one. -/
theorem callerFault_of_byteFault {p : Platform} {write : Bool} {a : Nat} (h : p.byteFault write a = none) :
    p.callerFault a = none := by
  obtain ⟨hlt, ho⟩ := byteFault_eq_none.mp h
  unfold Platform.ordinary at ho
  rw [Platform.callerFault, if_neg (by omega)]
  split at ho
  · next r hr =>
    rw [Bool.and_eq_true, decide_eq_true_eq] at ho
    exact if_pos ho.1
  · cases ho

/-- A caller's store that goes on was allowed, and changed the memory alone. -/
theorem callerStore_next {a : Nat} {bs : List Byte} (h : callerStore a bs s = .next t) :
    s.platform.callerStoreFault a bs.length = none ∧ t = s.storeBytes a bs := by
  unfold callerStore at h
  split at h
  · cases h
  · next hn => exact ⟨hn, by cases h; rfl⟩

theorem callerStore_ok {a : Nat} {bs : List Byte} (h : s.platform.callerStoreFault a bs.length = none) :
    callerStore a bs s = .next (s.storeBytes a bs) := by simp [callerStore, h]

/-- Going on from a next state. -/
@[simp] theorem andThen_next (f : State → Result) : andThen (.next s) f = f s := rfl

theorem andThen_eq_next {r : Result} {f : State → Result} (h : andThen r f = .next t) :
    ∃ u, r = .next u ∧ f u = .next t := by
  cases r with
  | next u => exact ⟨u, rfl, h⟩
  | fault _ => cases h
  | refused _ => cases h

/-- A lane operation in the slot of a QR. -/
theorem inSlot_of_slot {q : BitVec 3} {f : BitVec 3 → Lanes → Lanes} (hq : s.work.slot = some q)
    (hl : s.work.live.lanes = true) : inSlot s f = .next (s.setLanes (f q s.work.v)) := by
  simp only [inSlot, hq]
  exact reading_of_live (by simpa [State.isLive] using hl)

theorem inSlot_next {f : BitVec 3 → Lanes → Lanes} (h : inSlot s f = .next t) :
    ∃ q, s.work.slot = some q ∧ s.work.live.lanes = true ∧ t = s.setLanes (f q s.work.v) := by
  unfold inSlot at h
  split at h
  · next q hq =>
    obtain ⟨hl, ht⟩ := reading_next h
    exact ⟨q, hq, by simpa [State.isLive] using hl .lanes (by simp), by cases ht; rfl⟩
  · cases h

/-- Bytes of the keystream slices. -/
@[simp] theorem keystreamChunk_getElem (ks : Vector Byte 256) (k : BitVec 3) (j : Nat) (hj : j < 32) :
    (keystreamChunk ks k)[j] = ks[32 * k.toNat + j]'(by have := k.isLt; omega) := by
  simp [keystreamChunk]

@[simp] theorem chunkXor_getElem (a b : Chunk) (j : Nat) (hj : j < 32) : (chunkXor a b)[j] = a[j] ^^^ b[j] := by
  simp [chunkXor]

end Sys2Proof.Machine
end

