-- ==== Sys2Proof/Laws/Step.lean ====
section
/-! SUPPORT. What a step is, case by case, and how the run of a command takes its micro-operations. -/

namespace Sys2Proof.Machine

variable {s t : State}

/-- A micro-operation performed by the sequencer is the instruction's meaning. -/
theorem execUop_eq_exec {i : Instr} (h : i.isUop = true) (s : State) : execUop i s = exec i s := by
  cases i <;> first | rfl | (simp [Instr.isUop] at h)

theorem decodeUw_isUop {w : BitVec 16} {i : Instr} (h : decodeUw w = .ok i) : i.isUop = true := by
  unfold decodeUw at h
  split at h
  · next r hr =>
    have hm := List.mem_of_find?_eq_some hr
    simp only at h
    split at h
    · cases h
      simp only [uwTable, uwTableControlAndRound, uwTableOutput, List.cons_append, List.nil_append,
        List.mem_cons, List.not_mem_nil, or_false] at hm
      rcases hm with rfl | rfl | rfl | rfl | rfl | rfl | rfl | rfl | rfl | rfl | rfl | rfl | rfl | rfl
        | rfl | rfl | rfl | rfl | rfl | rfl | rfl <;> rfl
    · cases h
  · cases h

/-- While a command runs a step is one micro-operation. -/
theorem step_running (h : s.upc ≠ none) : step s = uopStep s := by
  have hh : s.hostHeld = true := by
    cases hu : s.upc with
    | none => exact absurd hu h
    | some u => simp [State.hostHeld, hu]
  unfold step fetch
  rw [hh]
  simp only [if_true, fetchUop, uopStep]
  cases hi : issueUop s with
  | error f => rfl
  | ok p =>
    obtain ⟨i, s1⟩ := p
    refine (execUop_eq_exec ?_ s1).symm
    unfold issueUop at hi
    split at hi
    · cases hi
    · next w rest hs =>
      split at hi
      · next j hj => cases hi; exact decodeUw_isUop hj
      · cases hi

/-- What a step that answers a next state did. -/
theorem step_cases (h : step s = .next t) :
    (s.upc ≠ none ∧ uopStep s = .next t)
    ∨ (s.upc = none ∧ s.inputs = [] ∧ t = s)
    ∨ (s.upc = none ∧ ∃ rest, s.inputs = .reset :: rest ∧ t = { s with inputs := rest }.resetEvent)
    ∨ (s.upc = none ∧ ∃ a bs rest, s.inputs = .callerStore a bs :: rest
        ∧ s.platform.callerStoreFault a bs.length = none ∧ t = { s with inputs := rest }.storeBytes a bs)
    ∨ (s.upc = none ∧ ∃ w rest i, s.inputs = .transaction w :: rest ∧ decodeHt w = .ok i
        ∧ exec i { s with inputs := rest } = .next t)
    ∨ (s.upc = none ∧ ∃ w rest i, s.inputs = .command w :: rest ∧ decodeCw w = .ok i
        ∧ exec i { s with inputs := rest } = .next t) := by
  by_cases hu : s.upc = none
  · have hh : s.hostHeld = false := by simp [State.hostHeld, hu]
    unfold step fetch at h
    rw [hh] at h
    simp only [Bool.false_eq_true, if_false] at h
    cases hi : s.inputs with
    | nil => rw [hi] at h; cases h; exact .inr (.inl ⟨hu, rfl, rfl⟩)
    | cons x rest =>
      rw [hi] at h
      cases x with
      | reset => cases h; exact .inr (.inr (.inl ⟨hu, rest, rfl, rfl⟩))
      | callerStore a bs =>
        obtain ⟨hf, ht⟩ := callerStore_next h
        exact .inr (.inr (.inr (.inl ⟨hu, a, bs, rest, rfl, hf, ht⟩)))
      | transaction w =>
        simp only [fetchTransaction] at h
        cases hd : decodeHt w with
        | error e => rw [hd] at h; cases h
        | ok i => rw [hd] at h; exact .inr (.inr (.inr (.inr (.inl ⟨hu, w, rest, i, rfl, hd, h⟩))))
      | command w =>
        simp only [fetchCommand] at h
        cases hd : decodeCw w with
        | error e => rw [hd] at h; cases h
        | ok i => rw [hd] at h; exact .inr (.inr (.inr (.inr (.inr ⟨hu, w, rest, i, rfl, hd, h⟩))))
  · exact .inl ⟨hu, by rw [← step_running hu]; exact h⟩

/-- What the sequencer issues when it issues something. -/
theorem issueUop_ok {i : Instr} {s1 : State} (h : issueUop s = .ok (i, s1)) :
    ∃ w rest, s.seq = w :: rest ∧ decodeUw w = .ok i ∧ s1 = { s with seq := rest }.log (.issue w) := by
  unfold issueUop at h
  split at h
  · cases h
  · next w rest hs =>
    split at h
    · next j hj => cases h; exact ⟨w, rest, hs, hj, rfl⟩
    · cases h

/-- The run of a command that is over. -/
theorem runUops_idle (fuel : Nat) (h : s.upc = none) : runUops (fuel + 1) s = .next s := by
  simp [runUops, State.hostHeld, h]

/-- The run of a command takes the micro-operation that stands next. -/
theorem runUops_issue {fuel : Nat} {w : BitVec 16} {rest : List (BitVec 16)} {i : Instr} {s1 : State}
    (hu : s.upc ≠ none) (hs : s.seq = w :: rest) (hd : decodeUw w = .ok i)
    (he : execUop i ({ s with seq := rest }.log (.issue w)) = .next s1) :
    runUops (fuel + 1) s = runUops fuel s1 := by
  have hh : s.hostHeld = true := by
    cases hu' : s.upc with
    | none => exact absurd hu' hu
    | some u => simp [State.hostHeld, hu']
  simp [runUops, hh, uopStep, issueUop, hs, hd, he]

/-- A run that reaches its end: either it was over, or one micro-operation leads to a shorter run that does. -/
theorem runUops_next {fuel : Nat} (h : runUops (fuel + 1) s = .next t) :
    (s.upc = none ∧ t = s) ∨ (s.upc ≠ none ∧ ∃ u, uopStep s = .next u ∧ runUops fuel u = .next t) := by
  unfold runUops State.hostHeld at h
  split at h
  · next hh =>
    refine .inr ⟨fun hn => by simp [hn] at hh, ?_⟩
    split at h
    · next u hu => exact ⟨u, hu, h⟩
    · cases h
    · cases h
  · next hh => cases h; exact .inl ⟨by simpa using hh, rfl⟩

end Sys2Proof.Machine
end

