-- ==== Sys2Proof/Laws/Launch.lean ====
section
/-! SUPPORT. What the run of a launched command is, said once (`launch_spec`): the state it ends in as an explicit function
of the operands, the Cipher State and the memory, with the event history it leaves. Callers cite it instead of running the
sequencer. -/

namespace Sys2Proof.Machine

/-- A state in mid command: what of it differs from the state at the launch. -/
def mid (s : State) (u : Nat) (q : List (BitVec 16)) (w : Working) (m : Memory) (h : List Event) : State :=
  { s with statusDone := false, upc := some u, seq := q, work := w, mem := m, history := h }

variable {s : State} {u fuel : Nat} {q : List (BitVec 16)} {w : Working} {m : Memory} {h : List Event}

/-- The sequencer reads back the word of a well-formed micro-operation. -/
theorem decodeUw_encodeUw (i : Instr) (hu : i.isUop = true) (hw : i.wellFormed = true) :
    decodeUw (encodeUw i) = .ok i := by
  cases i with
  | wr _ _ => cases hu
  | rd _ => cases hu
  | xform4 => cases hu
  | add32 rd rs => revert rd rs; decide +kernel
  | xor32 rd rs => revert rd rs; decide +kernel
  | rotl32 rd c => revert rd c; decide +kernel
  | qr q => revert q; decide +kernel
  | dblrnd dr => revert dr; decide +kernel
  | xstep k => revert k; decide +kernel
  | xfull k => revert k; decide +kernel
  | xexact k => revert k; decide +kernel
  | bshift r => revert r; decide +kernel
  | xpart k => revert k; decide +kernel
  | xprev k => revert k; decide +kernel
  | _ => decide +kernel

/-- One micro-operation of a command in mid run. -/
theorem run_mid {i : Instr} {t : State} (hu : i.isUop = true) (hw : i.wellFormed = true)
    (he : execUop i (mid s u q w m (h ++ [.issue (encodeUw i)])) = .next t) :
    runUops (fuel + 1) (mid s u (encodeUw i :: q) w m h) = runUops fuel t :=
  runUops_issue (by simp [mid]) rfl (decodeUw_encodeUw i hu hw) he

/-! ### The block pipeline -/

/-- So many double rounds on the lanes. -/
def laneRounds : Nat → Lanes → Lanes
  | 0, v => v
  | n + 1, v => laneRounds n (doubleRound v)

/-- The lanes of a command after interleaving. -/
def commandLanes (cs : Block) : Lanes := interleave (deriveStates cs)

/-- The finished lanes of a command. -/
def finishedLanes (cs : Block) (nr : Nat) : Lanes :=
  addOriginal (laneRounds (doubleRounds nr) (commandLanes cs)) (commandLanes cs)

/-- The keystream buffer of a command as its micro-operations make it. -/
def commandKeystream (cs : Block) (nr : Nat) : Vector Byte 256 :=
  serialise (deinterleave (finishedLanes cs nr))

theorem run_latch :
    runUops (fuel + 1) s.launched =
      runUops fuel (mid s 1 ((preamble (roundsField s.rounds).toNat).map encodeUw)
        { s.work with
          s := addrField s.platform.aw s.src, d := addrField s.platform.aw s.dst
          n := nbytesField s.nbytes, nr := roundsField s.rounds
          live := { s.work.live with latched := true } }
        s.mem (s.history ++ [.issue (encodeUw .latch)])) :=
  runUops_issue (s := s.launched) (by simp) rfl (decodeUw_encodeUw .latch rfl rfl) rfl

theorem run_derive :
    runUops (fuel + 1) (mid s u (encodeUw .derive :: q) w m h) =
      runUops fuel (mid s (u + 1) q
        { w with m := deriveStates s.cs, live := { w.live with matrices := true } }
        m (h ++ [.issue (encodeUw .derive)])) :=
  run_mid rfl rfl rfl

theorem run_ilv (hm : w.live.matrices = true) :
    runUops (fuel + 1) (mid s u (encodeUw .ilv :: q) w m h) =
      runUops fuel (mid s (u + 1) q
        { w with
          v := interleave w.m, v0 := interleave w.m
          live := { w.live with lanes := true, original := true } }
        m (h ++ [.issue (encodeUw .ilv)])) := by
  refine run_mid rfl rfl ?_
  simp only [execUop, execIlv]
  rw [reading_of_live (by simp [State.isLive, mid, hm])]
  rfl

theorem run_dblrnd {dr : BitVec 7} (hdr : dr.toNat ≤ 126) (hl : w.live.lanes = true) :
    runUops (fuel + 1) (mid s u (encodeUw (.dblrnd dr) :: q) w m h) =
      runUops fuel (mid s (u + 1) q { w with v := doubleRound w.v } m (h ++ [.issue (encodeUw (.dblrnd dr))])) := by
  refine run_mid rfl (by simpa [Instr.wellFormed] using hdr) ?_
  simp only [execUop, execDblrnd, show ¬ 126 < dr.toNat by omega, if_false]
  rw [reading_of_live (by simp [State.isLive, mid, hl])]
  rfl

/-- All double rounds of a list of indices. -/
theorem run_dblrnds (drs : List (BitVec 7)) (hdr : ∀ dr ∈ drs, dr.toNat ≤ 126) (hl : w.live.lanes = true) :
    runUops (drs.length + fuel) (mid s u (drs.map (fun dr => encodeUw (.dblrnd dr)) ++ q) w m h) =
      runUops fuel (mid s (u + drs.length) q { w with v := laneRounds drs.length w.v } m
        (h ++ drs.map fun dr => .issue (encodeUw (.dblrnd dr)))) := by
  induction drs generalizing u w h with
  | nil => simp [laneRounds]
  | cons dr drs ih =>
    have h1 : dr.toNat ≤ 126 := hdr dr List.mem_cons_self
    rw [List.length_cons, show drs.length + 1 + fuel = drs.length + fuel + 1 by omega, List.map_cons,
      List.cons_append, run_dblrnd h1 hl,
      ih (w := { w with v := doubleRound w.v }) (fun d hd => hdr d (List.mem_cons_of_mem _ hd)) hl]
    simp [laneRounds, Nat.add_assoc, Nat.add_comm 1]

theorem run_addorig (hl : w.live.lanes = true) (ho : w.live.original = true) :
    runUops (fuel + 1) (mid s u (encodeUw .addorig :: q) w m h) =
      runUops fuel (mid s (u + 1) q { w with v := addOriginal w.v w.v0 } m
        (h ++ [.issue (encodeUw .addorig)])) := by
  refine run_mid rfl rfl ?_
  simp only [execUop, execAddorig]
  rw [reading_of_live (by simp [State.isLive, mid, hl, ho])]
  rfl

theorem run_dlv (hl : w.live.lanes = true) :
    runUops (fuel + 1) (mid s u (encodeUw .dlv :: q) w m h) =
      runUops fuel (mid s (u + 1) q
        { w with m := deinterleave w.v, live := { w.live with matrices := true } }
        m (h ++ [.issue (encodeUw .dlv)])) := by
  refine run_mid rfl rfl ?_
  simp only [execUop, execDlv]
  rw [reading_of_live (by simp [State.isLive, mid, hl])]
  rfl

theorem run_ser (hm : w.live.matrices = true) :
    runUops (fuel + 1) (mid s u (encodeUw .ser :: q) w m h) =
      runUops fuel (mid s (u + 1) q
        { w with ks := serialise w.m, live := { w.live with keystream := true } }
        m (h ++ [.issue (encodeUw .ser)])) := by
  refine run_mid rfl rfl ?_
  simp only [execUop, execSer]
  rw [reading_of_live (by simp [State.isLive, mid, hm])]
  rfl

theorem run_walk (hl : w.live.latched = true) :
    runUops (fuel + 1) (mid s u (encodeUw .walk :: q) w m h) =
      runUops fuel (mid s (u + 1) q
        { w with
          rem := remLoad w.n, k := 0
          live := { w.live with remaining := true, subchunk := true } }
        m (h ++ [.issue (encodeUw .walk)])) := by
  refine run_mid rfl rfl ?_
  simp only [execUop, execWalk]
  rw [reading_of_live (by simp [State.isLive, mid, hl])]
  rfl

theorem run_xstep {k : BitVec 3} (hr : w.live.remaining = true) :
    runUops (fuel + 1) (mid s u (encodeUw (.xstep k) :: q) w m h) =
      runUops fuel (mid s (u + 1)
        (q ++ (continuation k (flagZ (remStep w.rem)) (flagN (remStep w.rem)) (remStep w.rem)).map encodeUw)
        { w with
          rem := remStep w.rem, z := flagZ (remStep w.rem), neg := flagN (remStep w.rem)
          live := { w.live with flags := true } }
        m (h ++ [.issue (encodeUw (.xstep k))])) := by
  refine run_mid rfl rfl ?_
  simp only [execUop, execXstep]
  rw [reading_of_live (by simp [State.isLive, mid, hr])]
  rfl

/-! ### The output -/

/-- The XORed sub-chunk k, read from a memory. -/
def outChunk (m : Memory) (src : Word) (ks : Vector Byte 256) (k : BitVec 3) : Chunk :=
  chunkXor (m.load (subchunkAddr src k)) (keystreamChunk ks k)

theorem run_xfull_zero (hl : w.live.latched = true) (hk : w.live.keystream = true) (hs : w.live.subchunk = true)
    (ha : s.platform.accessFault false (subchunkAddr w.s 0) 32 = none) :
    runUops (fuel + 1) (mid s u (encodeUw (.xfull 0) :: q) w m h) =
      runUops fuel (mid s (u + 1) q
        { w with
          pend := outChunk m w.s w.ks 0, k := w.k + 1
          live := { w.live with pending := true } }
        m (h ++ [.issue (encodeUw (.xfull 0)), .read (subchunkAddr w.s 0)])) := by
  refine run_mid rfl rfl ?_
  simp only [execUop, execXfull]
  rw [if_neg (by simp), reading_of_live (by simp [State.isLive, mid, hl, hk, hs])]
  refine Eq.trans (memRead_ok ?_) ?_
  · exact ha
  simp only [mid, State.log, State.holdBack, State.advance, outChunk, List.append_assoc, List.cons_append, List.nil_append]
  rfl

theorem run_xfull {k : BitVec 3} (h6 : k.toNat ≤ 6) (h0 : k ≠ 0#3) (hl : w.live.latched = true)
    (hk : w.live.keystream = true) (hs : w.live.subchunk = true) (hp : w.live.pending = true)
    (ha : s.platform.accessFault false (subchunkAddr w.s k) 32 = none)
    (hb : s.platform.accessFault true (subchunkAddr w.d (k - 1)) 32 = none) :
    runUops (fuel + 1) (mid s u (encodeUw (.xfull k) :: q) w m h) =
      runUops fuel (mid s (u + 1) q
        { w with
          pend := outChunk m w.s w.ks k, k := w.k + 1
          live := { w.live with pending := true } }
        (m.store (subchunkAddr w.d (k - 1)) w.pend.toList)
        (h ++ [.issue (encodeUw (.xfull k)), .read (subchunkAddr w.s k), .write (subchunkAddr w.d (k - 1))])) := by
  refine run_mid rfl (by simpa [Instr.wellFormed] using h6) ?_
  simp only [execUop, execXfull]
  rw [if_neg (by omega), reading_of_live (by simp [State.isLive, mid, hl, hk, hs])]
  refine Eq.trans (memRead_ok ?_) ?_
  · exact ha
  simp only [h0, if_false]
  rw [reading_of_live (by simp [State.isLive, mid, State.log, hp])]
  refine Eq.trans (memWrite_ok ?_) ?_
  · exact hb
  simp [mid, State.log, State.holdBack, State.advance, outChunk]

theorem run_xexact {kx : BitVec 3} (h2 : 2 ≤ kx.toNat) (hl : w.live.latched = true) (hk : w.live.keystream = true)
    (hp : w.live.pending = true) (ha : s.platform.accessFault false (subchunkAddr w.s kx) 32 = none)
    (hb : s.platform.accessFault true (subchunkAddr w.d (kx - 1)) 32 = none)
    (hc : s.platform.accessFault true (subchunkAddr w.d kx) 32 = none) :
    runUops (fuel + 1) (mid s u (encodeUw (.xexact kx) :: q) w m h) =
      runUops fuel (mid s (u + 1) q w
        ((m.store (subchunkAddr w.d (kx - 1)) w.pend.toList).store (subchunkAddr w.d kx)
          (outChunk m w.s w.ks kx).toList)
        (h ++ [.issue (encodeUw (.xexact kx)), .read (subchunkAddr w.s kx), .write (subchunkAddr w.d (kx - 1)),
          .write (subchunkAddr w.d kx)])) := by
  refine run_mid rfl (by simpa [Instr.wellFormed, exitIndexOk] using h2) ?_
  simp only [execUop, execXexact, exitIndexOk, h2, decide_true, if_true]
  rw [reading_of_live (by simp [State.isLive, mid, hl, hk, hp])]
  refine Eq.trans (memRead_ok ?_) (Eq.trans (memWrite_ok ?_) (Eq.trans (memWrite_ok ?_) ?_))
  · exact ha
  · exact hb
  · exact hc
  simp [mid, State.log, State.advance, outChunk]

theorem run_bshift {r : BitVec 5} (hr : r ≠ 0#5) (hk : w.live.keystream = true) (hs : w.live.subchunk = true)
    (h0 : w.k ≠ 0#3) :
    runUops (fuel + 1) (mid s u (encodeUw (.bshift r) :: q) w m h) =
      runUops fuel (mid s (u + 1) q
        { w with t := windowKeystream w.ks w.k r, live := { w.live with shifted := true } }
        m (h ++ [.issue (encodeUw (.bshift r))])) := by
  refine run_mid rfl (by simpa [Instr.wellFormed] using hr) ?_
  simp only [execUop, execBshift, hr, if_false]
  rw [reading_of_live (by simp [State.isLive, mid, hk, hs]), if_neg (show ¬ (mid s u q w m _).work.k = 0#3 from h0)]
  rfl

/-- The XORed window of a partial exit. -/
def outWindow (m : Memory) (a : Nat) (t : Chunk) : Chunk := chunkXor (m.load a) t

theorem run_xpart {kx : BitVec 3} (h2 : 2 ≤ kx.toNat) (hn : 32 ≤ w.n.toNat) (hl : w.live.latched = true)
    (ht : w.live.shifted = true)
    (ha : s.platform.accessFault false (w.s.toNat + (w.n.toNat - 32)) 32 = none)
    (hb : s.platform.accessFault true (w.d.toNat + (w.n.toNat - 32)) 32 = none) :
    runUops (fuel + 1) (mid s u (encodeUw (.xpart kx) :: q) w m h) =
      runUops fuel (mid s (u + 1) q w
        (m.store (w.d.toNat + (w.n.toNat - 32)) (outWindow m (w.s.toNat + (w.n.toNat - 32)) w.t).toList)
        (h ++ [.issue (encodeUw (.xpart kx)), .read (w.s.toNat + (w.n.toNat - 32)),
          .write (w.d.toNat + (w.n.toNat - 32))])) := by
  refine run_mid rfl (by simpa [Instr.wellFormed, exitIndexOk] using h2) ?_
  have e1 : windowStart w.s w.n = some (w.s.toNat + (w.n.toNat - 32)) := by
    rw [windowStart, if_neg (by omega)]; congr 1; omega
  have e2 : windowStart w.d w.n = some (w.d.toNat + (w.n.toNat - 32)) := by
    rw [windowStart, if_neg (by omega)]; congr 1; omega
  simp only [execUop, execXpart, exitIndexOk, h2, decide_true, if_true, mid, e1, e2]
  rw [reading_of_live (by simp [State.isLive, hl, ht])]
  refine Eq.trans (memRead_ok ?_) (Eq.trans (memWrite_ok ?_) ?_)
  · exact ha
  · exact hb
  simp [State.log, State.advance, outWindow]

theorem run_xprev {kx : BitVec 3} (h2 : 2 ≤ kx.toNat) (hl : w.live.latched = true) (hp : w.live.pending = true)
    (hb : s.platform.accessFault true (subchunkAddr w.d (kx - 1)) 32 = none) :
    runUops (fuel + 1) (mid s u (encodeUw (.xprev kx) :: q) w m h) =
      runUops fuel (mid s (u + 1) q w (m.store (subchunkAddr w.d (kx - 1)) w.pend.toList)
        (h ++ [.issue (encodeUw (.xprev kx)), .write (subchunkAddr w.d (kx - 1))])) := by
  refine run_mid rfl (by simpa [Instr.wellFormed, exitIndexOk] using h2) ?_
  simp only [execUop, execXprev, exitIndexOk, h2, decide_true, if_true]
  rw [reading_of_live (by simp [State.isLive, mid, hl, hp])]
  refine Eq.trans (memWrite_ok ?_) ?_
  · exact hb
  simp [mid, State.log, State.advance]

theorem run_done :
    runUops (fuel + 2) (mid s u (encodeUw .done :: q) w m h) =
      .next { s with
        statusDone := true, upc := none, seq := [], mem := m, history := h ++ [.issue (encodeUw .done)]
        work := { w with slot := none, live := Live.none } } := by
  rw [run_mid (t := { s with
        statusDone := true, upc := none, seq := [], mem := m, history := h ++ [.issue (encodeUw .done)]
        work := { w with slot := none, live := Live.none } }) rfl rfl rfl]
  exact runUops_idle fuel rfl

/-! ### The count of the walk -/

/-- The subtraction of XSTEP on signed numbers. -/
theorem remStep_toInt {r : BitVec 10} (h : -480 ≤ r.toInt) : (remStep r).toInt = r.toInt - 32 := by
  revert r
  decide +kernel

theorem flagZ_iff {r : BitVec 10} : flagZ r = true ↔ r.toInt = 0 := by
  revert r
  decide +kernel

theorem flagN_iff {r : BitVec 10} : flagN r = true ↔ r.toInt < 0 := by
  revert r
  decide +kernel

/-- The residue a partial exit takes from the count. -/
theorem remResidue_eq {r : BitVec 10} : -32 < r.toInt → r.toInt < 0 →
    remResidue r = BitVec.ofNat 5 (r.toInt + 32).toNat := by
  revert r
  decide +kernel

theorem remLoad_toInt (n : BitVec 9) : (remLoad n).toInt = n.toNat := by
  revert n
  decide +kernel

theorem toNat_ofNat3 {k : Nat} (h : k ≤ 7) : (BitVec.ofNat 3 k).toNat = k := by
  simp only [BitVec.toNat_ofNat]
  omega

theorem subchunkAddr_ofNat {base : Word} {k : Nat} (h : k ≤ 7) :
    subchunkAddr base (BitVec.ofNat 3 k) = base.toNat + 32 * k := by
  rw [subchunkAddr, toNat_ofNat3 h]

theorem ofNat3_pred {k : Nat} : BitVec.ofNat 3 (k + 1) - 1 = BitVec.ofNat 3 k := by
  apply BitVec.eq_of_toNat_eq
  simp only [BitVec.toNat_sub, BitVec.toNat_ofNat, show (1 : BitVec 3).toNat = 1 from rfl]
  omega

theorem ofNat3_succ {k : Nat} : BitVec.ofNat 3 k + 1 = BitVec.ofNat 3 (k + 1) := by
  apply BitVec.eq_of_toNat_eq
  simp only [BitVec.toNat_add, BitVec.toNat_ofNat, show (1 : BitVec 3).toNat = 1 from rfl]
  omega

/-! ### The walk -/

/-- Memory and pending chunk when XSTEP k is about to be performed, k sub-chunks being done. -/
def walked (m : Memory) (src dst : Word) (ks : Vector Byte 256) : Nat → Memory × Chunk
  | 0 => (m, zeroChunk)
  | k + 1 =>
    let y := walked m src dst ks k
    (if k = 0 then y.1 else y.1.store (dst.toNat + 32 * (k - 1)) y.2.toList,
      chunkXor (y.1.load (src.toNat + 32 * k)) (keystreamChunk ks (BitVec.ofNat 3 k)))

/-- The events of one full sub-chunk. -/
def fullTrace (src dst : Word) (k : Nat) : List Event :=
  [.issue (encodeUw (.xstep (BitVec.ofNat 3 k))), .issue (encodeUw (.xfull (BitVec.ofNat 3 k))),
    .read (src.toNat + 32 * k)] ++ (if k = 0 then [] else [.write (dst.toNat + 32 * (k - 1))])

/-- The events of the walk up to XSTEP k. -/
def walkTrace (src dst : Word) (k : Nat) : List Event := (List.range k).flatMap (fullTrace src dst)

theorem walkTrace_succ {src dst : Word} {k : Nat} :
    walkTrace src dst (k + 1) = walkTrace src dst k ++ fullTrace src dst k := by
  simp [walkTrace, List.range_succ]

/-- The memory a command leaves. -/
def commandMem (m : Memory) (src dst : Word) (ks : Vector Byte 256) (n : Nat) : Memory :=
  let kx := exitSubchunk n
  let y := walked m src dst ks kx
  if residue n = 0 then
    (y.1.store (dst.toNat + 32 * (kx - 1)) y.2.toList).store (dst.toNat + 32 * kx)
      (chunkXor (y.1.load (src.toNat + 32 * kx)) (keystreamChunk ks (BitVec.ofNat 3 kx))).toList
  else
    (y.1.store (dst.toNat + (n - 32))
      (chunkXor (y.1.load (src.toNat + (n - 32)))
        (windowKeystream ks (BitVec.ofNat 3 kx) (BitVec.ofNat 5 (residue n)))).toList).store
      (dst.toNat + 32 * (kx - 1)) y.2.toList

/-- The events of the exit. -/
def exitTrace (src dst : Word) (n : Nat) : List Event :=
  let kx := exitSubchunk n
  if residue n = 0 then
    [.issue (encodeUw (.xexact (BitVec.ofNat 3 kx))), .read (src.toNat + 32 * kx), .write (dst.toNat + 32 * (kx - 1)),
      .write (dst.toNat + 32 * kx)]
  else
    [.issue (encodeUw (.bshift (BitVec.ofNat 5 (residue n)))), .issue (encodeUw (.xpart (BitVec.ofNat 3 kx))),
      .read (src.toNat + (n - 32)), .write (dst.toNat + (n - 32)), .issue (encodeUw (.xprev (BitVec.ofNat 3 kx))),
      .write (dst.toNat + 32 * (kx - 1))]

/-- What the walk relies on: the accesses it makes are allowed. -/
structure Accessible (p : Platform) (src dst : Word) (n : Nat) : Prop where
  read : ∀ a, src.toNat ≤ a → a + 32 ≤ src.toNat + n → p.accessFault false a 32 = none
  write : ∀ a, dst.toNat ≤ a → a + 32 ≤ dst.toNat + n → p.accessFault true a 32 = none

/-- The working state when XSTEP k is about to be performed. -/
structure AtStep (w : Working) (m : Memory) (src dst : Word) (ks : Vector Byte 256) (n : BitVec 9) (k : Nat) : Prop where
  source : w.s = src
  destination : w.d = dst
  count : w.n = n
  buffer : w.ks = ks
  rem : w.rem.toInt = n.toNat - 32 * k
  index : w.k = BitVec.ofNat 3 k
  latched : w.live.latched = true
  keystream : w.live.keystream = true
  remaining : w.live.remaining = true
  subchunk : w.live.subchunk = true
  pending : k ≠ 0 → w.live.pending = true ∧ w.pend = (walked m src dst ks k).2

section walk
variable {src dst : Word} {ks : Vector Byte 256} {n : BitVec 9} {k : Nat}

/-- One full sub-chunk: XSTEP k finds more than it, XFULL k is performed, XSTEP k+1 stands next. -/
theorem run_full (hw : AtStep w m src dst ks n k) (hn : n.toNat ≤ 256) (hk : 32 * (k + 1) < n.toNat)
    (ha : Accessible s.platform src dst n.toNat) :
    ∃ w', AtStep w' m src dst ks n (k + 1) ∧
      runUops (fuel + 2) (mid s u [encodeUw (.xstep (BitVec.ofNat 3 k))] w (walked m src dst ks k).1 h) =
        runUops fuel (mid s (u + 2) [encodeUw (.xstep (BitVec.ofNat 3 (k + 1)))] w' (walked m src dst ks (k + 1)).1
          (h ++ fullTrace src dst k)) := by
  have hr : (remStep w.rem).toInt = n.toNat - 32 * (k + 1) := by
    rw [remStep_toInt (by have := hw.rem; omega), hw.rem]
    omega
  have hz : flagZ (remStep w.rem) = false := by rw [← Bool.not_eq_true, flagZ_iff]; omega
  have hg : flagN (remStep w.rem) = false := by rw [← Bool.not_eq_true, flagN_iff]; omega
  have hs := hw.source
  have hd := hw.destination
  have hks := hw.buffer
  subst hs hd hks
  have hread : s.platform.accessFault false (subchunkAddr w.s (BitVec.ofNat 3 k)) 32 = none := by
    rw [subchunkAddr_ofNat (by omega)]
    exact ha.read _ (by omega) (by omega)
  rw [run_xstep hw.remaining, hz, hg]
  simp only [continuation, Bool.false_eq_true, if_false, List.map_cons, List.map_nil, List.nil_append]
  rw [ofNat3_succ, show u + 2 = u + 1 + 1 from rfl]
  have hpend : outChunk (walked m w.s w.d w.ks k).1 w.s w.ks (BitVec.ofNat 3 k) = (walked m w.s w.d w.ks (k + 1)).2 := by
    simp only [walked, outChunk, subchunkAddr_ofNat (base := w.s) (k := k) (by omega)]
  have hidx : w.k + 1 = BitVec.ofNat 3 (k + 1) := by rw [hw.index, ofNat3_succ]
  refine ⟨{ w with
    rem := remStep w.rem, z := false, neg := false, pend := (walked m w.s w.d w.ks (k + 1)).2
    k := BitVec.ofNat 3 (k + 1), live := { w.live with flags := true, pending := true } }, ?_, ?_⟩
  · exact ⟨rfl, rfl, hw.count, rfl, hr, rfl, hw.latched, hw.keystream, hw.remaining, hw.subchunk, fun _ => ⟨rfl, rfl⟩⟩
  · cases k with
    | zero =>
      have e := run_xfull_zero (fuel := fuel) (u := u + 1) (q := [encodeUw (.xstep (BitVec.ofNat 3 0 + 1))])
        (m := (walked m w.s w.d w.ks 0).1) (h := h ++ [.issue (encodeUw (.xstep 0))])
        (w := { w with rem := remStep w.rem, z := false, neg := false, live := { w.live with flags := true } })
        hw.latched hw.keystream hw.subchunk hread
      dsimp only at e
      rw [show (0 : BitVec 3) = BitVec.ofNat 3 0 from rfl, hpend, hidx, ofNat3_succ,
        subchunkAddr_ofNat (base := w.s) (k := 0) (by omega)] at e
      rw [show (walked m w.s w.d w.ks (0 + 1)).1 = (walked m w.s w.d w.ks 0).1 by simp [walked]]
      simpa only [fullTrace, if_true, List.append_assoc, List.cons_append, List.nil_append, List.append_nil] using e
    | succ k =>
      obtain ⟨hp, hpe⟩ := hw.pending (Nat.succ_ne_zero k)
      have h6 : (BitVec.ofNat 3 (k + 1)).toNat ≤ 6 := by rw [toNat_ofNat3 (by omega)]; omega
      have h0 : BitVec.ofNat 3 (k + 1) ≠ 0#3 := by
        intro h
        have := congrArg BitVec.toNat h
        rw [toNat_ofNat3 (by omega)] at this
        simp at this
      have hwrite : s.platform.accessFault true (subchunkAddr w.d (BitVec.ofNat 3 (k + 1) - 1)) 32 = none := by
        rw [ofNat3_pred, subchunkAddr_ofNat (by omega)]
        exact ha.write _ (by omega) (by omega)
      have hmem : (walked m w.s w.d w.ks (k + 1)).1.store (w.d.toNat + 32 * k) w.pend.toList
          = (walked m w.s w.d w.ks (k + 1 + 1)).1 := by
        rw [hpe]
        simp [walked]
      have e := run_xfull (s := s) (fuel := fuel) (u := u + 1)
        (q := [encodeUw (.xstep (BitVec.ofNat 3 (k + 1) + 1))])
        (m := (walked m w.s w.d w.ks (k + 1)).1) (h := h ++ [.issue (encodeUw (.xstep (BitVec.ofNat 3 (k + 1))))])
        (w := { w with rem := remStep w.rem, z := false, neg := false, live := { w.live with flags := true } })
        h6 h0 hw.latched hw.keystream hw.subchunk hp hread hwrite
      dsimp only at e
      rw [hpend, hidx, ofNat3_pred, ofNat3_succ, subchunkAddr_ofNat (base := w.s) (k := k + 1) (by omega),
        subchunkAddr_ofNat (base := w.d) (k := k) (by omega), hmem] at e
      simpa only [fullTrace, Nat.succ_ne_zero, if_false, Nat.add_sub_cancel, List.append_assoc, List.cons_append,
        List.nil_append] using e

/-- The walk from XSTEP 0 to XSTEP k. -/
theorem run_walk_to (hn : n.toNat ≤ 256) (ha : Accessible s.platform src dst n.toNat)
    (hw : AtStep w m src dst ks n 0) (hk : 32 * k < n.toNat) :
    ∃ w', AtStep w' m src dst ks n k ∧
      runUops (fuel + 2 * k) (mid s u [encodeUw (.xstep 0)] w m h) =
        runUops fuel (mid s (u + 2 * k) [encodeUw (.xstep (BitVec.ofNat 3 k))] w' (walked m src dst ks k).1
          (h ++ walkTrace src dst k)) := by
  induction k generalizing fuel with
  | zero => exact ⟨w, hw, by simp [walkTrace, walked]⟩
  | succ k ih =>
    obtain ⟨w₁, hw₁, e₁⟩ := ih (fuel := fuel + 2) (by omega)
    obtain ⟨w₂, hw₂, e₂⟩ := run_full (s := s) (u := u + 2 * k) (fuel := fuel)
      (h := h ++ walkTrace src dst k) hw₁ hn (by omega) ha
    refine ⟨w₂, hw₂, ?_⟩
    rw [show fuel + 2 * (k + 1) = fuel + 2 + 2 * k by omega, e₁, e₂, walkTrace_succ, List.append_assoc]
    rfl

/-- The state a command ends in: what of it differs from the state at the launch. -/
def finished (s : State) (w : Working) (m : Memory) (h : List Event) : State :=
  { s with
    statusDone := true, upc := none, seq := [], mem := m, history := h
    work := { w with slot := none, live := Live.none } }

/-- The exit: from XSTEP K, which finds no more than its sub-chunk, to the end of the command. -/
theorem run_exit (hw : AtStep w m src dst ks n k) (hn : n.toNat ≤ 256) (h2 : 2 ≤ k) (hlo : 32 * k < n.toNat)
    (hhi : n.toNat ≤ 32 * (k + 1)) (ha : Accessible s.platform src dst n.toNat) :
    ∃ w', runUops (fuel + 6) (mid s u [encodeUw (.xstep (BitVec.ofNat 3 k))] w (walked m src dst ks k).1 h) =
        .next (finished s w' (commandMem m src dst ks n.toNat)
          (h ++ (.issue (encodeUw (.xstep (BitVec.ofNat 3 k))) :: exitTrace src dst n.toNat
            ++ [.issue (encodeUw .done)]))) := by
  have hk7 : k ≤ 7 := by omega
  have hkx : exitSubchunk n.toNat = k := by unfold exitSubchunk; omega
  have hr : (remStep w.rem).toInt = n.toNat - 32 * (k + 1) := by
    rw [remStep_toInt (by have := hw.rem; omega), hw.rem]
    omega
  have hs := hw.source
  have hd := hw.destination
  have hks := hw.buffer
  have hc := hw.count
  subst hs hd hks hc
  obtain ⟨hp, hpe⟩ := hw.pending (by omega)
  have hk2 : 2 ≤ (BitVec.ofNat 3 k).toNat := by rw [toNat_ofNat3 hk7]; exact h2
  have hprev : subchunkAddr w.d (BitVec.ofNat 3 k - 1) = w.d.toNat + 32 * (k - 1) := by
    obtain ⟨j, rfl⟩ : ∃ j, k = j + 1 := ⟨k - 1, by omega⟩
    rw [ofNat3_pred, subchunkAddr_ofNat (by omega), Nat.add_sub_cancel]
  have hwp : s.platform.accessFault true (subchunkAddr w.d (BitVec.ofNat 3 k - 1)) 32 = none := by
    rw [hprev]
    exact ha.write _ (by omega) (by omega)
  rw [run_xstep hw.remaining]
  by_cases h0 : residue w.n.toNat = 0
  · have hz : flagZ (remStep w.rem) = true := by
      rw [flagZ_iff, hr]
      unfold residue at h0
      omega
    have hnk : w.n.toNat = 32 * (k + 1) := by unfold residue at h0; omega
    simp only [hz, continuation, if_true, List.map_cons, List.map_nil, List.nil_append]
    have e := run_xexact (s := s) (fuel := fuel + 4) (u := u + 1) (q := [encodeUw .done])
      (m := (walked m w.s w.d w.ks k).1) (h := h ++ [.issue (encodeUw (.xstep (BitVec.ofNat 3 k)))])
      (w := { w with
        rem := remStep w.rem, z := true, neg := flagN (remStep w.rem), live := { w.live with flags := true } })
      hk2 hw.latched hw.keystream hp
      (by rw [subchunkAddr_ofNat hk7]; exact ha.read _ (by dsimp only; omega) (by dsimp only; omega)) hwp
      (by rw [subchunkAddr_ofNat hk7]; exact ha.write _ (by dsimp only; omega) (by dsimp only; omega))
    dsimp only at e
    rw [e, run_done]
    refine ⟨{ w with
        rem := remStep w.rem, z := true, neg := flagN (remStep w.rem), live := { w.live with flags := true } }, ?_⟩
    simp only [finished, commandMem, exitTrace, hkx, h0, if_true, outChunk, hpe, hprev, subchunkAddr_ofNat hk7,
      List.append_assoc, List.cons_append, List.nil_append]
  · have hz : flagZ (remStep w.rem) = false := by
      rw [← Bool.not_eq_true, flagZ_iff, hr]
      unfold residue at h0
      omega
    have hneg : (remStep w.rem).toInt < 0 := by
      rw [hr]
      unfold residue at h0
      omega
    have hg : flagN (remStep w.rem) = true := flagN_iff.mpr hneg
    have hres : remResidue (remStep w.rem) = BitVec.ofNat 5 (residue w.n.toNat) := by
      rw [remResidue_eq (by omega) hneg, hr]
      congr 1
      unfold residue
      omega
    have hr0 : BitVec.ofNat 5 (residue w.n.toNat) ≠ 0#5 := by
      intro h
      have := congrArg BitVec.toNat h
      simp only [BitVec.toNat_ofNat] at this
      unfold residue at this h0
      omega
    have hi0 : w.k ≠ 0#3 := by
      rw [hw.index]
      intro h
      have := congrArg BitVec.toNat h
      rw [toNat_ofNat3 hk7] at this
      simp at this
      omega
    simp only [hz, hg, continuation, Bool.false_eq_true, if_false, if_true, List.map_cons, List.map_nil, List.nil_append,
      hres]
    have e₁ := run_bshift (s := s) (fuel := fuel + 4) (u := u + 1)
      (q := [encodeUw (.xpart (BitVec.ofNat 3 k)), encodeUw (.xprev (BitVec.ofNat 3 k)), encodeUw .done])
      (m := (walked m w.s w.d w.ks k).1) (h := h ++ [.issue (encodeUw (.xstep (BitVec.ofNat 3 k)))])
      (w := { w with rem := remStep w.rem, z := false, neg := true, live := { w.live with flags := true } })
      hr0 hw.keystream hw.subchunk hi0
    dsimp only at e₁
    have e₂ := run_xpart (s := s) (fuel := fuel + 3) (u := u + 1 + 1)
      (q := [encodeUw (.xprev (BitVec.ofNat 3 k)), encodeUw .done])
      (m := (walked m w.s w.d w.ks k).1)
      (h := h ++ [.issue (encodeUw (.xstep (BitVec.ofNat 3 k)))]
        ++ [.issue (encodeUw (.bshift (BitVec.ofNat 5 (residue w.n.toNat))))])
      (w := { w with
        rem := remStep w.rem, z := false, neg := true
        t := windowKeystream w.ks w.k (BitVec.ofNat 5 (residue w.n.toNat))
        live := { w.live with flags := true, shifted := true } })
      hk2 (by dsimp only; omega) hw.latched rfl
      (ha.read _ (by dsimp only; omega) (by dsimp only; omega))
      (ha.write _ (by dsimp only; omega) (by dsimp only; omega))
    dsimp only at e₂
    rw [e₁, e₂, run_xprev (fuel := fuel + 2) (w := { w with
        rem := remStep w.rem, z := false, neg := true
        t := windowKeystream w.ks w.k (BitVec.ofNat 5 (residue w.n.toNat))
        live := { w.live with flags := true, shifted := true } }) hk2 hw.latched hp hwp, run_done]
    refine ⟨{ w with
        rem := remStep w.rem, z := false, neg := true
        t := windowKeystream w.ks w.k (BitVec.ofNat 5 (residue w.n.toNat))
        live := { w.live with flags := true, shifted := true } }, ?_⟩
    simp only [finished, commandMem, exitTrace, hkx, h0, if_false, outWindow, hpe, hprev, hw.index,
      List.append_assoc, List.cons_append, List.nil_append]

end walk

/-! ### From the launch to XSTEP 0 -/

/-- The events up to XSTEP 0. -/
def preambleTrace (nr : Nat) : List Event :=
  ([Instr.latch, .derive, .ilv] ++ doubleRoundSeq nr ++ [Instr.addorig, .dlv, .ser, .walk]).map fun i => .issue (encodeUw i)

theorem addrField_of_lt {aw : Nat} {x : Word} (h : x.toNat < 2 ^ aw) : addrField aw x = x := by
  rw [addrField, Nat.mod_eq_of_lt h, BitVec.ofNat_toNat, BitVec.setWidth_eq]

/-- The pipeline of a command up to XSTEP 0: the keystream is made, the walk is loaded. -/
theorem run_preamble {ndr : Nat} (hndr : doubleRounds (roundsField s.rounds).toNat = ndr)
    (hs : s.src.toNat < 2 ^ s.platform.aw) (hd : s.dst.toNat < 2 ^ s.platform.aw) :
    ∃ w', AtStep w' s.mem s.src s.dst (commandKeystream s.cs (roundsField s.rounds).toNat) (nbytesField s.nbytes) 0 ∧
      runUops (fuel + (7 + ndr)) s.launched =
        runUops fuel (mid s (7 + ndr) [encodeUw (.xstep 0)] w' s.mem
          (s.history ++ preambleTrace (roundsField s.rounds).toNat)) := by
  have hle : ndr ≤ 127 := by
    have := (roundsField s.rounds).isLt
    unfold doubleRounds at hndr
    omega
  generalize hnr : roundsField s.rounds = nr at *
  let drs : List (BitVec 7) := (List.range ndr).map (BitVec.ofNat 7)
  have hlen : drs.length = ndr := by simp [drs]
  have hdrs : ∀ dr ∈ drs, dr.toNat ≤ 126 := by
    intro dr hdr
    simp only [drs, List.mem_map, List.mem_range] at hdr
    obtain ⟨j, hj, rfl⟩ := hdr
    simp only [BitVec.toNat_ofNat]
    omega
  have hseq : (preamble nr.toNat).map encodeUw = encodeUw .derive :: encodeUw .ilv ::
      (drs.map (fun dr => encodeUw (.dblrnd dr)) ++ [encodeUw .addorig, encodeUw .dlv, encodeUw .ser, encodeUw .walk,
        encodeUw (.xstep 0)]) := by
    simp [preamble, doubleRoundSeq, hndr, drs, Function.comp_def]
  have htr : preambleTrace nr.toNat = [.issue (encodeUw .latch)] ++ [.issue (encodeUw .derive)] ++ [.issue (encodeUw .ilv)]
      ++ drs.map (fun dr => .issue (encodeUw (.dblrnd dr))) ++ [.issue (encodeUw .addorig)] ++ [.issue (encodeUw .dlv)]
      ++ [.issue (encodeUw .ser)] ++ [.issue (encodeUw .walk)] := by
    simp [preambleTrace, doubleRoundSeq, hndr, drs, Function.comp_def]
  let w₁ : Working := { s.work with
    s := s.src, d := s.dst, n := nbytesField s.nbytes, nr := nr, live := { s.work.live with latched := true } }
  let w₂ : Working := { w₁ with m := deriveStates s.cs, live := { w₁.live with matrices := true } }
  let w₃ : Working := { w₂ with
    v := interleave w₂.m, v0 := interleave w₂.m, live := { w₂.live with lanes := true, original := true } }
  let w₄ : Working := { w₃ with v := laneRounds drs.length w₃.v }
  let w₅ : Working := { w₄ with v := addOriginal w₄.v w₄.v0 }
  let w₆ : Working := { w₅ with m := deinterleave w₅.v, live := { w₅.live with matrices := true } }
  let w₇ : Working := { w₆ with ks := serialise w₆.m, live := { w₆.live with keystream := true } }
  let w₈ : Working := { w₇ with
    rem := remLoad w₇.n, k := 0, live := { w₇.live with remaining := true, subchunk := true } }
  have e₁ := run_latch (s := s) (fuel := drs.length + (fuel + 4) + 1 + 1)
  rw [hnr, hseq, addrField_of_lt hs, addrField_of_lt hd] at e₁
  have e := e₁.trans ((run_derive (w := w₁)).trans ((run_ilv (w := w₂) rfl).trans
    ((run_dblrnds (w := w₃) drs hdrs rfl).trans ((run_addorig (w := w₄) rfl rfl).trans
      ((run_dlv (w := w₅) rfl).trans ((run_ser (w := w₆) rfl).trans (run_walk (w := w₇) rfl)))))))
  refine ⟨w₈, ⟨rfl, rfl, rfl, ?_, ?_, rfl, rfl, rfl, rfl, rfl, fun h => absurd rfl h⟩, ?_⟩
  · show serialise (deinterleave (addOriginal (laneRounds drs.length _) _)) = _
    rw [hlen, commandKeystream, finishedLanes, hndr]
    rfl
  · show (remLoad (nbytesField s.nbytes)).toInt = _
    rw [remLoad_toInt]
    simp
  · rw [show fuel + (7 + ndr) = drs.length + (fuel + 4) + 1 + 1 + 1 by omega, e, htr,
      show 1 + 1 + 1 + drs.length + 1 + 1 + 1 + 1 = 7 + ndr by omega]
    simp only [List.append_assoc]
    rfl

/-! ### The whole command -/

/-- The events of a command, in order. -/
def commandTrace (src dst : Word) (nr n : Nat) : List Event :=
  preambleTrace nr ++ walkTrace src dst (exitSubchunk n)
    ++ (.issue (encodeUw (.xstep (BitVec.ofNat 3 (exitSubchunk n)))) :: exitTrace src dst n ++ [.issue (encodeUw .done)])

/-- What an admitted launch has shown (R118). -/
structure Admitted (s : State) : Prop where
  field : s.nbytes.toNat = s.nbytes.toNat % 512
  low : 64 < (nbytesField s.nbytes).toNat
  high : (nbytesField s.nbytes).toNat ≤ 256
  roundsHigh : s.rounds.toNat = (roundsField s.rounds).toNat
  roundsLow : 0 < (roundsField s.rounds).toNat
  even : (roundsField s.rounds).toNat % 2 = 0
  srcTop : s.src.toNat + (nbytesField s.nbytes).toNat ≤ 2 ^ s.platform.aw
  dstTop : s.dst.toNat + (nbytesField s.nbytes).toNat ≤ 2 ^ s.platform.aw
  readable : s.platform.ordinaryRegion false s.src.toNat (nbytesField s.nbytes).toNat = true
  writable : s.platform.ordinaryRegion true s.dst.toNat (nbytesField s.nbytes).toNat = true
  regions : s.src = s.dst ∨ s.src.toNat + (nbytesField s.nbytes).toNat ≤ s.dst.toNat
    ∨ s.dst.toNat + (nbytesField s.nbytes).toNat ≤ s.src.toNat

theorem admitted_of_admission (h : s.admission = none) : Admitted s := by
  unfold State.admission at h
  split at h
  · cases h
  split at h
  · cases h
  split at h
  · cases h
  split at h
  · cases h
  split at h
  · cases h
  next hl hr hg hm ha =>
  simp only [State.lenBad, Bool.or_eq_true, decide_eq_true_eq, not_or, Nat.not_lt, Nat.not_le,
    ne_eq, not_not] at hl
  simp only [State.roundsBad, Bool.or_eq_true, decide_eq_true_eq, not_or, ne_eq, not_not] at hr
  simp only [State.rangeBad, Bool.or_eq_true, decide_eq_true_eq, not_or, not_lt] at hg
  simp only [State.memoryBad, Bool.or_eq_true, Bool.not_eq_true', not_or, Bool.not_eq_false] at hm
  simp only [State.aliasBad, Bool.and_eq_true, decide_eq_true_eq, not_and, not_lt] at ha
  obtain ⟨⟨h1, h2⟩, h3⟩ := hl
  obtain ⟨⟨h4, h5⟩, h6⟩ := hr
  refine ⟨?_, h2, h3, ?_, ?_, by omega, hg.1.2, hg.2, hm.1, hm.2, ?_⟩
  · have := congrArg BitVec.toNat h1
    simp only [BitVec.extractLsb'_toNat, BitVec.toNat_ofNat, Nat.shiftRight_eq_div_pow] at this
    have hlt := s.nbytes.isLt
    omega
  · have := congrArg BitVec.toNat h4
    simp only [BitVec.extractLsb'_toNat, BitVec.toNat_ofNat, Nat.shiftRight_eq_div_pow] at this
    have hlt := s.rounds.isLt
    simp only [roundsField, BitVec.extractLsb'_toNat, Nat.shiftRight_zero]
    omega
  · exact Nat.pos_of_ne_zero fun h => h5 (BitVec.eq_of_toNat_eq (by simpa using h))
  · by_cases he : s.src = s.dst
    · exact .inl he
    · right
      by_contra hc
      push Not at hc
      have := ha ⟨he, hc.2⟩
      omega

theorem Admitted.accessible (h : Admitted s) : Accessible s.platform s.src s.dst (nbytesField s.nbytes).toNat :=
  ⟨fun _ h1 h2 => accessFault_of_region h.readable h.srcTop h1 h2,
    fun _ h1 h2 => accessFault_of_region h.writable h.dstTop h1 h2⟩

/-- What an admitted launch is: the engine idle again, DONE set, the working state dead, memory and history as functions of
the operands, the Cipher State and the memory before; nothing else changed. -/
theorem launch_spec (h : s.admission = none) :
    ∃ w', launch s = .next (finished s w'
      (commandMem s.mem s.src s.dst (commandKeystream s.cs (roundsField s.rounds).toNat) (nbytesField s.nbytes).toNat)
      (s.history ++ commandTrace s.src s.dst (roundsField s.rounds).toNat (nbytesField s.nbytes).toNat)) := by
  have ha := admitted_of_admission h
  have hlow := ha.low
  have hhigh := ha.high
  have hlt : doubleRounds (roundsField s.rounds).toNat ≤ 127 := by
    have := (roundsField s.rounds).isLt
    unfold doubleRounds
    omega
  have hk2 : 2 ≤ exitSubchunk (nbytesField s.nbytes).toNat := by unfold exitSubchunk; omega
  have hk7 : exitSubchunk (nbytesField s.nbytes).toNat ≤ 7 := by unfold exitSubchunk; omega
  have hlo : 32 * exitSubchunk (nbytesField s.nbytes).toNat < (nbytesField s.nbytes).toNat := by
    unfold exitSubchunk; omega
  have hhi : (nbytesField s.nbytes).toNat ≤ 32 * (exitSubchunk (nbytesField s.nbytes).toNat + 1) := by
    unfold exitSubchunk; omega
  obtain ⟨f, hf⟩ : ∃ f, uopBound = f + 6 + 2 * exitSubchunk (nbytesField s.nbytes).toNat
      + (7 + doubleRounds (roundsField s.rounds).toNat) :=
    ⟨160 - (6 + 2 * exitSubchunk (nbytesField s.nbytes).toNat + (7 + doubleRounds (roundsField s.rounds).toNat)), by
      simp only [uopBound]; omega⟩
  obtain ⟨w₁, hw₁, e₁⟩ := run_preamble (s := s)
    (fuel := f + 6 + 2 * exitSubchunk (nbytesField s.nbytes).toNat) rfl
    (by have := ha.srcTop; omega) (by have := ha.dstTop; omega)
  obtain ⟨w₂, hw₂, e₂⟩ := run_walk_to (fuel := f + 6) (u := 7 + doubleRounds (roundsField s.rounds).toNat)
    (h := s.history ++ preambleTrace (roundsField s.rounds).toNat) hhigh ha.accessible hw₁ hlo
  obtain ⟨w₃, e₃⟩ := run_exit (s := s) (fuel := f) (u := 7 + doubleRounds (roundsField s.rounds).toNat
      + 2 * exitSubchunk (nbytesField s.nbytes).toNat)
    (h := s.history ++ preambleTrace (roundsField s.rounds).toNat
      ++ walkTrace s.src s.dst (exitSubchunk (nbytesField s.nbytes).toNat)) hw₂ hhigh hk2 hlo hhi ha.accessible
  refine ⟨w₃, ?_⟩
  rw [launch, h]
  show runUops uopBound s.launched = _
  rw [hf, e₁, e₂, e₃]
  simp only [commandTrace, List.append_assoc]

end Sys2Proof.Machine
end

