-- ==== Sys2Proof/Laws/PerInstr.lean ====
section
/-! SUPPORT. Statements for all instructions, one lemma per constructor. The family Encoded: the encoder's word lies in the
instruction's own row of spec/opcode_table.json, whose width, mask and match are written here once more from the table. -/

namespace Sys2Proof.Laws.Encoded

/-- A word has the width of a table row and the row's fixed bits. -/
def inRow (nbits mask pattern : Nat) : Code → Prop
  | .ht w => nbits = 40 ∧ w &&& BitVec.ofNat 40 mask = BitVec.ofNat 40 pattern
  | .cw w => nbits = 32 ∧ w &&& BitVec.ofNat 32 mask = BitVec.ofNat 32 pattern
  | .uw w => nbits = 16 ∧ w &&& BitVec.ofNat 16 mask = BitVec.ofNat 16 pattern

/-- Width, mask and match of the row of each instruction (spec/opcode_table.json). -/
def row : Instr → Nat × Nat × Nat
  | .wr _ _ => (40, 0x8000000000, 0x8000000000)
  | .rd _ => (40, 0x80FFFFFFFF, 0x0000000000)
  | .xform4 => (32, 0xFFFFFFFF, 0x00000001)
  | .latch => (16, 0xFFFF, 0x0100)
  | .derive => (16, 0xFFFF, 0x0200)
  | .done => (16, 0xFFFF, 0x0F00)
  | .add32 _ _ => (16, 0xFFF0, 0x1000)
  | .xor32 _ _ => (16, 0xFFF0, 0x1100)
  | .rotl32 _ _ => (16, 0xFF80, 0x1200)
  | .qr _ => (16, 0xFFF8, 0x1300)
  | .colrnd => (16, 0xFFFF, 0x1400)
  | .diagrnd => (16, 0xFFFF, 0x1500)
  | .dblrnd _ => (16, 0xFF80, 0x1600)
  | .addorig => (16, 0xFFFF, 0x1700)
  | .ilv => (16, 0xFFFF, 0x2000)
  | .dlv => (16, 0xFFFF, 0x2100)
  | .ser => (16, 0xFFFF, 0x2200)
  | .walk => (16, 0xFFFF, 0x3000)
  | .xstep _ => (16, 0xFFF8, 0x3100)
  | .xfull _ => (16, 0xFFF8, 0x3200)
  | .xexact _ => (16, 0xFFF8, 0x4000)
  | .bshift _ => (16, 0xFFE0, 0x4100)
  | .xpart _ => (16, 0xFFF8, 0x4200)
  | .xprev _ => (16, 0xFFF8, 0x4300)

/-- The encoded word lies in the instruction's row. -/
def Statement (i : Instr) : Prop := inRow (row i).1 (row i).2.1 (row i).2.2 (encode i)

theorem wr (idx : BitVec 7) (data : Word) : Statement (.wr idx data) := by
  refine ⟨rfl, ?_⟩
  have top : (1#1 ++ idx ++ data).getLsbD 39 = true := by
    rw [BitVec.getLsbD_append]
    show (1#1 ++ idx).getLsbD 7 = true
    rw [BitVec.getLsbD_append]
    rfl
  refine BitVec.eq_of_getLsbD_eq fun i hi => ?_
  show ((1#1 ++ idx ++ data) &&& 0x8000000000#40).getLsbD i = (0x8000000000#40).getLsbD i
  interval_cases i <;> simp
  exact top

theorem rd (idx : BitVec 7) : Statement (.rd idx) := by
  refine ⟨rfl, ?_⟩
  revert idx
  decide +kernel

theorem xform4 : Statement .xform4 := ⟨rfl, rfl⟩

theorem latch : Statement .latch := ⟨rfl, rfl⟩

theorem derive : Statement .derive := ⟨rfl, rfl⟩

theorem done : Statement .done := ⟨rfl, rfl⟩

theorem add32 (rd : BitVec 2) (rs : BitVec 2) : Statement (.add32 rd rs) := by
  refine ⟨rfl, ?_⟩
  revert rd rs
  decide +kernel

theorem xor32 (rd : BitVec 2) (rs : BitVec 2) : Statement (.xor32 rd rs) := by
  refine ⟨rfl, ?_⟩
  revert rd rs
  decide +kernel

theorem rotl32 (rd : BitVec 2) (amount : BitVec 5) : Statement (.rotl32 rd amount) := by
  refine ⟨rfl, ?_⟩
  revert rd amount
  decide +kernel

theorem qr (q : BitVec 3) : Statement (.qr q) := by
  refine ⟨rfl, ?_⟩
  revert q
  decide +kernel

theorem colrnd : Statement .colrnd := ⟨rfl, rfl⟩

theorem diagrnd : Statement .diagrnd := ⟨rfl, rfl⟩

theorem dblrnd (dr : BitVec 7) : Statement (.dblrnd dr) := by
  refine ⟨rfl, ?_⟩
  revert dr
  decide +kernel

theorem addorig : Statement .addorig := ⟨rfl, rfl⟩

theorem ilv : Statement .ilv := ⟨rfl, rfl⟩

theorem dlv : Statement .dlv := ⟨rfl, rfl⟩

theorem ser : Statement .ser := ⟨rfl, rfl⟩

theorem walk : Statement .walk := ⟨rfl, rfl⟩

theorem xstep (k : BitVec 3) : Statement (.xstep k) := by
  refine ⟨rfl, ?_⟩
  revert k
  decide +kernel

theorem xfull (k : BitVec 3) : Statement (.xfull k) := by
  refine ⟨rfl, ?_⟩
  revert k
  decide +kernel

theorem xexact (kx : BitVec 3) : Statement (.xexact kx) := by
  refine ⟨rfl, ?_⟩
  revert kx
  decide +kernel

theorem bshift (r : BitVec 5) : Statement (.bshift r) := by
  refine ⟨rfl, ?_⟩
  revert r
  decide +kernel

theorem xpart (kx : BitVec 3) : Statement (.xpart kx) := by
  refine ⟨rfl, ?_⟩
  revert kx
  decide +kernel

theorem xprev (kx : BitVec 3) : Statement (.xprev kx) := by
  refine ⟨rfl, ?_⟩
  revert kx
  decide +kernel

end Sys2Proof.Laws.Encoded
end

