-- ==== Sys2Proof/Tests/Slice0.lean ====
section
/-! SUPPORT. The model's own tests, expected values from 95_test_vectors.md and from hand calculation with the rules named,
and for every statement with hypotheses a witness that meets them. -/

namespace Sys2Proof.Tests

set_option Elab.async false

open Sys2Proof.Machine

/-! ### Helper states -/

/-- The Cipher State of V1. -/
def csV1 : Block :=
  #v[0x61707865, 0x3320646e, 0x79622d32, 0x6b206574, 0x03020100, 0x07060504, 0x0b0a0908, 0x0f0e0d0c,
     0x13121110, 0x17161514, 0x1b1a1918, 0x1f1e1d1c, 0x00000001, 0x09000000, 0x4a000000, 0x00000000]

/-- The case of V22 'as stated', with other operands. -/
def ready (src dst n nr : Word) : State :=
  { State.reset with
    cs := csV1, csSet := Vector.replicate 16 true, src := src, srcSet := true, dst := dst, dstSet := true
    nbytes := n, rounds := nr }

/-- A command in progress: every piece of working state written, n = 140. -/
def running : State :=
  { State.reset.midCommand with cs := csV1 }

/-- A running state with these lanes in all four blocks of slot 0. -/
def withRoles (a b c d : Word) : State :=
  { running with work := { running.work with
      v := (((running.work.v.set 0 (Vector.replicate 4 a)).set 4 (Vector.replicate 4 b)).set 8
        (Vector.replicate 4 c)).set 12 (Vector.replicate 4 d) } }

/-- A running state with this remaining-count. -/
def withRem (rem : BitVec 10) : State := { running with work := { running.work with rem := rem } }

/-- A running state at its exit, disjoint regions, with keystream bytes 0, 1, 2, ... . -/
def withRegions (s d : Word) : State :=
  { running with work := { running.work with
      s := s, d := d, ks := Vector.ofFn fun x : Fin 256 => BitVec.ofNat 8 x.val
      pend := Vector.replicate 32 0xaa, t := Vector.replicate 32 0x55 } }

/-- What a next state shows. -/
def seen {α : Type} (r : Result) (f : State → α) : Option α := (nextState? r).map f

/-! ### Well-formedness: one ill-formed term for each check, and the values next to it -/

theorem test_wf_rotl32 : (Instr.rotl32 3 0).wellFormed = false ∧ (Instr.rotl32 3 1).wellFormed = true := by decide

theorem test_wf_dblrnd : (Instr.dblrnd 127).wellFormed = false ∧ (Instr.dblrnd 126).wellFormed = true := by decide

theorem test_wf_xfull : (Instr.xfull 7).wellFormed = false ∧ (Instr.xfull 6).wellFormed = true := by decide

theorem test_wf_xexact : (Instr.xexact 1).wellFormed = false ∧ (Instr.xexact 2).wellFormed = true := by decide

theorem test_wf_bshift : (Instr.bshift 0).wellFormed = false ∧ (Instr.bshift 31).wellFormed = true := by decide

theorem test_wf_xpart : (Instr.xpart 0).wellFormed = false ∧ (Instr.xpart 7).wellFormed = true := by decide

theorem test_wf_xprev : (Instr.xprev 1).wellFormed = false ∧ (Instr.xprev 2).wellFormed = true := by decide

/-! ### Decoding: words from R81, R86, R87, V14, V24, V26; reserved words from R90, R91 -/

theorem test_decode_wr : decodeHt 0x8061707865 = .ok (.wr 0 0x61707865) ∧ decodeHt 0x920000008c = .ok (.wr 18 140) := by
  decide

theorem test_decode_rd : decodeHt 0x1500000000 = .ok (.rd 21) ∧ decodeHt 0x0c00000000 = .ok (.rd 12) := by decide

theorem test_decode_malformed_read : decodeHt 0x1500000001 = .error .malformedRead := by decide

theorem test_decode_xform4 :
    decodeCw 1 = .ok .xform4 ∧ decodeCw 0 = .error .reservedCommand ∧ decodeCw 0x11 = .error .reservedCommand := by
  decide

theorem test_decode_control :
    decodeUw 0x0100 = .ok .latch ∧ decodeUw 0x0200 = .ok .derive ∧ decodeUw 0x0f00 = .ok .done := by decide

/-- V26: ADD32 c,d; XOR32 b,c; ROTL32 d,16; ROTL32 b,7. -/
theorem test_decode_lane_operations :
    decodeUw 0x100b = .ok (.add32 2 3) ∧ decodeUw 0x1106 = .ok (.xor32 1 2) ∧ decodeUw 0x1270 = .ok (.rotl32 3 16)
      ∧ decodeUw 0x1227 = .ok (.rotl32 1 7) := by decide

theorem test_decode_rounds :
    decodeUw 0x1307 = .ok (.qr 7) ∧ decodeUw 0x1400 = .ok .colrnd ∧ decodeUw 0x1500 = .ok .diagrnd
      ∧ decodeUw 0x1609 = .ok (.dblrnd 9) ∧ decodeUw 0x1700 = .ok .addorig := by decide

theorem test_decode_layout :
    decodeUw 0x2000 = .ok .ilv ∧ decodeUw 0x2100 = .ok .dlv ∧ decodeUw 0x2200 = .ok .ser := by decide

theorem test_decode_walk :
    decodeUw 0x3000 = .ok .walk ∧ decodeUw 0x3104 = .ok (.xstep 4) ∧ decodeUw 0x3203 = .ok (.xfull 3) := by decide

theorem test_decode_tail :
    decodeUw 0x4002 = .ok (.xexact 2) ∧ decodeUw 0x410c = .ok (.bshift 12) ∧ decodeUw 0x4204 = .ok (.xpart 4)
      ∧ decodeUw 0x4304 = .ok (.xprev 4) := by decide

/-- R91: unlisted CODE, ARG out of range, rotation by 0. -/
theorem test_decode_reserved :
    [0x0000#16, 0x0101, 0x0300, 0x1010, 0x1200, 0x1308, 0x167f, 0x3207, 0x4001, 0x4100, 0x4120, 0x4201, 0x4300,
      0xffff].all (fun w => decide (decodeUw w = .error .reservedUop)) = true := by decide

theorem test_decode_lengths :
    decodeBytes [0x01] = .error .badLength ∧ decodeBytes [0x00, 0x22] = .ok .ser
      ∧ decodeBytes [0x8c, 0, 0, 0, 0x92] = .ok (.wr 18 140) := by decide

theorem test_encode :
    encode (.wr 18 140) = .ht 0x920000008c ∧ encode (.rd 21) = .ht 0x1500000000 ∧ encode .xform4 = .cw 1
      ∧ encode (.rotl32 1 12) = .uw 0x122c ∧ encode (.bshift 12) = .uw 0x410c := by decide

theorem test_table_word :
    decodeTableWord 40 0x9400000001 = some (.wr 20 1) ∧ decodeTableWord 32 1 = some .xform4
      ∧ decodeTableWord 16 0x1606 = some (.dblrnd 6) ∧ decodeTableWord 16 0x1200 = none := by decide

/-- The step runs the word that withFetchWord places, as the first after reset: a host write, and a micro-operation. -/
theorem test_fetch_word :
    seen (step (State.reset.withFetchWord 40 0x920000008c)) (·.nbytes) = some 140#32
      ∧ seen (step (State.reset.withFetchWord 16 0x3200)) (·.work.k) = some 5#3 := by decide +kernel

/-! ### Host transactions -/

theorem test_wr_cs : seen (exec (.wr 15 0xdeadbeef) State.reset) (fun t => (t.cs[15], t.csSet[15], t.csSet[14]))
    = some (0xdeadbeef#32, true, false) := by decide +kernel

/-- R24, R200: SRC keeps the low AW bits. -/
theorem test_wr_src_masked :
    seen (exec (.wr 16 0x12345678) { State.reset with platform := ⟨16, []⟩ }) (·.src) = some 0x5678#32 := by
  decide +kernel

theorem test_rd_cmd_status :
    seen (exec (.rd 20) { State.reset with statusDone := true }) (·.replies) = some [0#32]
      ∧ seen (exec (.rd 21) { State.reset with statusDone := true }) (·.replies) = some [1#32] := by decide +kernel

theorem test_rd_cs : seen (exec (.rd 12) (ready 0x1000 0x2000 140 20)) (·.replies) = some [1#32] := by decide +kernel

/-! ### The caller's stores: R36, R64 -/

/-- Two bytes at 0x1000, byte j at 0x1000 + j (R55), also where the engine may only read. -/
theorem test_caller_store :
    seen (step { State.reset with
        platform := ⟨16, [⟨0, 0x2000, .ordinary, true, false⟩]⟩
        inputs := [.callerStore 0x1000 [7, 8], .command 1] }) (fun t => (t.mem, t.inputs, t.history))
      = some ([(0x1000, 7), (0x1001, 8)], [.command 1], []) := by decide +kernel

/-- R50, R52: outside the data space, and where no memory is. -/
theorem test_caller_store_stops :
    fault? (step { State.reset with inputs := [.callerStore 0xffffffff [7, 8]] }) = some .outOfSpace
      ∧ fault? (step { State.reset with platform := ⟨32, []⟩, inputs := [.callerStore 0 [7]] }) = some .notMemory := by
  decide +kernel

/-! ### Admission: V22, P5 -/

theorem test_admission_length :
    (ready 0x1000 0x2000 64 20).admission = some .len ∧ (ready 0x1000 0x2000 65 20).admission = none
      ∧ (ready 0x1000 0x2000 256 20).admission = none ∧ (ready 0x1000 0x2000 257 20).admission = some .len
      ∧ (ready 0x1000 0x2000 0x0001008c 20).admission = some .len ∧ (ready 0x1000 0x2000 64 7).admission = some .len := by
  decide +kernel

theorem test_admission_rounds :
    (ready 0x1000 0x2000 140 0).admission = some .rounds ∧ (ready 0x1000 0x2000 140 7).admission = some .rounds
      ∧ (ready 0x1000 0x2000 140 2).admission = none ∧ (ready 0x1000 0x2000 140 254).admission = none
      ∧ (ready 0x1000 0x2000 140 0x114).admission = some .rounds := by decide +kernel

theorem test_admission_range :
    (ready 0xffffffc0 0x2000 65 20).admission = some .range ∧ (ready 0xffffffbf 0x2000 65 20).admission = none
      ∧ { ready 0x1000 0x2000 140 20 with dstSet := false }.admission = some .range := by decide +kernel

theorem test_admission_memory :
    { ready 0x1000 0x2000 140 20 with
        platform := ⟨32, [⟨0x208b, 1, .ordinary, true, false⟩, ⟨0, 2 ^ 32, .ordinary, true, true⟩]⟩ }.admission
      = some .memory := by decide +kernel

theorem test_admission_regions :
    (ready 0x1000 0x1000 140 20).admission = none ∧ (ready 0x1000 0x1001 140 20).admission = some .aliasing
      ∧ (ready 0x1000 0xff0 140 20).admission = some .aliasing ∧ (ready 0x1000 0x108c 140 20).admission = none := by
  decide +kernel

theorem test_admission_cipher_state :
    { ready 0x1000 0x2000 140 20 with csSet := (Vector.replicate 16 true).set 7 false }.admission = some .csUnset := by
  decide +kernel

theorem test_launch_after_reset : refusal? (exec (.wr 20 1) State.reset) = some .len := by decide +kernel

theorem test_reserved_command :
    refusal? (exec (.wr 20 0) (ready 0x1000 0x2000 140 20)) = some .badCmd
      ∧ refusal? (exec (.wr 20 0x11) (ready 0x1000 0x2000 140 20)) = some .badCmd := by decide +kernel

theorem test_undefined_register :
    refusal? (exec (.wr 22 0) State.reset) = some .badReg ∧ refusal? (exec (.rd 127) State.reset) = some .badReg := by decide +kernel

/-! ### A whole command -/

/-- V25: all of the Cipher State 0, 2 rounds: bytes 0 to 63 of the destination stay zero, word 0 of block 1 is 11000000. The
data is zero, so the output is the keystream; n = 68 is a partial exit with r = 4. -/
theorem test_xform4_degenerate :
    seen (exec .xform4 { ready 0x1000 0x2000 68 2 with cs := Vector.replicate 16 0 }) (fun t => (t.mem, t.statusDone))
      = some ([(0x2043, 0x11)], true) := by decide +kernel

/-- V14, n = 96: the exact exit's access trace. -/
theorem test_xform4_trace :
    seen (exec .xform4 (ready 0x1000 0x2000 96 2)) (fun t => accesses t.history)
      = some [.read 0x1000, .read 0x1020, .write 0x2000, .read 0x1040, .write 0x2020, .write 0x2040] := by
  decide +kernel

/-! ### Control micro-operations -/

theorem test_latch :
    seen (exec .latch { ready 0x1000 0x2000 140 20 with upc := some 0, statusDone := true })
        (fun t => (t.work.n, t.work.nr, t.work.s, t.statusDone, t.upc))
      = some (140#9, 20#8, 0x1000#32, false, some 1) := by decide +kernel

/-- V6: the counter wraps, word 13 takes no carry. -/
theorem test_derive :
    seen (exec .derive { running with cs := csV1.set 12 0xfffffffe })
        (fun t => (t.work.m.toList.map (·[12]), t.work.m[3][13]))
      = some ([0xfffffffe#32, 0xffffffff, 0, 1], 0x09000000#32) := by decide +kernel

theorem test_done :
    seen (exec .done running) (fun t => (t.statusDone, t.upc, t.work.live.keystream)) = some (true, none, false) := by
  decide +kernel

/-! ### The round-function core -/

/-- V3, first line: a = 11111111 + 01020304. -/
theorem test_add32 :
    seen (exec (.add32 0 1) (withRoles 0x11111111 0x01020304 0x9b8d6f43 0x01234567))
      (fun t => (t.work.v[0][3], t.work.v[4][3])) = some (0x12131415#32, 0x01020304#32) := by decide +kernel

/-- R130: addition is modulo 2^32; a source that is the destination doubles. -/
theorem test_add32_wraps :
    seen (exec (.add32 2 2) (withRoles 0 0 0x80000001 0)) (·.work.v[8][0]) = some 2#32 := by decide +kernel

/-- V3, second line: d = 01234567 ^ 12131415. -/
theorem test_xor32 :
    seen (exec (.xor32 3 0) (withRoles 0x12131415 0x01020304 0x9b8d6f43 0x01234567)) (·.work.v[12][1])
      = some 0x13305172#32 := by decide +kernel

/-- V3, third line, and V2: rotl32(80000001, 7) = 000000c0. -/
theorem test_rotl32 :
    seen (exec (.rotl32 3 16) (withRoles 0 0 0 0x13305172)) (·.work.v[12][2]) = some 0x51721330#32
      ∧ seen (exec (.rotl32 1 7) (withRoles 0 0x80000001 0 0)) (·.work.v[4][2]) = some 0xc0#32 := by decide +kernel

/-- V3, whole. -/
theorem test_qr :
    seen (exec (.qr 0) (withRoles 0x11111111 0x01020304 0x9b8d6f43 0x01234567))
        (fun t => (t.work.v[0][0], t.work.v[4][0], t.work.v[8][0], t.work.v[12][0]))
      = some (0xea2a92f4#32, 0xcb1cf8ce#32, 0x4581472e#32, 0x5881c4bb#32) := by decide +kernel

/-- V4, all ones. -/
theorem test_qr_ones :
    seen (exec (.qr 0) (withRoles 0xffffffff 0xffffffff 0xffffffff 0xffffffff))
        (fun t => (t.work.v[0][0], t.work.v[4][0], t.work.v[8][0], t.work.v[12][0]))
      = some (0xf0000ffd#32, 0x88790878#32, 0x0110fdef#32, 0x010ffdf0#32) := by decide +kernel

/-- The state after DERIVE and ILV on the Cipher State of V1. -/
def mixed : State :=
  { running with work := { running.work with v := interleave (deriveStates csV1), v0 := interleave (deriveStates csV1) } }

/-- V5: words 0, 5, 10, 15 and the counter word of blocks 0 and 1 after COLRND. -/
theorem test_colrnd :
    seen (exec .colrnd mixed) (fun t =>
        (t.work.v[0][0], t.work.v[5][0], t.work.v[10][0], t.work.v[15][0], t.work.v[12][1]))
      = some (0xabbaa25c#32, 0x1c7e64f6#32, 0xbf8a9ac9#32, 0x52a647f1#32, 0xddc62e62#32) := by decide +kernel

/-- V5: DIAGRND on the lanes that COLRND left gives the double round. -/
theorem test_diagrnd :
    seen (exec .diagrnd (mixed.setLanes (columnRound mixed.work.v))) (fun t => (t.work.v[0][0], t.work.v[15][1], t.upc))
      = some (0xcd52e917#32, 0xf183887e#32, some 0) := by decide +kernel

/-- V5: DBLRND 0, words 0, 7, 12 of block 0, word 8 of block 1. -/
theorem test_dblrnd :
    seen (exec (.dblrnd 0) mixed) (fun t =>
        (t.work.v[0][0], t.work.v[7][0], t.work.v[12][0], t.work.v[8][1], t.upc))
      = some (0xcd52e917#32, 0x316c801a#32, 0x6b0d58a3#32, 0x51faea61#32, some 1) := by decide +kernel

/-- V7, one word: 837778ab + 61707865. -/
theorem test_addorig :
    seen (exec .addorig (mixed.setLanes (mixed.work.v.set 0 (Vector.replicate 4 0x837778ab)))) (·.work.v[0][0])
      = some 0xe4e7f110#32 := by decide +kernel

/-! ### Interleave, de-interleave, serialise -/

/-- The matrices of V8. -/
def matricesV8 : Matrices := Vector.ofFn fun b => Vector.ofFn fun i => BitVec.ofNat 32 (0x100 * b.val + i.val)

theorem test_ilv :
    seen (exec .ilv { running with work := { running.work with m := matricesV8 } })
        (fun t => (t.work.v[5], t.work.v0[12]))
      = some (#v[0x005, 0x105, 0x205, 0x305], #v[0x00c, 0x10c, 0x20c, 0x30c]) := by decide +kernel

theorem test_dlv :
    seen (exec .dlv { running with work := { running.work with v := interleave matricesV8 } }) (·.work.m[2][12])
      = some 0x20c#32 := by decide +kernel

/-- V9: words 0 and 1 of block 0, word 15 of block 3. -/
theorem test_ser :
    seen (exec .ser { running with work := { running.work with
        m := (matricesV8.set 0 ((matricesV8[0].set 0 0xe4e7f110).set 1 0x15593bd1)).set 3
          (matricesV8[3].set 15 0xd81a6e7f) } })
        (fun t => (t.work.ks.toList.take 8, t.work.ks.toList.drop 252))
      = some ([0x10, 0xf1, 0xe7, 0xe4, 0xd1, 0x3b, 0x59, 0x15], [0x7f, 0x6e, 0x1a, 0xd8]) := by decide +kernel

/-! ### The walk: V15 -/

theorem test_walk : seen (exec .walk { running with work := { running.work with n := 256 } })
    (fun t => (t.work.rem, t.work.k)) = some (0x100#10, 0#3) := by decide +kernel

/-- n = 140 at XSTEP 4: 12 - 32 = -20 = 0x3EC, (Z, N) = (0, 1), BSHIFT 12, XPART 4, XPREV 4, DONE. -/
theorem test_xstep_partial :
    seen (exec (.xstep 4) (withRem 12)) (fun t => (t.work.rem, t.work.z, t.work.neg, t.seq))
      = some (0x3ec#10, false, true, [0x410c#16, 0x4204, 0x4304, 0x0f00]) := by decide +kernel

/-- n = 96 at XSTEP 2: 32 - 32 = 0, (Z, N) = (1, 0), XEXACT 2; at XSTEP 1: 32 left, XFULL 1, XSTEP 2. -/
theorem test_xstep_exact_and_full :
    seen (exec (.xstep 2) (withRem 32)) (fun t => (t.work.z, t.work.neg, t.seq))
        = some (true, false, [0x4002#16, 0x0f00])
      ∧ seen (exec (.xstep 1) (withRem 64)) (fun t => (t.work.z, t.work.neg, t.seq))
        = some (false, false, [0x3201#16, 0x3102]) := by decide +kernel

/-- XFULL 3, source byte 5 of the sub-chunk 0xbf (V17's P), keystream byte 96 + 5: PEND, the store of the old PEND to
sub-chunk 2, k counted on. -/
theorem test_xfull :
    seen (exec (.xfull 3) { withRegions 0x1000 0x2000 with mem := [(0x1065, 0xbf)] })
        (fun t => (t.work.pend[5], t.work.pend[0], Memory.get t.mem 0x2040, Memory.get t.mem 0x205f,
          Memory.get t.mem 0x2060, t.work.k))
      = some (0xda#8, 0x60#8, 0xaa#8, 0xaa#8, 0#8, 5#3) := by decide +kernel

/-- XFULL 0 stores nothing (R169). -/
theorem test_xfull_zero : seen (exec (.xfull 0) (withRegions 0x1000 0x2000)) (·.mem) = some [] := by decide +kernel

/-! ### The tail -/

/-- R181: sub-chunk K - 1 from PEND, sub-chunk K from source and keystream. -/
theorem test_xexact :
    seen (exec (.xexact 2) { withRegions 0x1000 0x2000 with mem := [(0x1040, 0x0f)] })
        (fun t => (Memory.get t.mem 0x2020, Memory.get t.mem 0x203f, Memory.get t.mem 0x2040, Memory.get t.mem 0x205f,
          Memory.get t.mem 0x2060))
      = some (0xaa#8, 0xaa#8, 0x4f#8, 0x5f#8, 0#8) := by decide +kernel

/-- V16's shape, k = 4 and r = 12: T = KS[108 .. 140). -/
theorem test_bshift :
    seen (exec (.bshift 12) (withRegions 0x1000 0x2000)) (fun t => (t.work.t[0], t.work.t[19], t.work.t[20], t.work.t[31]))
      = some (108#8, 127#8, 128#8, 139#8) := by decide +kernel

/-- n = 140: the window is offsets 108 to 139. -/
theorem test_xpart :
    seen (exec (.xpart 4) { withRegions 0x1000 0x2000 with mem := [(0x106c, 0x0f)] })
        (fun t => (Memory.get t.mem 0x206b, Memory.get t.mem 0x206c, Memory.get t.mem 0x208b, Memory.get t.mem 0x208c))
      = some (0#8, 0x5a#8, 0x55#8, 0#8) := by decide +kernel

/-- Sub-chunk K - 1 = 3 is offsets 96 to 127. -/
theorem test_xprev :
    seen (exec (.xprev 4) (withRegions 0x1000 0x2000))
        (fun t => (Memory.get t.mem 0x205f, Memory.get t.mem 0x2060, Memory.get t.mem 0x207f, Memory.get t.mem 0x2080))
      = some (0#8, 0xaa#8, 0xaa#8, 0#8) := by decide +kernel

/-! ### The host's side: V27, R203 -/

/-- R94: XFORM4 with operands sets a changed Cipher State first, then launches; an operand of 2^32 fits no transaction. -/
theorem test_xform4_call :
    seen (xform4Call csV1 0x1000 0x2000 2 65 State.reset) (fun t => (t.cs, t.statusDone, t.nbytes))
        = some (csV1, true, 65#32)
      ∧ fault? (xform4Call csV1 0x100000000 0x2000 2 65 State.reset) = some .operandTooWide := by decide +kernel

/-- CTRADV 4 from fffffffe gives 00000002. -/
theorem test_counter_wraps :
    seen (counterAdvance 4 { ready 0x1000 0x2000 140 20 with cs := csV1.set 12 0xfffffffe }) (·.cs[12]) = some 2#32 := by
  decide +kernel

/-- V27: len 0 calls nothing, len 1 goes through the staging buffer and advances by 1. -/
theorem test_stream_short :
    seen (stream 0x1000 0x2000 2 0 (ready 0 0 0 0)) (·.cs[12]) = some 1#32
      ∧ seen (stream 0x1000 0x2000 2 1 (ready 0 0 0 0)) (·.cs[12]) = some 2#32 := by decide +kernel

/-! ### Witnesses: what meets the hypotheses of each statement -/

/-- A next state that an evaluation shows. -/
theorem next_of_isSome {r : Result} (h : (nextState? r).isSome = true) : ∃ t, r = .next t := by
  cases r with
  | next t => exact ⟨t, rfl⟩
  | fault _ => cases h
  | refused _ => cases h

/-- A small admitted command: n = 65, two rounds, disjoint regions. -/
def small : State := ready 0x1000 0x2000 65 2

/-- The same operands in place, over memory that is not all zero. -/
def smallInPlace : State := { ready 0x1000 0x1000 65 2 with mem := [(0x1000, 7)] }

/-- DecodeEncodeRoundTrip: every check of WellFormed at a boundary. -/
theorem witness_DecodeEncodeRoundTrip :
    [Instr.wr 127 0xffffffff, .rd 0, .xform4, .rotl32 0 1, .rotl32 3 31, .dblrnd 0, .dblrnd 126, .xfull 0, .xfull 6,
      .xexact 2, .xexact 7, .bshift 1, .bshift 31, .xpart 2, .xpart 7, .xprev 2, .xprev 7, .qr 7, .add32 3 3].all
      (·.wellFormed) = true := by decide

/-- EncodeDecodeRoundTrip. -/
theorem witness_EncodeDecodeRoundTrip :
    decode (.ht 0x1500000000) = .ok (.rd 21) ∧ decode (.uw 0x167e) = .ok (.dblrnd 126) := by decide

/-- ReservedCommandRefused: 0 and 2, the values next to 1. -/
theorem witness_ReservedCommandRefused : State.reset.upc = none ∧ (0#32 ≠ 1#32) ∧ (2#32 ≠ 1#32) := by decide

/-- UndefinedRegisterRefused: the first and the last undefined index; a read with DATA 1. -/
theorem witness_UndefinedRegisterRefused :
    State.reset.upc = none ∧ 22 ≤ (22#7).toNat ∧ 22 ≤ (127#7).toNat
      ∧ (0x0c00000001#40).extractLsb' 39 1 = 0#1 ∧ (0x0c00000001#40).extractLsb' 0 32 ≠ 0#32 := by decide

/-- WriteTransaction, ReadBackAfterWrite, HostPseudoInstructions, AdmissionOrder: an idle engine, the last defined index
below 20, data other than 1. -/
theorem witness_idle : State.reset.upc = none ∧ (19#7).toNat < 20 ∧ (0#32 ≠ 1#32) ∧ 22 ≤ (22#7).toNat := by decide

/-- ReadTransaction: all of CS, SRC and DST written, indexes 17 and 22. -/
theorem witness_ReadTransaction :
    small.upc = none ∧ small.csSet[0] = true ∧ small.csSet[15] = true ∧ small.srcSet = true ∧ small.dstSet = true
      ∧ 22 ≤ (22#7).toNat ∧ (17#7).toNat < 18 := by decide

/-- HostPseudoInstructions: the counter word written. -/
theorem witness_HostPseudoInstructions : small.upc = none ∧ small.csSet[12] = true := by decide

/-- HostPseudoInstructions: operands that fit and one that does not; the caller's store to ordinary memory. -/
theorem witness_HostPseudoInstructions_operands :
    0xffffffff < 2 ^ 32 ∧ 2 ^ 32 ≤ 0x100000000
      ∧ { small with inputs := [.callerStore 0xffffffff [1]] }.inputs = .callerStore 0xffffffff [1] :: []
      ∧ 0xffffffff + 0 < 2 ^ small.platform.aw ∧ small.platform.ordinary true (0xffffffff + 0) = true := by decide +kernel

/-- ResetEventEffect. -/
theorem witness_ResetEventEffect :
    { small with inputs := [.reset] }.upc = none ∧ { small with inputs := [.reset] }.inputs = .reset :: [] := by decide

/-- IdleAfterReset. -/
theorem witness_IdleAfterReset : State.reset.upc = none ∧ State.reset.inputs = [] := by decide

/-- AdmissionOrder, LEN at both ends, and ROUNDS. -/
theorem witness_AdmissionOrder_first :
    (¬ (ready 0x1000 0x2000 64 2).LengthOk) ∧ (¬ (ready 0x1000 0x2000 257 2).LengthOk)
      ∧ ((ready 0x1000 0x2000 65 255).LengthOk ∧ ¬ (ready 0x1000 0x2000 65 255).RoundsOk) := by decide +kernel

/-- AdmissionOrder, RANGE: a region one byte past the top of the space. -/
theorem witness_AdmissionOrder_range :
    (ready 0xffffffc0 0x2000 65 2).LengthOk ∧ (ready 0xffffffc0 0x2000 65 2).RoundsOk
      ∧ ¬ (ready 0xffffffc0 0x2000 65 2).RangeOk := by decide +kernel

/-- AdmissionOrder, MEM: no memory at all. -/
theorem witness_AdmissionOrder_memory :
    { small with platform := ⟨32, []⟩ }.LengthOk ∧ { small with platform := ⟨32, []⟩ }.RoundsOk
      ∧ { small with platform := ⟨32, []⟩ }.RangeOk ∧ ¬ { small with platform := ⟨32, []⟩ }.MemoryOk := by decide +kernel

/-- AdmissionOrder, ALIAS: regions that overlap by one byte. -/
theorem witness_AdmissionOrder_regions :
    (ready 0x1000 0x1040 65 2).LengthOk ∧ (ready 0x1000 0x1040 65 2).RoundsOk ∧ (ready 0x1000 0x1040 65 2).RangeOk
      ∧ (ready 0x1000 0x1040 65 2).MemoryOk ∧ ¬ (ready 0x1000 0x1040 65 2).RegionsOk := by decide +kernel

/-- AdmissionOrder, CSUNSET. -/
theorem witness_AdmissionOrder_cipher :
    { small with csSet := Vector.replicate 16 false }.LengthOk ∧ { small with csSet := Vector.replicate 16 false }.RoundsOk
      ∧ { small with csSet := Vector.replicate 16 false }.RangeOk
      ∧ { small with csSet := Vector.replicate 16 false }.MemoryOk
      ∧ { small with csSet := Vector.replicate 16 false }.RegionsOk
      ∧ ¬ { small with csSet := Vector.replicate 16 false }.CipherOk := by decide +kernel

/-- AdmissionOrder, all six hold, with adjacent regions. -/
theorem witness_AdmissionOrder_admitted :
    (ready 0x1000 0x1041 65 2).LengthOk ∧ (ready 0x1000 0x1041 65 2).RoundsOk ∧ (ready 0x1000 0x1041 65 2).RangeOk
      ∧ (ready 0x1000 0x1041 65 2).MemoryOk ∧ (ready 0x1000 0x1041 65 2).RegionsOk
      ∧ (ready 0x1000 0x1041 65 2).CipherOk := by decide +kernel

/-- BoundaryByteCounts: 65 and 256. -/
theorem witness_BoundaryByteCounts :
    small.upc = none ∧ small.RoundsOk ∧ small.RangeOk ∧ small.MemoryOk ∧ small.RegionsOk ∧ small.CipherOk
      ∧ (ready 0x1000 0x2000 256 254).RoundsOk ∧ (ready 0x1000 0x2000 256 254).RangeOk
      ∧ (ready 0x1000 0x2000 256 254).MemoryOk ∧ (ready 0x1000 0x2000 256 254).RegionsOk
      ∧ (ready 0x1000 0x2000 256 254).CipherOk := by decide +kernel

/-- CommandXorsKeystream, CommandIsItsMicroSteps, CommandCompletesOrIsRefused: the smallest and the largest byte count. -/
theorem witness_Ready :
    small.Ready ∧ Memory.wf small.mem = true ∧ (ready 0x1000 0x1000 256 254).Ready
      ∧ Memory.wf (ready 0x1000 0x1000 256 254).mem = true := by decide +kernel

/-- CommandCompletesOrIsRefused: a launch that is refused. -/
theorem witness_CommandCompletesOrIsRefused : State.reset.upc = none ∧ State.reset.admission = some .len := by decide +kernel

/-- CommandFrame, CommandIssuesUseq, CommandAccessSchedule, CommandStaysInside, CommandCounts: a command that completes. -/
theorem witness_completed_command : small.upc = none ∧ ∃ t, exec .xform4 small = .next t :=
  ⟨rfl, next_of_isSome (by decide +kernel)⟩

/-- TraceIsDataIndependent: two commands with the same operands on different data and different Cipher States. -/
theorem witness_TraceIsDataIndependent :
    ∃ s₁ s₂ t₁ t₂ : State, s₁.upc = none ∧ s₂.upc = none ∧ s₁.src = s₂.src ∧ s₁.dst = s₂.dst ∧ s₁.nbytes = s₂.nbytes
      ∧ s₁.rounds = s₂.rounds ∧ s₁.cs ≠ s₂.cs ∧ s₁.mem ≠ s₂.mem
      ∧ exec .xform4 s₁ = .next t₁ ∧ exec .xform4 s₂ = .next t₂ := by
  obtain ⟨t₁, h₁⟩ := next_of_isSome (r := exec .xform4 small) (by decide +kernel)
  obtain ⟨t₂, h₂⟩ := next_of_isSome
    (r := exec .xform4 { small with cs := Vector.replicate 16 0, mem := [(0x1000, 1)] }) (by decide +kernel)
  exact ⟨small, { small with cs := Vector.replicate 16 0, mem := [(0x1000, 1)] }, t₁, t₂, rfl, rfl, rfl, rfl, rfl, rfl, by decide, by decide, h₁, h₂⟩

/-- CommandTwiceRestores. -/
theorem witness_CommandTwiceRestores :
    smallInPlace.Ready ∧ smallInPlace.src = smallInPlace.dst ∧ Memory.wf smallInPlace.mem = true := by decide +kernel

/-- CommandTwiceRestores, three different regions: the second command is ready after the first. -/
theorem witness_CommandTwiceRestores_elsewhere :
    ∃ t u : State, small.Ready ∧ Memory.wf small.mem = true ∧ exec .xform4 small = .next t
      ∧ u = { t with src := small.dst, dst := 0x3000 } ∧ u.Ready := by
  have h : ((nextState? (exec .xform4 small)).any fun t =>
      decide (State.Ready { t with src := small.dst, dst := 0x3000 })) = true := by decide +kernel
  cases he : exec .xform4 small with
  | next t =>
    rw [he] at h
    exact ⟨t, _, by decide +kernel, by decide, rfl, rfl, of_decide_eq_true h⟩
  | fault _ => rw [he] at h; cases h
  | refused _ => rw [he] at h; cases h

/-- ShorterCommandIsPrefix: 65 and 256 bytes. -/
theorem witness_ShorterCommandIsPrefix :
    small = { ready 0x1000 0x2000 256 2 with nbytes := 65 } ∧ small.Ready ∧ (ready 0x1000 0x2000 256 2).Ready
      ∧ small.byteCount ≤ (ready 0x1000 0x2000 256 2).byteCount
      ∧ Memory.wf (ready 0x1000 0x2000 256 2).mem = true := by decide +kernel

/-- EngineWritesNoHostRegister: a step of a running command. -/
theorem witness_EngineWritesNoHostRegister :
    small.launched.upc ≠ none ∧ ∃ t, step small.launched = .next t := ⟨by decide, next_of_isSome (by decide +kernel)⟩

/-- FlagsHaveOneWriter: XFULL, which writes neither; XSTEP, which writes Z and N; DONE, which writes STATUS. -/
theorem witness_FlagsHaveOneWriter :
    (∃ t, exec (.xfull 1) (withRegions 0x1000 0x2000) = .next t) ∧ (∃ t, exec (.xstep 0) running = .next t)
      ∧ (∃ t, exec .done running = .next t) ∧ (∀ k, Instr.xfull 1 ≠ .xstep k) ∧ Instr.xfull 1 ≠ .latch
      ∧ Instr.xfull 1 ≠ .done ∧ Instr.isUop (.xfull 1) = true :=
  ⟨next_of_isSome (by decide +kernel), next_of_isSome (by decide +kernel), next_of_isSome (by decide +kernel),
    by decide, by decide, by decide, rfl⟩

/-- OnlyOutputUnitsStore: a micro-operation and a host transaction. -/
theorem witness_OnlyOutputUnitsStore :
    (∃ t, exec .ser running = .next t) ∧ (∃ t, exec (.wr 16 1) small = .next t)
      ∧ ∀ i ∈ [Instr.ser, .wr 16 1], (∀ k, i ≠ .xfull k) ∧ (∀ kx, i ≠ .xexact kx ∧ i ≠ .xpart kx ∧ i ≠ .xprev kx)
        ∧ i ≠ .xform4 ∧ ∀ data, i ≠ .wr 20#7 data := by
  refine ⟨next_of_isSome (by decide +kernel), next_of_isSome (by decide +kernel), ?_⟩
  intro i hi
  simp only [List.mem_cons, List.not_mem_nil, or_false] at hi
  rcases hi with rfl | rfl <;> simp

/-- A running engine with one piece of working state dead. -/
def lacking (l : Live) : State := { running with work := { running.work with live := l } }

/-- DeadReadsFault: for every micro-operation that reads it, each element as the first one that is dead, with operands at
the ends of their ranges. -/
theorem witness_DeadReadsFault :
    ([Instr.latch, .derive, .done, .dblrnd 126, .addorig, .ilv, .dlv, .ser, .walk, .xstep 7, .xfull 6, .xexact 7,
        .bshift 31, .xpart 2, .xprev 7].all fun i => State.reset.firstDead i == some .upc) = true
      ∧ ([Instr.add32 0 1, .xor32 3 0, .rotl32 1 31].all fun i => State.reset.firstDead i == some .slot) = true
      ∧ ([Instr.add32 0 1, .xor32 3 0, .rotl32 1 1, .qr 7, .colrnd, .diagrnd, .dblrnd 0, .addorig, .dlv].all fun i =>
          (lacking { Live.all with lanes := false }).firstDead i == some .lanes) = true
      ∧ (lacking { Live.all with original := false }).firstDead .addorig = some .original
      ∧ ([Instr.ilv, .ser].all fun i => (lacking { Live.all with matrices := false }).firstDead i == some .matrices) = true
      ∧ ([Instr.walk, .xfull 0, .xexact 2, .xpart 7, .xprev 2].all fun i =>
          (lacking { Live.all with latched := false }).firstDead i == some .latched) = true
      ∧ (lacking { Live.all with remaining := false }).firstDead (.xstep 0) = some .remaining
      ∧ ([Instr.xfull 6, .xexact 7, .bshift 1].all fun i =>
          (lacking { Live.all with keystream := false }).firstDead i == some .keystream) = true
      ∧ ([Instr.xfull 0, .bshift 31].all fun i =>
          (lacking { Live.all with subchunk := false }).firstDead i == some .subchunk) = true
      ∧ ([Instr.xexact 2, .xprev 7].all fun i =>
          (lacking { Live.all with pending := false }).firstDead i == some .pending) = true
      ∧ (lacking { Live.all with shifted := false }).firstDead (.xpart 2) = some .shifted := by decide +kernel

/-- DeadReadsFault: XFULL 1 and 6 on a dead PEND. -/
theorem witness_DeadReadsFault_pending :
    ∀ k ∈ [1#3, 6#3], k ≠ 0#3 ∧ k.toNat ≤ 6 ∧ (lacking { Live.all with pending := false }).firstDead (.xfull k) = none
      ∧ (lacking { Live.all with pending := false }).CanAccess false (0 + 32 * k.toNat) := by decide +kernel

/-- ReservedAndForbiddenStop: a running engine with every element live and no memory; k and K at their ends. -/
theorem witness_ReservedAndForbiddenStop :
    { running with platform := ⟨32, []⟩ }.upc ≠ none ∧ { running with platform := ⟨32, []⟩ }.work.live = Live.all
      ∧ (¬ { running with platform := ⟨32, []⟩ }.CanAccess false 0) ∧ (¬ { running with platform := ⟨32, []⟩ }.CanAccess true 32)
      ∧ (¬ { running with platform := ⟨32, []⟩ }.CanAccess true (0 + (140 - 32)))
      ∧ (0#3).toNat ≤ 6 ∧ (6#3).toNat ≤ 6 ∧ 2 ≤ (2#3).toNat ∧ 2 ≤ (7#3).toNat ∧ (1#3).toNat < 2
      ∧ 32 ≤ running.work.n.toNat := by decide +kernel

/-- LatchEffect, DeriveEffect, DoneEffect, AddOriginalEffect, LayoutEffects, LayoutsAreInverse, WalkEffect,
RoundsAreTheirQuarterRounds, LaneOperations, QuarterRoundEffect: a running engine with every element live, in a slot, with
the last index of DBLRND. -/
theorem witness_running :
    running.upc = some 0 ∧ running.work.live = Live.all ∧ running.work.slot = some 0 ∧ (126#7).toNat ≤ 126
      ∧ (1#5 ≠ 0#5) := by decide

/-- WalkStepEffect: the three arms, and the lowest count whose difference is in range. -/
theorem witness_WalkStepEffect :
    (withRem 33).upc = some 0 ∧ (withRem 33).work.live.remaining = true
      ∧ seen (exec (.xstep 0) (withRem 33)) (·.work.rem.toInt) = some 1
      ∧ seen (exec (.xstep 0) (withRem 32)) (·.work.rem.toInt) = some 0
      ∧ seen (exec (.xstep 0) (withRem 31)) (·.work.rem.toInt) = some (-1)
      ∧ (-480 ≤ (withRem (BitVec.ofInt 10 (-480))).work.rem.toInt) := by decide +kernel

/-- FullSubchunkEffect: k = 0, 1 and 6. -/
theorem witness_FullSubchunkEffect :
    ∀ k ∈ [0#3, 1#3, 6#3], (withRegions 0x1000 0x2000).upc = some 0 ∧ k.toNat ≤ 6
      ∧ (withRegions 0x1000 0x2000).work.live = Live.all
      ∧ (withRegions 0x1000 0x2000).CanAccess false (0x1000 + 32 * k.toNat)
      ∧ (withRegions 0x1000 0x2000).CanAccess true (0x2000 + 32 * (k.toNat - 1))
      ∧ Memory.wf (withRegions 0x1000 0x2000).mem = true := by decide +kernel

/-- ExactExitEffect, PreviousStoreEffect: K = 2 and 7. -/
theorem witness_ExactExitEffect :
    ∀ kx ∈ [2#3, 7#3], (withRegions 0x1000 0x1000).upc = some 0 ∧ 2 ≤ kx.toNat
      ∧ (withRegions 0x1000 0x1000).work.live = Live.all
      ∧ (withRegions 0x1000 0x1000).CanAccess false (0x1000 + 32 * kx.toNat)
      ∧ (withRegions 0x1000 0x1000).CanAccess true (0x1000 + 32 * (kx.toNat - 1))
      ∧ (withRegions 0x1000 0x1000).CanAccess true (0x1000 + 32 * kx.toNat) := by decide +kernel

/-- ByteShiftEffect: r = 1 and 31. -/
theorem witness_ByteShiftEffect :
    running.upc = some 0 ∧ (1#5 ≠ 0#5) ∧ (31#5 ≠ 0#5) ∧ running.work.k ≠ 0#3 ∧ running.work.live = Live.all := by decide

/-- PartialStoreEffect: n = 140. -/
theorem witness_PartialStoreEffect :
    (withRegions 0x1000 0x2000).upc = some 0 ∧ 2 ≤ (4#3).toNat ∧ 32 ≤ (withRegions 0x1000 0x2000).work.n.toNat
      ∧ (withRegions 0x1000 0x2000).work.live = Live.all
      ∧ (withRegions 0x1000 0x2000).CanAccess false (0x1000 + (140 - 32))
      ∧ (withRegions 0x1000 0x2000).CanAccess true (0x2000 + (140 - 32)) := by decide +kernel

/-- A partial exit under way, n = 140, over memory of zeros. -/
def atExit (s d : Word) : State :=
  { running with work := { (withRegions s d).work with
      t := windowKeystream (withRegions s d).work.ks 4 12
      pend := chunkXor (Memory.load [] (s.toNat + 96)) (keystreamChunk (withRegions s d).work.ks 3) } }

/-- OverlappingStoresEqualStaging: disjoint and adjacent. -/
theorem witness_OverlappingStoresEqualStaging :
    (atExit 0x1000 0x108c).AtPartialExit 4 12 ∧ Memory.wf (atExit 0x1000 0x108c).mem = true
      ∧ sameOrDisjoint (0x1000#32).toNat (0x108c#32).toNat 140 := by decide +kernel

/-- OverlappingStoresEqualStaging, WrongStoreOrderLeavesPlaintext: in place. -/
theorem witness_WrongStoreOrderLeavesPlaintext :
    (atExit 0x1000 0x1000).AtPartialExit 4 12 ∧ Memory.wf (atExit 0x1000 0x1000).mem = true
      ∧ (atExit 0x1000 0x1000).work.s = (atExit 0x1000 0x1000).work.d ∧ 140 - 32 ≤ 108 ∧ 108 < 32 * (4#3).toNat := by
  decide +kernel

/-- StepRunsTheNextInstruction: its four clauses. -/
theorem witness_StepRunsTheNextInstruction :
    (State.reset.withFetchWord 40 0x9400000001).upc = none
      ∧ (State.reset.withFetchWord 40 0x9400000001).inputs = .transaction 0x9400000001 :: []
      ∧ decode (.ht 0x9400000001) = .ok (.wr 20 1)
      ∧ (State.reset.withFetchWord 32 1).inputs = .command 1 :: [] ∧ decode (.cw 1) = .ok .xform4
      ∧ (State.reset.withFetchWord 16 0x2200).upc ≠ none ∧ (State.reset.withFetchWord 16 0x2200).seq = 0x2200 :: []
      ∧ decode (.uw 0x2200) = .ok .ser
      ∧ { small with inputs := [.callerStore 0 []] }.inputs = .callerStore 0 [] :: [] := by decide +kernel

/-- InvariantKeptByStep: a launch, and a micro-operation that stores. -/
theorem witness_InvariantKeptByStep :
    { small with inputs := [.transaction 0x9400000001] }.Inv
      ∧ (∃ t, step { small with inputs := [.transaction 0x9400000001] } = .next t)
      ∧ { withRegions 0x1000 0x2000 with seq := [0x3203] }.Inv
      ∧ (∃ t, step { withRegions 0x1000 0x2000 with seq := [0x3203] } = .next t) :=
  ⟨by decide +kernel, next_of_isSome (by decide +kernel), by decide +kernel, next_of_isSome (by decide +kernel)⟩

/-- SingleBlockEffect: in place and disjoint. -/
theorem witness_SingleBlockEffect :
    sameOrDisjoint 0x1000 0x1000 64 ∧ sameOrDisjoint 0x1000 0x1040 64 ∧ Memory.wf small.mem = true
      ∧ ∀ j, j < 64 → (0x1000 + j < 2 ^ small.platform.aw ∧ small.platform.ordinary false (0x1000 + j) = true)
        ∧ (0x1040 + j < 2 ^ small.platform.aw ∧ small.platform.ordinary true (0x1040 + j) = true) := by decide +kernel

/-- StreamAdvancesCounter, StreamEqualsReference: the empty stream, one that ends in each path, in place and disjoint. -/
theorem witness_StreamReady :
    small.StreamReady 0x1000 0x2000 2 0 ∧ small.StreamReady 0x1000 0x1000 254 64
      ∧ small.StreamReady 0x1000 0x2000 20 300 ∧ Memory.wf small.mem = true := by decide +kernel

end Sys2Proof.Tests
end

namespace Sys2Proof.Machine

/-! ### A command completes or is refused -/

/-- An idle engine answers XFORM4 with the outcome of the launch. -/
theorem exec_xform4_of_idle {s : State} (h : s.upc = none) : exec .xform4 s = launch s := whenIdle_of_idle h

/-- A launch that is not admitted is the refusal its admission names. -/
theorem launch_of_refused {s : State} {e : Refusal} (h : s.admission = some e) : launch s = .refused e := by
  simp [launch, h]

/-- Settles O18: an admitted launch ends in `finished` (`launch_spec`), every other one is its refusal. -/
theorem commandCompletesOrIsRefused : Obligations.CommandCompletesOrIsRefused := by
  intro s hidle
  rw [exec_xform4_of_idle hidle]
  refine ⟨fun hadm => ?_, fun e hadm => launch_of_refused hadm⟩
  obtain ⟨w, hw⟩ := launch_spec hadm
  exact ⟨_, hw, rfl, rfl, rfl, rfl⟩

/-! ### The micro-operations of a run, counted by its history -/

@[simp] theorem issuedWords_append (h₁ h₂ : List Event) :
    issuedWords (h₁ ++ h₂) = issuedWords h₁ ++ issuedWords h₂ := List.filterMap_append

section cons
variable (h : List Event) (w : BitVec 16) (a : Nat)

@[simp] theorem issuedWords_nil : issuedWords [] = [] := rfl
@[simp] theorem issuedWords_cons_issue : issuedWords (.issue w :: h) = w :: issuedWords h := rfl
@[simp] theorem issuedWords_cons_read : issuedWords (.read a :: h) = issuedWords h := rfl
@[simp] theorem issuedWords_cons_write : issuedWords (.write a :: h) = issuedWords h := rfl

end cons

@[simp] theorem issuedWords_map_issue (is : List Instr) :
    issuedWords (is.map fun i => .issue (encodeUw i)) = is.map encodeUw := by
  induction is with
  | nil => rfl
  | cons i is ih => simp [ih]

theorem issuedWords_walkTrace (src dst : Word) (k : Nat) :
    issuedWords (walkTrace src dst k) = (walkSeq k).map encodeUw := by
  induction k with
  | zero => rfl
  | succ k ih =>
    have hfull : issuedWords (fullTrace src dst k)
        = [encodeUw (.xstep (BitVec.ofNat 3 k)), encodeUw (.xfull (BitVec.ofNat 3 k))] := by
      unfold fullTrace
      split <;> rfl
    rw [walkTrace_succ, issuedWords_append, ih, hfull]
    simp [walkSeq, List.range_succ]

/-- The words a command issues are those of `useq` (R112). -/
theorem issuedWords_commandTrace (src dst : Word) (nr n : Nat) :
    issuedWords (commandTrace src dst nr n) = (useq nr n).map encodeUw := by
  have hexit : issuedWords (exitTrace src dst n) =
      (if residue n = 0 then [Instr.xexact (BitVec.ofNat 3 (exitSubchunk n))]
        else [.bshift (BitVec.ofNat 5 (residue n)), .xpart (BitVec.ofNat 3 (exitSubchunk n)),
          .xprev (BitVec.ofNat 3 (exitSubchunk n))]).map encodeUw := by
    unfold exitTrace
    split <;> rfl
  simp only [commandTrace, preambleTrace, issuedWords_append, issuedWords_map_issue, issuedWords_walkTrace,
    List.cons_append, issuedWords_cons_issue, hexit]
  simp [useq]

/-- An outcome whose history holds the words issued in the history of `s` and no more. -/
def IssuesNothing (s : State) (r : Result) : Prop :=
  ∀ t, r = .next t → issuedWords t.history = issuedWords s.history

section issuesNothing
variable {s u t : State} {f : Fault} {r : Result} {es : List WorkElem} {a : Nat} {v : Chunk}

theorem issuesNothing_fault : IssuesNothing s (.fault f) := fun _ h => nomatch h

theorem issuesNothing_next (h : issuedWords u.history = issuedWords s.history) : IssuesNothing s (.next u) := by
  rintro _ ⟨⟩
  exact h

theorem issuesNothing_reading (h : IssuesNothing s r) : IssuesNothing s (reading u es r) :=
  fun t ht => h t (reading_next ht).2

theorem issuesNothing_memRead {g : Chunk → State → Result}
    (h : IssuesNothing s (g (u.mem.load a) (u.log (.read a)))) : IssuesNothing s (memRead u a g) :=
  fun t ht => h t (memRead_next ht).2

theorem issuesNothing_memWrite {g : State → Result}
    (h : IssuesNothing s (g ({ u with mem := u.mem.store a v.toList }.log (.write a)))) :
    IssuesNothing s (memWrite u a v g) :=
  fun t ht => h t (memWrite_next ht).2

theorem issuesNothing_inSlot {g : BitVec 3 → Lanes → Lanes} : IssuesNothing s (inSlot s g) := by
  intro t ht
  obtain ⟨q, -, -, rfl⟩ := inSlot_next ht
  rfl

/-- A micro-operation logs reads and writes only: the issue of its word is the sequencer's. -/
theorem issuesNothing_execUop (i : Instr) (s : State) : IssuesNothing s (execUop i s) := by
  cases i with
  | wr | rd | xform4 => exact issuesNothing_fault
  | add32 | xor32 => exact issuesNothing_inSlot
  | latch | derive | done | qr | colrnd | diagrnd | addorig | ilv | dlv | ser | walk | xstep =>
    refine issuesNothing_reading (issuesNothing_next ?_)
    simp
  | rotl32 =>
    simp only [execUop, execRotl32]
    split
    · exact issuesNothing_fault
    · exact issuesNothing_inSlot
  | dblrnd =>
    simp only [execUop, execDblrnd]
    split
    · exact issuesNothing_fault
    · refine issuesNothing_reading (issuesNothing_next ?_)
      simp
  | xfull =>
    simp only [execUop, execXfull]
    split
    · exact issuesNothing_fault
    refine issuesNothing_reading (issuesNothing_memRead ?_)
    split
    · refine issuesNothing_next ?_
      simp
    · refine issuesNothing_reading (issuesNothing_memWrite (issuesNothing_next ?_))
      simp
  | xexact =>
    simp only [execUop, execXexact]
    split
    · refine issuesNothing_reading (issuesNothing_memRead (issuesNothing_memWrite (issuesNothing_memWrite
        (issuesNothing_next ?_))))
      simp
    · exact issuesNothing_fault
  | bshift =>
    simp only [execUop, execBshift]
    split
    · exact issuesNothing_fault
    refine issuesNothing_reading ?_
    split
    · exact issuesNothing_fault
    · refine issuesNothing_next ?_
      simp
  | xpart =>
    simp only [execUop, execXpart]
    split
    · refine issuesNothing_reading ?_
      split
      · refine issuesNothing_memRead (issuesNothing_memWrite (issuesNothing_next ?_))
        simp
      · exact issuesNothing_fault
    · exact issuesNothing_fault
  | xprev =>
    simp only [execUop, execXprev]
    split
    · refine issuesNothing_reading (issuesNothing_memWrite (issuesNothing_next ?_))
      simp
    · exact issuesNothing_fault

/-- One micro-operation of a running command issues one word. -/
theorem length_issuedWords_of_uopStep (h : uopStep s = .next t) :
    (issuedWords t.history).length = (issuedWords s.history).length + 1 := by
  unfold uopStep at h
  split at h
  · next i s₁ hi =>
    obtain ⟨w, rest, -, -, rfl⟩ := issueUop_ok hi
    rw [issuesNothing_execUop i _ t h]
    simp
  · cases h

end issuesNothing

/-! ### The command as the machine's own steps -/

section run
variable {s t u : State} {fuel k : Nat}

/-- A step of a running engine, then the run from where it leads. -/
theorem run_of_uopStep (hu : s.upc ≠ none) (h : uopStep s = .next u) :
    Host.Core.run core (k + 1) s = Host.Core.run core k u := by
  have hstep : core.step s = .next u := (step_running hu).trans h
  simp only [Host.Core.run, hstep]

/-- A command that comes to its end does so in machine steps, one for each word it issues. -/
theorem run_of_runUops (h : runUops fuel s = .next t) :
    ∃ k, (issuedWords t.history).length = (issuedWords s.history).length + k
      ∧ Host.Core.run core k s = .next t := by
  induction fuel generalizing s with
  | zero => cases h
  | succ fuel ih =>
    obtain ⟨-, rfl⟩ | ⟨hrun, u, hu, ht⟩ := runUops_next h
    · exact ⟨0, rfl, rfl⟩
    · obtain ⟨k, hk, hr⟩ := ih ht
      have hw := length_issuedWords_of_uopStep hu
      exact ⟨k + 1, by omega, (run_of_uopStep hrun hu).trans hr⟩

/-- An admitted launch is the run of the launched engine. -/
theorem launch_of_admitted (h : s.admission = none) : launch s = runUops uopBound s.launched := by
  simp [launch, h]

end run

/-- Settles O27: the steps of the launched engine are as many as the words of the command's history (`run_of_runUops`), and
those words are `useq` (`issuedWords_commandTrace`). -/
theorem commandIsItsMicroSteps : Obligations.CommandIsItsMicroSteps := by
  rintro s ⟨hidle, hadm⟩
  obtain ⟨w, hw⟩ := launch_spec hadm
  rw [exec_xform4_of_idle hidle, hw]
  rw [launch_of_admitted hadm] at hw
  obtain ⟨k, hk, hrun⟩ := run_of_runUops hw
  have hlen : k = (useq s.roundCount s.byteCount).length := by
    simp only [finished, State.launched_history, issuedWords_append, issuedWords_commandTrace, List.length_append,
      List.length_map] at hk
    simp only [State.roundCount, State.byteCount]
    omega
  rw [← hlen]
  exact hrun

/-! ### The lanes of a command, block by block -/

@[simp] theorem deinterleave_getElem (v : Lanes) (b i : Nat) (hb : b < 4) (hi : i < 16) :
    (deinterleave v)[b][i] = v[i][b] := by
  simp [deinterleave]

@[simp] theorem deinterleave_interleave (m : Matrices) : deinterleave (interleave m) = m := by
  ext b hb i hi
  simp [interleave]

section quarterRound
variable (q : BitVec 3) (v : Lanes) (b : Fin 4)

/-- The word of block b that a slot binds to each role. -/
def roleWords (role : BitVec 2) : Word := v[slotLane q role][b]

theorem forall_role {p : BitVec 2 → Prop} (h0 : p 0) (h1 : p 1) (h2 : p 2) (h3 : p 3) (role : BitVec 2) : p role := by
  have hrole : role = 0 ∨ role = 1 ∨ role = 2 ∨ role = 3 := by
    revert role
    decide
  rcases hrole with rfl | rfl | rfl | rfl <;> assumption

/-- The lanes of a slot are four different lanes. -/
theorem slotLane_injective : Function.Injective (slotLane q) := by
  revert q
  decide +kernel

/-- A lane of the slot rewritten: that role has the new word, the other three keep theirs. -/
theorem roleWords_set (role : BitVec 2) (y : Lane) :
    roleWords q (v.set (slotLane q role) y) b = Function.update (roleWords q v b) role y[b] := by
  funext r
  by_cases hr : r = role
  · subst hr
    simp [roleWords]
  · have hne : (slotLane q role).val ≠ (slotLane q r).val := fun h => hr (slotLane_injective q (Fin.ext h)).symm
    simp [roleWords, hr, hne]

theorem roleWords_laneAdd (rd rs : BitVec 2) : roleWords q (laneAdd q rd rs v) b =
    Function.update (roleWords q v b) rd (roleWords q v b rd + roleWords q v b rs) := by
  simp [laneAdd, roleWords_set, roleWords]

theorem roleWords_laneXor (rd rs : BitVec 2) : roleWords q (laneXor q rd rs v) b =
    Function.update (roleWords q v b) rd (roleWords q v b rd ^^^ roleWords q v b rs) := by
  simp [laneXor, roleWords_set, roleWords]

theorem roleWords_laneRotl (rd : BitVec 2) (c : Nat) : roleWords q (laneRotl q rd c v) b =
    Function.update (roleWords q v b) rd (rotl32 (roleWords q v b rd) c) := by
  simp [laneRotl, roleWords_set, roleWords]

/-- The twelve lane operations of QR are the quarter round on the slot's four words of each block (R133). -/
theorem slotWords_quarterRound : slotWords (quarterRound q v) q b =
    (let x := slotWords v q b; quarterWords x.1 x.2.1 x.2.2.1 x.2.2.2) := by
  show (roleWords q (quarterRound q v) b 0, roleWords q (quarterRound q v) b 1, roleWords q (quarterRound q v) b 2,
    roleWords q (quarterRound q v) b 3) = quarterWords (roleWords q v b 0) (roleWords q v b 1) (roleWords q v b 2)
      (roleWords q v b 3)
  simp [quarterRound, quarterWords, roleWords_laneAdd, roleWords_laneXor, roleWords_laneRotl]

/-- QR rewrites the lanes of its slot only. -/
theorem quarterRound_getElem_of_ne (i : Fin 16) (h : ∀ role, i ≠ slotLane q role) : (quarterRound q v)[i] = v[i] := by
  have hset (u : Lanes) (role : BitVec 2) (y : Lane) : (u.set (slotLane q role) y)[i] = u[i] :=
    Vector.getElem_set_ne _ _ fun he => h role (Fin.ext he.symm)
  simp only [quarterRound, laneAdd, laneXor, laneRotl, hset]

end quarterRound

/-- The block that has the four new words of a quarter round in their places and every other word as it was. -/
theorem eq_blockQuarter {x z : Block} {a b c d : Fin 16}
    (hz : (z[a], z[b], z[c], z[d]) = quarterWords x[a] x[b] x[c] x[d])
    (ho : ∀ i : Fin 16, i ≠ a → i ≠ b → i ≠ c → i ≠ d → z[i] = x[i]) : z = blockQuarter a b c d x := by
  refine Vector.ext fun i hi => ?_
  have hne {j : Fin 16} (h : ¬ j.val = i) : ⟨i, hi⟩ ≠ j := fun he => h (he ▸ rfl)
  simp only [blockQuarter, ← hz, Vector.getElem_set]
  split_ifs with hd hc hb ha
  · subst hd; rfl
  · subst hc; rfl
  · subst hb; rfl
  · subst ha; rfl
  · exact ho ⟨i, hi⟩ (hne ha) (hne hb) (hne hc) (hne hd)

/-- QR on the lanes is the quarter round on each block alone. -/
theorem deinterleave_quarterRound (q : BitVec 3) (v : Lanes) (b : Fin 4) :
    (deinterleave (quarterRound q v))[b] =
      blockQuarter (slotLane q 0) (slotLane q 1) (slotLane q 2) (slotLane q 3) (deinterleave v)[b] := by
  refine eq_blockQuarter ?_ fun i h0 h1 h2 h3 => ?_
  · simpa [slotWords] using slotWords_quarterRound q v b
  · have hi : ∀ role, i ≠ slotLane q role := forall_role h0 h1 h2 h3
    simpa using congrArg (·[b]) (quarterRound_getElem_of_ne q v i hi)

/-- A double round on the lanes is the double round of each block alone (R141). -/
theorem deinterleave_doubleRound (v : Lanes) (b : Fin 4) :
    (deinterleave (doubleRound v))[b] = blockDoubleRound (deinterleave v)[b] := by
  simp only [doubleRound, diagonalRound, columnRound, deinterleave_quarterRound]
  rfl

theorem deinterleave_laneRounds (n : Nat) (v : Lanes) (b : Fin 4) :
    (deinterleave (laneRounds n v))[b] = blockRounds n (deinterleave v)[b] := by
  induction n generalizing v with
  | zero => rfl
  | succ n ih => rw [laneRounds, ih, deinterleave_doubleRound, blockRounds]

/-- The input states DERIVE makes are those of the keystream function. -/
theorem deriveStates_getElem (cs : Block) (b : Fin 4) : (deriveStates cs)[b] = blockInput cs b := by
  ext i hi
  simp only [deriveStates, blockInput, Fin.getElem_fin, Vector.getElem_ofFn, Vector.getElem_set]
  by_cases h : i = 12
  · subst h
    rfl
  · simp [Fin.ext_iff, h, Ne.symm h]

theorem deinterleave_addOriginal (v w : Lanes) (b : Fin 4) : (deinterleave (addOriginal v w))[b] =
    Vector.ofFn fun i => (deinterleave v)[b][i] + (deinterleave w)[b][i] := by
  ext i hi
  simp [addOriginal]

/-- The keystream the micro-operations make is the keystream function (R111). -/
theorem commandKeystream_eq (cs : Block) (nr : Nat) : commandKeystream cs nr = keystream cs nr := by
  refine congrArg serialise (Vector.ext fun b hb => ?_)
  have hin : (deinterleave (commandLanes cs))[b] = blockInput cs b := by
    rw [commandLanes, deinterleave_interleave]
    exact deriveStates_getElem cs ⟨b, hb⟩
  have hout := deinterleave_addOriginal (laneRounds (doubleRounds nr) (commandLanes cs)) (commandLanes cs) ⟨b, hb⟩
  rw [deinterleave_laneRounds] at hout
  simp only [Fin.getElem_fin, hin] at hout
  rw [finishedLanes, hout, Vector.getElem_ofFn]
  rfl

/-! ### The memory of a command -/

/-- What a command has written so far, m being the memory at the launch: the destination bytes with these offsets are source
byte XOR keystream byte, and every other byte is as it was. -/
structure Written (m : Memory) (src dst : Nat) (ks : Vector Byte 256) (P : Nat → Prop) (m' : Memory) : Prop where
  wf : Memory.wf m' = true
  out : ∀ x : Fin 256, P x → Memory.get m' (dst + x) = Memory.get m (src + x) ^^^ ks[x]
  frame : ∀ a, (∀ x, P x → a ≠ dst + x) → Memory.get m' a = Memory.get m a

/-- The chunk is what a command has to store at offset c. -/
def IsOutput (m : Memory) (src : Nat) (ks : Vector Byte 256) (c : Nat) (y : Chunk) : Prop :=
  ∀ (x : Fin 256) (_ : c ≤ x) (_ : x < c + 32), y[x - c] = Memory.get m (src + x) ^^^ ks[x]

/-- The chunk is the keystream from byte c on. -/
def IsKeystreamAt (ks : Vector Byte 256) (c : Nat) (y : Chunk) : Prop :=
  ∀ (x : Fin 256) (_ : c ≤ x) (_ : x < c + 32), y[x - c] = ks[x]

section written
variable {m m' : Memory} {src dst n c p : Nat} {ks : Vector Byte 256} {P Q : Nat → Prop} {y : Chunk}

theorem written_nothing (hm : Memory.wf m = true) (hP : ∀ x, ¬ P x) : Written m src dst ks P m :=
  ⟨hm, fun x hx => absurd hx (hP x), fun _ _ => rfl⟩

theorem Written.congr (h : Written m src dst ks P m') (hPQ : ∀ x, P x ↔ Q x) : Written m src dst ks Q m' := by
  rwa [← funext fun x => propext (hPQ x)]

/-- The store of a chunk of output: its 32 offsets are written too. -/
theorem Written.store (h : Written m src dst ks P m') (hy : IsOutput m src ks c y) :
    Written m src dst ks (fun x => P x ∨ c ≤ x ∧ x < c + 32) (m'.store (dst + c) y.toList) where
  wf := Memory.store_wf _ h.wf
  out x hx := by
    by_cases hc : c ≤ x ∧ x < c + 32
    · have hget := Memory.get_store_chunk (a := dst + c) y h.wf (x - c) (by omega)
      rwa [show dst + c + (x - c) = dst + x by omega, hy x hc.1 hc.2] at hget
    · rw [Memory.get_store_chunk_outside _ _ (by omega)]
      exact h.out x (hx.resolve_right hc)
  frame a ha := by
    have hout : a < dst + c ∨ dst + c + 32 ≤ a := by
      by_contra hin
      exact ha (a - dst) (.inr (by omega)) (by omega)
    rw [Memory.get_store_chunk_outside _ _ hout]
    exact h.frame a fun x hx => ha x (.inl hx)

/-- A sub-chunk of the source that lies beyond what is written, XORed with its keystream, is output: same region or disjoint
ones, it still reads as at the launch (R60). -/
theorem Written.isOutput (h : Written m src dst ks (· < p) m') (hsd : sameOrDisjoint src dst n) (hp : p ≤ c)
    (hc : c + 32 ≤ n) (hy : IsKeystreamAt ks c y) : IsOutput m src ks c (chunkXor (m'.load (src + c)) y) := by
  intro x hcx hxc
  have hsource : Memory.get m' (src + x) = Memory.get m (src + x) :=
    h.frame _ fun z hz => by rcases hsd with hsd | hsd | hsd <;> omega
  rw [chunkXor_getElem _ _ _ (by omega), Memory.load_getElem _ _ _ (by omega), hy x hcx hxc,
    show src + c + (x - c) = src + x by omega, hsource]

end written

section command
variable {m : Memory} {src dst : Word} {ks : Vector Byte 256} {n k r : Nat}

theorem isKeystreamAt_keystreamChunk (hk : k ≤ 7) : IsKeystreamAt ks (32 * k) (keystreamChunk ks (BitVec.ofNat 3 k)) := by
  intro x hlo hhi
  rw [keystreamChunk_getElem _ _ _ (by omega)]
  simp only [toNat_ofNat3 hk, show 32 * k + (x - 32 * k) = x by omega]
  rfl

/-- The window of a partial exit has the last bytes of sub-chunk k and the first r of the next one (R182). -/
theorem isKeystreamAt_windowKeystream (hk : k + 1 ≤ 7) (hr : r < 32) : IsKeystreamAt ks (32 * k + r)
    (windowKeystream ks (BitVec.ofNat 3 (k + 1)) (BitVec.ofNat 5 r)) := by
  intro x hlo hhi
  have hr5 : (BitVec.ofNat 5 r).toNat = r := by simp only [BitVec.toNat_ofNat]; omega
  simp only [windowKeystream, byteShift, Vector.getElem_ofFn, ofNat3_pred, hr5]
  by_cases h : r + (x - (32 * k + r)) < 32
  · simp only [h, dite_true, keystreamChunk_getElem, toNat_ofNat3 (k := k) (by omega),
      show 32 * k + (r + (x - (32 * k + r))) = x by omega]
    rfl
  · simp only [h, dite_false, keystreamChunk_getElem, toNat_ofNat3 hk,
      show 32 * (k + 1) + (r + (x - (32 * k + r)) - 32) = x by omega]
    rfl

/-- The walk, k sub-chunks being done: all but the last of them are written, and the last is held back. -/
theorem walked_written (hm : Memory.wf m = true) (hsd : sameOrDisjoint src.toNat dst.toNat n) (hn : n ≤ 256)
    (hk : 32 * k ≤ n) :
    Written m src.toNat dst.toNat ks (· < 32 * (k - 1)) (walked m src dst ks k).1
      ∧ (k ≠ 0 → IsOutput m src.toNat ks (32 * (k - 1)) (walked m src dst ks k).2) := by
  induction k with
  | zero => exact ⟨written_nothing hm (by simp), fun h => absurd rfl h⟩
  | succ k ih =>
    obtain ⟨hw, ho⟩ := ih (by omega)
    refine ⟨?_, fun _ => hw.isOutput hsd (by omega) (by omega) (isKeystreamAt_keystreamChunk (by omega))⟩
    simp only [walked]
    split
    · next h0 => exact hw.congr fun x => by omega
    · next h0 => exact (hw.store (ho h0)).congr fun x => by omega

/-- A command writes the n bytes of its destination and no other. -/
theorem commandMem_written (hm : Memory.wf m = true) (hsd : sameOrDisjoint src.toNat dst.toNat n) (hlow : 64 < n)
    (hn : n ≤ 256) : Written m src.toNat dst.toNat ks (· < n) (commandMem m src dst ks n) := by
  obtain ⟨k, hk⟩ : ∃ k, exitSubchunk n = k + 1 := ⟨exitSubchunk n - 1, by unfold exitSubchunk; omega⟩
  have hnk : n = 32 * (k + 1) + (if residue n = 0 then 32 else residue n) := by
    unfold exitSubchunk at hk
    unfold residue
    split <;> omega
  have hr : residue n < 32 := Nat.mod_lt _ (by omega)
  obtain ⟨hw, ho⟩ := walked_written (k := k + 1) (ks := ks) hm hsd hn (by omega)
  replace ho := ho (Nat.succ_ne_zero k)
  simp only [commandMem, hk]
  split at hnk
  · next h0 =>
    rw [if_pos h0]
    have hlast := hw.isOutput hsd (by omega) (by omega) (isKeystreamAt_keystreamChunk (k := k + 1) (by omega))
    exact ((hw.store ho).store hlast).congr fun x => by omega
  · next h0 =>
    rw [if_neg h0]
    have hks := isKeystreamAt_windowKeystream (ks := ks) (k := k) (by omega) hr
    rw [show 32 * k + residue n = n - 32 by omega] at hks
    have hwindow := hw.isOutput hsd (by omega) (by omega) hks
    exact ((hw.store hwindow).store ho).congr fun x => by omega

end command

theorem Admitted.sameOrDisjoint {s : State} (h : Admitted s) :
    sameOrDisjoint s.src.toNat s.dst.toNat (nbytesField s.nbytes).toNat :=
  h.regions.imp_left (congrArg _)

/-- Settles O16: the memory an admitted launch leaves (`launch_spec`) has the destination written (`commandMem_written`), with
the keystream the lanes make, which is the keystream function (`commandKeystream_eq`). -/
theorem commandXorsKeystream : Obligations.CommandXorsKeystream := by
  rintro s ⟨hidle, hadm⟩ hm
  have ha := admitted_of_admission hadm
  obtain ⟨w, hw⟩ := launch_spec hadm
  have hout := (commandMem_written (ks := keystream s.cs s.roundCount) hm ha.sameOrDisjoint ha.low ha.high).out
  rw [commandKeystream_eq] at hw
  exact ⟨_, (exec_xform4_of_idle hidle).trans hw, rfl, hout⟩

end Sys2Proof.Machine

namespace Sys2Proof.Machine

/-! ### The memory inside the data space -/

/-- The data memory is in canonical form and lies in the data space (R50). -/
def State.InSpace (s : State) : Prop := Memory.wf s.mem = true ∧ ∀ c ∈ s.mem, c.1 < 2 ^ s.platform.aw

section inSpace
variable {s : State} {a : Nat}

theorem State.InSpace.storeBytes {bs : List Byte} (h : s.InSpace) (hb : ∀ j, j < bs.length → a + j < 2 ^ s.platform.aw) :
    (s.storeBytes a bs).InSpace := by
  obtain ⟨hwf, hcells⟩ := h
  refine ⟨Memory.store_wf bs hwf, fun c hc => ?_⟩
  rcases Memory.mem_store bs hc with hold | ⟨hlo, hhi⟩
  · exact hcells c hold
  · have hc := hb (c.1 - a) (by omega)
    rwa [Nat.add_sub_cancel' hlo] at hc

/-- A store the caller is allowed keeps the memory inside the data space. -/
theorem State.InSpace.callerStore {bs : List Byte} (h : s.InSpace)
    (hb : s.platform.callerStoreFault a bs.length = none) : (s.storeBytes a bs).InSpace :=
  h.storeBytes fun j hj => lt_of_callerFault (callerStoreFault_eq_none.mp hb j hj)

/-- A write the engine is allowed keeps the memory inside the data space. -/
theorem State.InSpace.write {v : Chunk} (h : s.InSpace) (hb : s.platform.accessFault true a 32 = none) :
    ({ s with mem := s.mem.store a v.toList }.log (.write a)).InSpace := by
  have hlt (j : Nat) (hj : j < v.toList.length) : a + j < 2 ^ s.platform.aw :=
    (byteFault_eq_none.mp (accessFault_eq_none.mp hb j (by simpa using hj))).1
  exact h.storeBytes hlt

end inSpace

/-! ### What a micro-operation may change -/

/-- Accesses of the engine lead from `s` to `u`: memory and history changed, the memory inside the data space if it was. -/
def Accessed (s u : State) : Prop := ∃ m h, u = { s with mem := m, history := h } ∧ (s.InSpace → u.InSpace)

section accessed
variable {s u : State} {a : Nat} {v : Chunk}

theorem Accessed.refl (s : State) : Accessed s s := ⟨s.mem, s.history, rfl, id⟩

theorem Accessed.read (h : Accessed s u) : Accessed s (u.log (.read a)) := by
  obtain ⟨m, es, rfl, hspace⟩ := h
  exact ⟨m, es ++ [.read a], rfl, hspace⟩

theorem Accessed.write (h : Accessed s u) (hb : u.platform.accessFault true a 32 = none) :
    Accessed s ({ u with mem := u.mem.store a v.toList }.log (.write a)) := by
  obtain ⟨m, es, rfl, hspace⟩ := h
  exact ⟨m.store a v.toList, es ++ [.write a], rfl, fun hs => (hspace hs).write hb⟩

end accessed

/-- While no command runs nothing is left to issue and the working state is dead (R33, R35). -/
def State.IdleDead (s : State) : Prop := s.upc = none → s.seq = [] ∧ s.work.live = Live.none ∧ s.work.slot = none

/-- What the micro-operation `i` may change on its way from `s` to `t`: no host register, input, reply or parameter (R25); Z
and N by XSTEP only (R32), STATUS.DONE by LATCH and DONE only (R26); memory inside the data space (R50). An engine that it
leaves idle has nothing to issue and a dead working state (R33, R35). -/
structure UopEffect (i : Instr) (s t : State) : Prop where
  frame : t = { s with
    statusDone := t.statusDone, work := t.work, upc := t.upc, seq := t.seq, mem := t.mem, history := t.history }
  flags : (∀ k, i ≠ .xstep k) → t.work.z = s.work.z ∧ t.work.neg = s.work.neg
  status : i ≠ .latch → i ≠ .done → t.statusDone = s.statusDone
  space : s.InSpace → t.InSpace
  idle : s.upc ≠ none → t.IdleDead

section uopEffect
variable {i : Instr} {s t u : State}

/-- Most micro-operations end by counting `upc` on, which leaves a running engine running. -/
theorem uopEffect_advance {d : Bool} {w : Working} {q : List (BitVec 16)} {m : Memory} {es : List Event}
    (hflags : (∀ k, i ≠ .xstep k) → w.z = s.work.z ∧ w.neg = s.work.neg)
    (hstatus : i ≠ .latch → i ≠ .done → d = s.statusDone) (hspace : s.InSpace → { s with mem := m }.InSpace) :
    UopEffect i s { s with statusDone := d, work := w, seq := q, mem := m, history := es }.advance :=
  ⟨rfl, hflags, hstatus, hspace, fun hrun hidle => absurd (Option.map_eq_none_iff.mp hidle) hrun⟩

/-- An output micro-operation ends so after its accesses. -/
theorem Accessed.advance_uopEffect (h : Accessed s u) : UopEffect i s u.advance := by
  obtain ⟨m, es, rfl, hspace⟩ := h
  exact uopEffect_advance (fun _ => ⟨rfl, rfl⟩) (fun _ _ => rfl) hspace

/-- XFULL holds its result back before that. -/
theorem Accessed.holdBack_uopEffect (h : Accessed s u) (o : Chunk) : UopEffect i s (u.holdBack o).advance := by
  obtain ⟨m, es, rfl, hspace⟩ := h
  exact uopEffect_advance (fun _ => ⟨rfl, rfl⟩) (fun _ _ => rfl) hspace

/-- A rewrite of the lanes changes nothing else, `upc` neither. -/
theorem setLanes_uopEffect (v : Lanes) : UopEffect i s (s.setLanes v) :=
  ⟨rfl, fun _ => ⟨rfl, rfl⟩, fun _ _ => rfl, id, fun hrun hidle => absurd hidle hrun⟩

theorem inSlot_uopEffect {f : BitVec 3 → Lanes → Lanes} (h : inSlot s f = .next t) : UopEffect i s t := by
  obtain ⟨q, -, -, rfl⟩ := inSlot_next h
  exact setLanes_uopEffect _

/-- Every micro-operation that answers a next state changed no more than `UopEffect` says. -/
theorem execUop_uopEffect (h : execUop i s = .next t) : UopEffect i s t := by
  cases i with
  | wr | rd | xform4 => cases h
  | latch =>
    obtain ⟨-, h⟩ := reading_next h
    cases h
    exact uopEffect_advance (fun _ => ⟨rfl, rfl⟩) (fun hne _ => absurd rfl hne) id
  | done =>
    obtain ⟨-, h⟩ := reading_next h
    cases h
    exact ⟨rfl, fun _ => ⟨rfl, rfl⟩, fun _ hne => absurd rfl hne, id, fun _ _ => ⟨rfl, rfl, rfl⟩⟩
  | derive | addorig | ilv | dlv | ser | walk =>
    obtain ⟨-, h⟩ := reading_next h
    cases h
    exact uopEffect_advance (fun _ => ⟨rfl, rfl⟩) (fun _ _ => rfl) id
  | xstep k =>
    obtain ⟨-, h⟩ := reading_next h
    cases h
    exact uopEffect_advance (fun hne => absurd rfl (hne k)) (fun _ _ => rfl) id
  | qr | colrnd | diagrnd =>
    obtain ⟨-, h⟩ := reading_next h
    cases h
    exact setLanes_uopEffect _
  | add32 | xor32 => exact inSlot_uopEffect h
  | rotl32 =>
    simp only [execUop, execRotl32] at h
    split at h
    · cases h
    · exact inSlot_uopEffect h
  | dblrnd =>
    simp only [execUop, execDblrnd] at h
    split at h
    · cases h
    · obtain ⟨-, h⟩ := reading_next h
      cases h
      exact uopEffect_advance (fun _ => ⟨rfl, rfl⟩) (fun _ _ => rfl) id
  | bshift =>
    simp only [execUop, execBshift] at h
    split at h
    · cases h
    · obtain ⟨-, h⟩ := reading_next h
      split at h
      · cases h
      · cases h
        exact uopEffect_advance (fun _ => ⟨rfl, rfl⟩) (fun _ _ => rfl) id
  | xfull k =>
    simp only [execUop, execXfull] at h
    split at h
    · cases h
    · obtain ⟨-, h⟩ := reading_next h
      obtain ⟨-, h⟩ := memRead_next h
      split at h
      · cases h
        exact ((Accessed.refl s).read).holdBack_uopEffect _
      · obtain ⟨-, h⟩ := reading_next h
        obtain ⟨hb, h⟩ := memWrite_next h
        cases h
        exact (((Accessed.refl s).read).write hb).holdBack_uopEffect _
  | xexact kx =>
    simp only [execUop, execXexact] at h
    split at h
    · obtain ⟨-, h⟩ := reading_next h
      obtain ⟨-, h⟩ := memRead_next h
      obtain ⟨hb, h⟩ := memWrite_next h
      obtain ⟨hc, h⟩ := memWrite_next h
      cases h
      exact ((((Accessed.refl s).read).write hb).write hc).advance_uopEffect
    · cases h
  | xpart kx =>
    simp only [execUop, execXpart] at h
    split at h
    · obtain ⟨-, h⟩ := reading_next h
      split at h
      · obtain ⟨-, h⟩ := memRead_next h
        obtain ⟨hb, h⟩ := memWrite_next h
        cases h
        exact (((Accessed.refl s).read).write hb).advance_uopEffect
      · cases h
    · cases h
  | xprev kx =>
    simp only [execUop, execXprev] at h
    split at h
    · obtain ⟨-, h⟩ := reading_next h
      obtain ⟨hb, h⟩ := memWrite_next h
      cases h
      exact ((Accessed.refl s).write hb).advance_uopEffect
    · cases h

/-- A step of the running engine takes the next word and performs it. -/
theorem uopStep_uopEffect (h : uopStep s = .next t) :
    ∃ i w rest, UopEffect i ({ s with seq := rest }.log (.issue w)) t := by
  unfold uopStep at h
  split at h
  · next i s₁ hi =>
    obtain ⟨w, rest, -, -, rfl⟩ := issueUop_ok hi
    exact ⟨i, w, rest, execUop_uopEffect h⟩
  · cases h

end uopEffect

/-! ### What a host transaction does -/

/-- What WR did when it answers a next state (R200). -/
theorem execWr_next {idx : BitVec 7} {data : Word} {s t : State} (h : execWr idx data s = .next t) : s.upc = none ∧
    ((∃ i : Fin 16, idx.toNat = i ∧ t = s.writeCs i data)
      ∨ (idx = 16#7 ∧ t = s.writeSrc data) ∨ (idx = 17#7 ∧ t = s.writeDst data)
      ∨ (idx = 18#7 ∧ t = s.writeNbytes data) ∨ (idx = 19#7 ∧ t = s.writeRounds data)
      ∨ (idx = 20#7 ∧ writeCommand s data = .next t) ∨ (idx = 21#7 ∧ t = s)) := by
  obtain ⟨hidle, h⟩ := whenIdle_next h
  refine ⟨hidle, ?_⟩
  split_ifs at h with hcs hsrc hdst hnbytes hrounds hcmd hstatus
  · cases h
    exact .inl ⟨⟨idx.toNat, hcs⟩, rfl, rfl⟩
  · cases h
    simp [hsrc]
  · cases h
    simp [hdst]
  · cases h
    simp [hnbytes]
  · cases h
    simp [hrounds]
  · simp [hcmd, h]
  · cases h
    simp [hstatus]

/-- RD that answers a next state added one reply (R201). -/
theorem execRd_next {idx : BitVec 7} {s t : State} (h : execRd idx s = .next t) :
    s.upc = none ∧ ∃ b w, t = s.replyRegister b w := by
  obtain ⟨hidle, h⟩ := whenIdle_next h
  refine ⟨hidle, ?_⟩
  split_ifs at h <;> cases h
  iterate 3 exact ⟨_, _, rfl⟩
  all_goals exact ⟨true, _, rfl⟩

/-- A value written to CMD goes on as a launch only (R90). -/
theorem writeCommand_next {s t : State} {data : Word} (h : writeCommand s data = .next t) : launch s = .next t := by
  unfold writeCommand at h
  split at h
  · exact h
  · cases h

/-- A launch that goes on ran the launched engine to its end. -/
theorem launch_next {s t : State} (h : launch s = .next t) : runUops uopBound s.launched = .next t := by
  unfold launch at h
  split at h
  · cases h
  · exact h

theorem decodeHt_ok {w : BitVec 40} {i : Instr} (h : decodeHt w = .ok i) :
    (∃ idx data, i = .wr idx data) ∨ ∃ idx, i = .rd idx := by
  simp only [decodeHt] at h
  split_ifs at h <;> cases h
  · exact .inl ⟨_, _, rfl⟩
  · exact .inr ⟨_, rfl⟩

theorem decodeCw_ok {w : BitVec 32} {i : Instr} (h : decodeCw w = .ok i) : i = .xform4 := by
  unfold decodeCw at h
  split_ifs at h
  cases h
  rfl

/-! ### The invariant -/

/-- What each micro-operation of a running command keeps, its run keeps. -/
theorem runUops_induct {P : State → Prop} {fuel : Nat} {s t : State}
    (hstep : ∀ {u v : State}, u.upc ≠ none → uopStep u = .next v → P u → P v)
    (hs : P s) (h : runUops fuel s = .next t) : P t := by
  induction fuel generalizing s with
  | zero => cases h
  | succ fuel ih =>
    obtain ⟨-, rfl⟩ | ⟨hrun, u, hu, ht⟩ := runUops_next h
    · exact hs
    · exact ih (hstep hrun hu hs) ht

section invariant
variable {s t : State}

theorem inv_iff : s.Inv ↔
    s.InSpace ∧ s.src.toNat < 2 ^ s.platform.aw ∧ s.dst.toNat < 2 ^ s.platform.aw ∧ s.IdleDead := and_assoc.symm

/-- SRC and DST hold AW bits of what is written (R200). -/
theorem addrField_lt (aw : Nat) (w : Word) : (addrField aw w).toNat < 2 ^ aw := by
  rw [addrField, BitVec.toNat_ofNat]
  exact (Nat.mod_le _ _).trans_lt (Nat.mod_lt _ (Nat.two_pow_pos aw))

theorem uopStep_keeps_inv (hrun : s.upc ≠ none) (h : uopStep s = .next t) (hs : s.Inv) : t.Inv := by
  obtain ⟨i, w, rest, heff⟩ := uopStep_uopEffect h
  obtain ⟨hspace, hsrc, hdst, -⟩ := inv_iff.mp hs
  refine inv_iff.mpr ⟨heff.space hspace, ?_, ?_, heff.idle hrun⟩ <;> rw [heff.frame] <;> assumption

theorem launch_keeps_inv (h : launch s = .next t) (hs : s.Inv) : t.Inv := by
  obtain ⟨hspace, hsrc, hdst, -⟩ := inv_iff.mp hs
  have hlaunched : s.launched.Inv := inv_iff.mpr ⟨hspace, hsrc, hdst, nofun⟩
  exact runUops_induct uopStep_keeps_inv hlaunched (launch_next h)

theorem execWr_keeps_inv {idx : BitVec 7} {data : Word} (h : execWr idx data s = .next t) (hs : s.Inv) : t.Inv := by
  obtain ⟨hspace, hsrc, hdst, hidle⟩ := inv_iff.mp hs
  obtain ⟨-, ⟨i, -, rfl⟩ | ⟨-, rfl⟩ | ⟨-, rfl⟩ | ⟨-, rfl⟩ | ⟨-, rfl⟩ | ⟨-, hcmd⟩ | ⟨-, rfl⟩⟩ := execWr_next h
  · exact hs
  · exact inv_iff.mpr ⟨hspace, addrField_lt _ data, hdst, hidle⟩
  · exact inv_iff.mpr ⟨hspace, hsrc, addrField_lt _ data, hidle⟩
  · exact hs
  · exact hs
  · exact launch_keeps_inv (writeCommand_next hcmd) hs
  · exact hs

theorem execRd_keeps_inv {idx : BitVec 7} (h : execRd idx s = .next t) (hs : s.Inv) : t.Inv := by
  obtain ⟨-, b, w, rfl⟩ := execRd_next h
  cases b <;> exact hs

theorem resetEvent_keeps_inv (hs : s.Inv) : s.resetEvent.Inv := by
  obtain ⟨hspace, -, -, -⟩ := inv_iff.mp hs
  have hzero : (0 : Word).toNat < 2 ^ s.platform.aw := Nat.two_pow_pos _
  exact inv_iff.mpr ⟨hspace, hzero, hzero, fun _ => ⟨rfl, rfl, rfl⟩⟩

theorem storeBytes_keeps_inv {a : Nat} {bs : List Byte} (hb : s.platform.callerStoreFault a bs.length = none)
    (hs : s.Inv) : (s.storeBytes a bs).Inv := by
  obtain ⟨hspace, hrest⟩ := inv_iff.mp hs
  exact inv_iff.mpr ⟨hspace.callerStore hb, hrest⟩

end invariant

/-- Settles O56: each kind of step (`step_cases`) keeps the invariant; a whole command does because each of its
micro-operations does (`uopStep_keeps_inv`). -/
theorem invariantKeptByStep : Obligations.InvariantKeptByStep := by
  intro s t hs h
  have htaken (rest : List Input) : { s with inputs := rest }.Inv := hs
  obtain ⟨hrun, hu⟩ | ⟨-, -, rfl⟩ | ⟨-, rest, -, rfl⟩ | ⟨-, a, bs, rest, -, hb, rfl⟩ | ⟨-, w, rest, i, -, hd, he⟩
    | ⟨hidle, w, rest, i, -, hd, he⟩ := step_cases h
  · exact uopStep_keeps_inv hrun hu hs
  · exact hs
  · exact resetEvent_keeps_inv (htaken rest)
  · exact storeBytes_keeps_inv hb (htaken rest)
  · obtain ⟨idx, data, rfl⟩ | ⟨idx, rfl⟩ := decodeHt_ok hd
    · exact execWr_keeps_inv he (htaken rest)
    · exact execRd_keeps_inv he (htaken rest)
  · obtain rfl := decodeCw_ok hd
    exact launch_keeps_inv ((exec_xform4_of_idle (s := { s with inputs := rest }) hidle).symm.trans he) (htaken rest)

/-- Settles O55. -/
theorem invariantAtReset : Obligations.InvariantAtReset := by
  have hzero : (0 : Word).toNat < 2 ^ State.reset.platform.aw := Nat.two_pow_pos _
  exact inv_iff.mpr ⟨⟨rfl, nofun⟩, hzero, hzero, fun _ => ⟨rfl, rfl, rfl⟩⟩

/-! ### The writers of the state -/

/-- Settles O24: admission looks at the registers only, and an admitted launch ends in a state whose working state alone
depends on the one it began with (`launch_spec`). -/
theorem workingStateDoesNotSurvive : Obligations.WorkingStateDoesNotSurvive := by
  intro s w hidle
  have hidle' : { s with work := w }.upc = none := hidle
  have hadm' : { s with work := w }.admission = s.admission := rfl
  rw [exec_xform4_of_idle hidle, exec_xform4_of_idle hidle']
  cases hadm : s.admission with
  | some e => rw [launch_of_refused hadm, launch_of_refused (hadm'.trans hadm)]
  | none =>
    obtain ⟨w₁, h₁⟩ := launch_spec hadm
    obtain ⟨w₂, h₂⟩ := launch_spec (hadm'.trans hadm)
    rw [h₁, h₂]
    rfl

/-- Settles O28: the step is a micro-operation, and the frame of its `UopEffect` has all these fields. -/
theorem engineWritesNoHostRegister : Obligations.EngineWritesNoHostRegister := by
  intro s t hrun h
  rw [step_running hrun] at h
  obtain ⟨i, w, rest, heff⟩ := uopStep_uopEffect h
  rw [heff.frame]
  exact ⟨rfl, rfl, rfl, rfl, rfl, rfl, rfl, rfl, rfl, rfl, rfl, rfl⟩

/-- Settles O29: the clauses of `UopEffect` on Z, N and STATUS.DONE. -/
theorem flagsHaveOneWriter : Obligations.FlagsHaveOneWriter := by
  intro i s t hi h
  rw [← execUop_eq_exec hi] at h
  have heff := execUop_uopEffect h
  exact ⟨heff.flags, heff.status⟩

/-! ### Dead reads -/

/-- A lane operation reads the slot, then the lanes. -/
theorem inSlot_eq_reading (s : State) (f : BitVec 3 → Lanes → Lanes) :
    ∃ k, inSlot s f = reading s [.slot, .lanes] k := by
  cases hq : s.work.slot with
  | none => exact ⟨inSlot s f, by simp [inSlot, reading, State.isLive, hq]⟩
  | some q => exact ⟨.next (s.setLanes (f q s.work.v)), by simp [inSlot, reading, State.isLive, hq]⟩

/-- Every micro-operation with a legal operand begins by reading the elements `Instr.reads` lists. -/
theorem exec_eq_reading {i : Instr} (hu : i.isUop = true) (hw : i.wellFormed = true) (s : State) :
    ∃ k, exec i s = reading s (Instr.reads i) k := by
  cases i with
  | wr | rd | xform4 => cases hu
  | add32 | xor32 => exact inSlot_eq_reading s _
  | rotl32 rd c =>
    have hc : ¬ c = 0#5 := of_decide_eq_true hw
    simp only [exec, execRotl32, if_neg hc]
    exact inSlot_eq_reading s _
  | dblrnd dr =>
    have hdr : ¬ 126 < dr.toNat := Nat.not_lt.mpr (of_decide_eq_true hw)
    exact ⟨_, if_neg hdr⟩
  | xfull k =>
    have hk : ¬ 6 < k.toNat := Nat.not_lt.mpr (of_decide_eq_true hw)
    exact ⟨_, if_neg hk⟩
  | bshift r =>
    have hr : ¬ r = 0#5 := of_decide_eq_true hw
    exact ⟨_, if_neg hr⟩
  | xexact | xpart | xprev => exact ⟨_, if_pos hw⟩
  | _ => exact ⟨_, rfl⟩

theorem accessFault_of_canAccess {s : State} {write : Bool} {a : Nat} (h : s.CanAccess write a) :
    s.platform.accessFault write a 32 = none :=
  accessFault_eq_none.mpr fun j hj => byteFault_eq_none.mpr (h j hj)

/-- XFULL with a pending chunk to store, its source readable, goes on to read PEND. -/
theorem exec_xfull_eq_reading_pending {s : State} {k : BitVec 3} (h0 : k ≠ 0#3) (h6 : k.toNat ≤ 6)
    (hlive : s.firstDead (.xfull k) = none) (ha : s.CanAccess false (s.work.s.toNat + 32 * k.toNat)) :
    ∃ r, exec (.xfull k) s = reading (s.log (.read (subchunkAddr s.work.s k))) [.pending] r := by
  have hread : s.platform.accessFault false (subchunkAddr s.work.s k) 32 = none := accessFault_of_canAccess ha
  have hl : ∀ e ∈ Instr.reads (.xfull k), s.isLive e = true := by
    simpa [State.firstDead, List.find?_eq_none] using hlive
  exact ⟨_, (if_neg (Nat.not_lt.mpr h6)).trans ((reading_of_live hl).trans ((memRead_ok hread).trans (if_neg h0)))⟩

/-- Settles O31: a micro-operation begins with its reads (`exec_eq_reading`), XFULL reads PEND after its source. -/
theorem deadReadsFault : Obligations.DeadReadsFault := by
  refine fun s => ⟨fun i e hu hw hdead => ?_, fun k h0 h6 hlive hpend ha => ?_⟩
  · obtain ⟨r, hr⟩ := exec_eq_reading hu hw s
    rw [hr]
    exact reading_of_dead hdead
  · obtain ⟨r, hr⟩ := exec_xfull_eq_reading_pending h0 h6 hlive ha
    rw [hr]
    exact reading_of_dead (by simp [State.isLive, hpend])

/-! ### XSTEP -/

/-- The low five bits of the count are its signed value modulo 32. -/
theorem remResidue_eq_ofInt (r : BitVec 10) : remResidue r = BitVec.ofInt 5 (r.toInt + 32) := by
  have hlow : BitVec.ofInt 5 r.toInt = r.setWidth 5 := BitVec.signExtend_eq_setWidth_of_le r (by decide)
  rw [remResidue, BitVec.setWidth_add _ _ (by decide), BitVec.ofInt_add, hlow]
  rfl

section continuation
variable {k : BitVec 3} {r : BitVec 10}

/-- What the sequencer goes on with after XSTEP k left the count r (R168). -/
def stepContinuation (k : BitVec 3) (r : BitVec 10) : List Instr := continuation k (flagZ r) (flagN r) r

theorem stepContinuation_of_pos (h : 0 < r.toInt) : stepContinuation k r = [.xfull k, .xstep (k + 1)] := by
  have hz : ¬ flagZ r = true := by rw [flagZ_iff]; omega
  have hn : ¬ flagN r = true := by rw [flagN_iff]; omega
  rw [stepContinuation, continuation, if_neg hz, if_neg hn]

theorem stepContinuation_of_zero (h : r.toInt = 0) : stepContinuation k r = [.xexact k, .done] :=
  if_pos (flagZ_iff.mpr h)

theorem stepContinuation_of_neg (h : r.toInt < 0) : stepContinuation k r =
    [.bshift (BitVec.ofInt 5 (r.toInt + 32)), .xpart k, .xprev k, .done] := by
  have hz : ¬ flagZ r = true := by rw [flagZ_iff]; omega
  rw [stepContinuation, continuation, if_neg hz, if_pos (flagN_iff.mpr h), remResidue_eq_ofInt]

end continuation

/-- XSTEP of a running engine whose count is written. -/
theorem exec_xstep {s : State} {u : Nat} {k : BitVec 3} (hu : s.upc = some u) (hr : s.work.live.remaining = true) :
    exec (.xstep k) s = .next { s with
      upc := some (u + 1), seq := s.seq ++ (stepContinuation k (remStep s.work.rem)).map encodeUw
      work := { s.work with
        rem := remStep s.work.rem, z := flagZ (remStep s.work.rem), neg := flagN (remStep s.work.rem)
        live := { s.work.live with flags := true } } } := by
  refine (reading_of_live ?_).trans ?_
  · simp [State.isLive, hu, hr]
  · simp only [State.advance, State.enqueue, hu]
    rfl

/-- Settles O46: the state XSTEP leaves (`exec_xstep`), its continuation by the sign of the count. -/
theorem walkStepEffect : Obligations.WalkStepEffect := by
  intro s u k hu hr
  refine ⟨_, exec_xstep hu hr, remStep_toInt, flagZ_iff, flagN_iff, fun h => ?_, fun h => ?_, fun h => ?_, rfl⟩
  · exact congrArg (s.seq ++ List.map encodeUw ·) (stepContinuation_of_pos h)
  · exact congrArg (s.seq ++ List.map encodeUw ·) (stepContinuation_of_zero h)
  · exact congrArg (s.seq ++ List.map encodeUw ·) (stepContinuation_of_neg h)

/-! ### Reset and the next step -/

/-- Settles O11. -/
theorem resetValues : Obligations.ResetValues := ⟨rfl, rfl, rfl, rfl, rfl, rfl, rfl, rfl⟩

section idle
variable {s : State} {rest : List Input} {i : Instr}

theorem hostHeld_of_idle (h : s.upc = none) : s.hostHeld = false := by simp [State.hostHeld, h]

theorem step_of_no_input (h : s.upc = none) (hi : s.inputs = []) : step s = .next s := by
  simp [step, fetch, hostHeld_of_idle h, hi]

theorem step_of_transaction {w : BitVec 40} (h : s.upc = none) (hi : s.inputs = .transaction w :: rest)
    (hd : decodeHt w = .ok i) : step s = exec i { s with inputs := rest } := by
  simp [step, fetch, hostHeld_of_idle h, hi, fetchTransaction, hd]

theorem step_of_command {w : BitVec 32} (h : s.upc = none) (hi : s.inputs = .command w :: rest)
    (hd : decodeCw w = .ok i) : step s = exec i { s with inputs := rest } := by
  simp [step, fetch, hostHeld_of_idle h, hi, fetchCommand, hd]

theorem step_of_callerStore {a : Nat} {bs : List Byte} (h : s.upc = none) (hi : s.inputs = .callerStore a bs :: rest) :
    step s = callerStore a bs { s with inputs := rest } := by
  simp [step, fetch, hostHeld_of_idle h, hi]

end idle

/-- A running engine performs the word that stands next in its sequencer. -/
theorem step_of_word {s : State} {w : BitVec 16} {q : List (BitVec 16)} {i : Instr} (h : s.upc ≠ none)
    (hq : s.seq = w :: q) (hd : decodeUw w = .ok i) : step s = exec i ({ s with seq := q }.log (.issue w)) := by
  have hissue : issueUop s = .ok (i, { s with seq := q }.log (.issue w)) := by simp [issueUop, hq, hd]
  rw [step_running h, uopStep, hissue, ← execUop_eq_exec (decodeUw_isUop hd)]

/-- Settles O54: the step of each kind of input, and of a running engine. -/
theorem stepRunsTheNextInstruction : Obligations.StepRunsTheNextInstruction :=
  fun _ _ => ⟨fun _ _ => step_of_transaction, fun _ _ => step_of_command, fun _ _ => step_of_word,
    fun _ _ _ => step_of_callerStore⟩

/-- Settles O13: NBYTES is 0 after reset, so the first condition of a launch fails (R251). -/
theorem idleAfterReset : Obligations.IdleAfterReset := by
  have hlen : launch State.reset = .refused .len := launch_of_refused rfl
  have hcmd : exec (.wr 20#7 1#32) State.reset = launch State.reset := rfl
  exact ⟨fun _ => step_of_no_input, hcmd.trans hlen, (exec_xform4_of_idle rfl).trans hlen⟩

end Sys2Proof.Machine

namespace Sys2Proof.Machine

/-! ### The trace of a command -/

/-- A command that goes on was admitted, and its events are those of `commandTrace` (`launch_spec`). -/
theorem exec_xform4_next {s t : State} (hidle : s.upc = none) (h : exec .xform4 s = .next t) :
    Admitted s ∧ t.history = s.history ++ commandTrace s.src s.dst s.roundCount s.byteCount := by
  rw [exec_xform4_of_idle hidle] at h
  cases hadm : s.admission with
  | some e => rw [launch_of_refused hadm] at h; cases h
  | none =>
    obtain ⟨w, hw⟩ := launch_spec hadm
    rw [hw] at h
    cases h
    exact ⟨admitted_of_admission hadm, rfl⟩

section accesses
variable (src dst : Word) (nr n k : Nat)

@[simp] theorem accesses_append (h₁ h₂ : List Event) : accesses (h₁ ++ h₂) = accesses h₁ ++ accesses h₂ :=
  List.filter_append h₁ h₂

@[simp] theorem accesses_nil : accesses [] = [] := rfl
@[simp] theorem accesses_cons_issue (w : BitVec 16) (h : List Event) : accesses (.issue w :: h) = accesses h := rfl
@[simp] theorem accesses_cons_read (a : Nat) (h : List Event) : accesses (.read a :: h) = .read a :: accesses h := rfl
@[simp] theorem accesses_cons_write (a : Nat) (h : List Event) : accesses (.write a :: h) = .write a :: accesses h := rfl

/-- The pipeline up to XSTEP 0 makes no access. -/
theorem accesses_preambleTrace : accesses (preambleTrace nr) = [] := by
  refine List.filter_eq_nil_iff.mpr fun e he => ?_
  obtain ⟨i, -, rfl⟩ := List.mem_map.mp he
  exact Bool.false_ne_true

/-- The accesses of the walk up to XSTEP k, as R61 lists them. -/
def walkSchedule (s d k : Nat) : List Event :=
  (List.range k).flatMap fun j => .read (s + 32 * j) :: (if j = 0 then [] else [.write (d + 32 * (j - 1))])

theorem walkSchedule_succ (s d : Nat) : walkSchedule s d (k + 1) =
    walkSchedule s d k ++ .read (s + 32 * k) :: (if k = 0 then [] else [.write (d + 32 * (k - 1))]) := by
  simp [walkSchedule, List.range_succ]

theorem accesses_walkTrace : accesses (walkTrace src dst k) = walkSchedule src.toNat dst.toNat k := by
  induction k with
  | zero => rfl
  | succ k ih =>
    rw [walkTrace_succ, accesses_append, ih, walkSchedule_succ, fullTrace]
    split <;> rfl

/-- The accesses of the exit sub-chunk, as R61 lists them. -/
def exitSchedule (s d n : Nat) : List Event :=
  if residue n = 0 then
    [.read (s + 32 * exitSubchunk n), .write (d + 32 * (exitSubchunk n - 1)), .write (d + 32 * exitSubchunk n)]
  else [.read (s + (n - 32)), .write (d + (n - 32)), .write (d + 32 * (exitSubchunk n - 1))]

theorem accesses_exitTrace : accesses (exitTrace src dst n) = exitSchedule src.toNat dst.toNat n := by
  unfold exitTrace exitSchedule
  split <;> rfl

theorem accessSchedule_eq (s d : Nat) :
    accessSchedule s d n = walkSchedule s d (exitSubchunk n) ++ exitSchedule s d n := rfl

/-- The accesses of a command are the schedule of R61. -/
theorem accesses_commandTrace : accesses (commandTrace src dst nr n) = accessSchedule src.toNat dst.toNat n := by
  simp [commandTrace, accesses_preambleTrace, accesses_walkTrace, accesses_exitTrace, accessSchedule_eq]

end accesses

/-- Settles O20: the events a command adds are `commandTrace`, whose accesses are the schedule (`accesses_commandTrace`). -/
theorem commandAccessSchedule : Obligations.CommandAccessSchedule := by
  intro s t hidle h
  obtain ⟨-, hh⟩ := exec_xform4_next hidle h
  rw [hh, accesses_append, accesses_commandTrace]

/-! ### Where the accesses of a command lie -/

/-- The access takes 32 bytes of the source region if it reads and of the destination region if it writes (R51). -/
def Event.InRegions (s d n : Nat) : Event → Prop
  | .issue _ => True
  | .read a => s ≤ a ∧ a + 32 ≤ s + n
  | .write a => d ≤ a ∧ a + 32 ≤ d + n

section inRegions
variable {s d n k : Nat}

theorem inRegions_of_mem_walkSchedule (hk : 32 * k ≤ n) : ∀ e ∈ walkSchedule s d k, e.InRegions s d n := by
  intro e he
  obtain ⟨j, hj, he⟩ := List.mem_flatMap.mp he
  rw [List.mem_range] at hj
  obtain rfl | he := List.mem_cons.mp he
  · exact ⟨by omega, by omega⟩
  · split at he
    · cases he
    · obtain rfl := List.mem_singleton.mp he
      exact ⟨by omega, by omega⟩

theorem inRegions_of_mem_exitSchedule (hn : 64 < n) : ∀ e ∈ exitSchedule s d n, e.InRegions s d n := by
  have hlo : 1 ≤ exitSubchunk n := by unfold exitSubchunk; omega
  have hhi : 32 * exitSubchunk n ≤ n := by unfold exitSubchunk; omega
  unfold exitSchedule
  split
  · next hr =>
    have hexact : n = 32 * exitSubchunk n + 32 := by unfold residue at hr; unfold exitSubchunk; omega
    simp [Event.InRegions]
    omega
  · simp [Event.InRegions]
    omega

end inRegions

/-- Every access of a command of more than 64 bytes lies inside its regions. -/
theorem inRegions_of_mem_commandTrace {src dst : Word} {nr n : Nat} (hn : 64 < n) :
    ∀ e ∈ commandTrace src dst nr n, e.InRegions src.toNat dst.toNat n := by
  intro e he
  have hk : 32 * exitSubchunk n ≤ n := by unfold exitSubchunk; omega
  have hsched (hacc : e ∈ accesses (commandTrace src dst nr n)) : e.InRegions src.toNat dst.toNat n := by
    rw [accesses_commandTrace, accessSchedule_eq, List.mem_append] at hacc
    exact hacc.elim (inRegions_of_mem_walkSchedule hk e) (inRegions_of_mem_exitSchedule hn e)
  cases e with
  | issue w => trivial
  | read a | write a => exact hsched (List.mem_filter.mpr ⟨he, rfl⟩)

/-- Settles O21: the events a command adds are `commandTrace`, whose accesses lie inside the regions. -/
theorem commandStaysInside : Obligations.CommandStaysInside := by
  intro s t hidle h
  obtain ⟨hadm, hh⟩ := exec_xform4_next hidle h
  have hin := inRegions_of_mem_commandTrace (src := s.src) (dst := s.dst) (nr := s.roundCount) hadm.low
  exact ⟨_, hh, fun a ha => hin (.read a) ha, fun a ha => hin (.write a) ha⟩

/-! ### How many events a command has -/

def Event.isRead : Event → Bool
  | .read _ => true
  | .write _ => false
  | .issue _ => false

def Event.isWrite : Event → Bool
  | .read _ => false
  | .write _ => true
  | .issue _ => false

section counts
variable (s d n k : Nat)

/-- A predicate that holds of accesses only counts the same in the accesses of a history. -/
theorem countP_accesses {p : Event → Bool} (hp : ∀ w, p (.issue w) = false) (h : List Event) :
    (accesses h).countP p = h.countP p := by
  refine List.countP_filter.trans (List.countP_congr fun e _ => ?_)
  cases e with
  | issue w => simp [hp]
  | read a | write a => simp

theorem countP_isRead_walkSchedule : (walkSchedule s d k).countP Event.isRead = k := by
  induction k with
  | zero => rfl
  | succ k ih =>
    rw [walkSchedule_succ, List.countP_append, ih]
    split <;> rfl

/-- The store of the last sub-chunk walked is still pending. -/
theorem countP_isWrite_walkSchedule : (walkSchedule s d k).countP Event.isWrite = k - 1 := by
  induction k with
  | zero => rfl
  | succ k ih =>
    rw [walkSchedule_succ, List.countP_append, ih]
    split
    · next h0 => subst h0; rfl
    · next h0 => simp [List.countP_cons, Event.isWrite]; omega

theorem countP_isRead_exitSchedule : (exitSchedule s d n).countP Event.isRead = 1 := by
  unfold exitSchedule
  split <;> rfl

theorem countP_isWrite_exitSchedule : (exitSchedule s d n).countP Event.isWrite = 2 := by
  unfold exitSchedule
  split <;> rfl

variable (src dst : Word) (nr : Nat)

/-- A command makes K + 1 reads (R57). -/
theorem countP_isRead_commandTrace : (commandTrace src dst nr n).countP Event.isRead = exitSubchunk n + 1 := by
  rw [← countP_accesses fun _ => rfl, accesses_commandTrace, accessSchedule_eq, List.countP_append,
    countP_isRead_walkSchedule, countP_isRead_exitSchedule]

/-- A command of more than 32 bytes makes K + 1 writes (R57). -/
theorem countP_isWrite_commandTrace (hn : 32 < n) :
    (commandTrace src dst nr n).countP Event.isWrite = exitSubchunk n + 1 := by
  have hk : 1 ≤ exitSubchunk n := by unfold exitSubchunk; omega
  rw [← countP_accesses fun _ => rfl, accesses_commandTrace, accessSchedule_eq, List.countP_append,
    countP_isWrite_walkSchedule, countP_isWrite_exitSchedule]
  omega

theorem length_walkSeq : (walkSeq k).length = 2 * k := by
  simp [walkSeq, Nat.mul_comm]

/-- The number of micro-operations of a command (R112, R267). -/
theorem length_useq : (useq nr n).length =
    7 + nr / 2 + 2 * exitSubchunk n + 1 + (if residue n = 0 then 1 else 3) + 1 := by
  have hexit (xs ys : List Instr) : (if residue n = 0 then xs else ys).length =
      if residue n = 0 then xs.length else ys.length := apply_ite List.length _ xs ys
  simp [useq, doubleRoundSeq, doubleRounds, length_walkSeq, hexit]
  omega

end counts

/-- Settles O22: the reads, the writes and the issued words of `commandTrace`, counted. -/
theorem commandCounts : Obligations.CommandCounts := by
  intro s t hidle h
  obtain ⟨hadm, hh⟩ := exec_xform4_next hidle h
  have hlow : 32 < s.byteCount := Nat.lt_trans (by decide) hadm.low
  refine ⟨_, hh, ?_, ?_, ?_⟩
  · exact List.countP_eq_length_filter.symm.trans (countP_isRead_commandTrace _ _ _ _)
  · exact List.countP_eq_length_filter.symm.trans (countP_isWrite_commandTrace _ _ _ _ hlow)
  · rw [issuedWords_commandTrace, List.length_map, length_useq]

/-! ### The stores of a partial exit -/

theorem windowStart_eq {base : Word} {n : BitVec 9} (hn : 32 ≤ n.toNat) :
    windowStart base n = some (base.toNat + (n.toNat - 32)) := by
  rw [windowStart, if_neg (by omega), Nat.add_sub_assoc hn]

section partialExit
variable {s : State} {u : Nat} {kx : BitVec 3} {r : BitVec 5}

/-- XPART of a running engine whose operands and shifted keystream are written and whose windows may be accessed. -/
theorem exec_xpart (hu : s.upc = some u) (h2 : 2 ≤ kx.toNat) (hn : 32 ≤ s.work.n.toNat)
    (hl : s.work.live.latched = true) (ht : s.work.live.shifted = true)
    (ha : s.platform.accessFault false (s.work.s.toNat + (s.work.n.toNat - 32)) 32 = none)
    (hb : s.platform.accessFault true (s.work.d.toNat + (s.work.n.toNat - 32)) 32 = none) :
    exec (.xpart kx) s = .next { s with
      upc := some (u + 1)
      mem := s.mem.store (s.work.d.toNat + (s.work.n.toNat - 32))
        (outWindow s.mem (s.work.s.toNat + (s.work.n.toNat - 32)) s.work.t).toList
      history := s.history ++ [.read (s.work.s.toNat + (s.work.n.toNat - 32)),
        .write (s.work.d.toNat + (s.work.n.toNat - 32))] } := by
  have hlive : ∀ e ∈ Instr.reads (.xpart kx), s.isLive e = true := by simp [Instr.reads, State.isLive, hu, hl, ht]
  refine (if_pos (decide_eq_true h2)).trans ((reading_of_live hlive).trans ?_)
  rw [windowStart_eq hn, windowStart_eq hn]
  refine (memRead_ok ha).trans ((memWrite_ok (s := s.log _) hb).trans ?_)
  simp [State.advance, State.log, outWindow, hu]

/-- XPREV of a running engine whose operands and pending chunk are written and whose sub-chunk K - 1 may be stored to. -/
theorem exec_xprev (hu : s.upc = some u) (h2 : 2 ≤ kx.toNat) (hl : s.work.live.latched = true)
    (hp : s.work.live.pending = true)
    (hb : s.platform.accessFault true (subchunkAddr s.work.d (kx - 1)) 32 = none) :
    exec (.xprev kx) s = .next { s with
      upc := some (u + 1)
      mem := s.mem.store (subchunkAddr s.work.d (kx - 1)) s.work.pend.toList
      history := s.history ++ [.write (subchunkAddr s.work.d (kx - 1))] } := by
  have hlive : ∀ e ∈ Instr.reads (.xprev kx), s.isLive e = true := by simp [Instr.reads, State.isLive, hu, hl, hp]
  refine (if_pos (decide_eq_true h2)).trans ((reading_of_live hlive).trans ((memWrite_ok hb).trans ?_))
  simp [State.advance, State.log, hu]

theorem subchunkAddr_pred (base : Word) (h : 1 ≤ kx.toNat) :
    subchunkAddr base (kx - 1) = base.toNat + 32 * (kx.toNat - 1) := by
  have hpred : (kx - 1).toNat = kx.toNat - 1 := BitVec.toNat_sub_of_le h
  rw [subchunkAddr, hpred]

/-- The memory XPART and then XPREV leave: the XORed window is stored, then PEND over it (R62). -/
def overlappingExit (s : State) (kx : BitVec 3) : Memory :=
  (s.mem.store (s.work.d.toNat + (s.work.n.toNat - 32))
    (outWindow s.mem (s.work.s.toNat + (s.work.n.toNat - 32)) s.work.t).toList).store
    (subchunkAddr s.work.d (kx - 1)) s.work.pend.toList

theorem State.AtPartialExit.exit_and_count (h : s.AtPartialExit kx r) :
    2 ≤ kx.toNat ∧ s.work.n.toNat = 32 * kx.toNat + r.toNat := by
  obtain ⟨-, -, -, -, h2, -, hn, -⟩ := h
  exact ⟨h2, hn⟩

/-- What the launch admitted allows the accesses of a partial exit. -/
theorem State.AtPartialExit.accessible (h : s.AtPartialExit kx r) :
    Accessible s.platform s.work.s s.work.d s.work.n.toNat := by
  obtain ⟨-, -, -, -, -, -, -, hsrc, hdst, hmem, -, -⟩ := h
  have hread := ordinaryRegion_iff.mpr fun x hx => (hmem x hx).1
  have hwrite := ordinaryRegion_iff.mpr fun x hx => (hmem x hx).2
  exact ⟨fun _ => accessFault_of_region hread hsrc, fun _ => accessFault_of_region hwrite hdst⟩

theorem exec_xpart_xprev (h : s.AtPartialExit kx r) :
    ∃ t, andThen (exec (.xpart kx) s) (fun s => exec (.xprev kx) s) = .next t ∧ t.mem = overlappingExit s kx := by
  have hacc := h.accessible
  obtain ⟨h2, hn⟩ := h.exit_and_count
  obtain ⟨hrun, hl, hp, ht, -⟩ := h
  obtain ⟨u, hu⟩ := Option.ne_none_iff_exists'.mp hrun
  have hprev : s.platform.accessFault true (subchunkAddr s.work.d (kx - 1)) 32 = none := by
    rw [subchunkAddr_pred _ (by omega)]
    exact hacc.write _ (by omega) (by omega)
  rw [exec_xpart hu h2 (by omega) hl ht (hacc.read _ (by omega) (by omega)) (hacc.write _ (by omega) (by omega)),
    andThen_next]
  exact ⟨_, exec_xprev rfl h2 hl hp hprev, by rw [overlappingExit]⟩

end partialExit

/-! ### What the two variants of the partial exit write -/

section written
variable {m m' m'' : Memory} {src dst c : Nat} {ks : Vector Byte 256} {P : Nat → Prop} {y : Chunk}

/-- Source bytes XORed with their keystream are output. -/
theorem IsKeystreamAt.isOutput (hm : Memory.wf m = true) (hy : IsKeystreamAt ks c y) :
    IsOutput m src ks c (chunkXor (m.load (src + c)) y) :=
  (written_nothing (dst := src) hm Nat.not_lt_zero).isOutput (.inl rfl) (Nat.zero_le c) (Nat.le_refl _) hy

/-- The store of any byte string of output: its offsets are written too. -/
theorem Written.storeBytes {bs : List Byte} (h : Written m src dst ks P m')
    (hbs : ∀ (x : Fin 256) (_ : c ≤ x) (_ : x < c + bs.length), bs[x - c] = Memory.get m (src + x) ^^^ ks[x]) :
    Written m src dst ks (fun x => P x ∨ c ≤ x ∧ x < c + bs.length) (m'.store (dst + c) bs) where
  wf := Memory.store_wf _ h.wf
  out x hx := by
    by_cases hc : c ≤ x ∧ x < c + bs.length
    · have hget := Memory.get_store_inside (a := dst + c) bs h.wf (x - c) (by omega)
      rwa [show dst + c + (x - c) = dst + x by omega, hbs x hc.1 hc.2] at hget
    · rw [Memory.get_store_outside _ _ (by omega)]
      exact h.out x (hx.resolve_right hc)
  frame a ha := by
    have hout : a < dst + c ∨ dst + c + bs.length ≤ a := by
      by_contra hin
      exact ha (a - dst) (.inr (by omega)) (by omega)
    rw [Memory.get_store_outside _ _ hout]
    exact h.frame a fun x hx => ha x (.inl hx)

/-- The offsets written determine the memory. -/
theorem Written.unique (h' : Written m src dst ks P m') (h'' : Written m src dst ks P m'') (hP : ∀ x, P x → x < 256) :
    m' = m'' := by
  refine Memory.ext h'.wf h''.wf fun a => ?_
  by_cases ha : ∃ x, P x ∧ a = dst + x
  · obtain ⟨x, hx, rfl⟩ := ha
    exact (h'.out ⟨x, hP x hx⟩ hx).trans (h''.out ⟨x, hP x hx⟩ hx).symm
  · have hout : ∀ x, P x → a ≠ dst + x := fun x hx he => ha ⟨x, hx, he⟩
    rw [h'.frame a hout, h''.frame a hout]

end written

section staging
variable {s : State} {kx : BitVec 3} {r : BitVec 5}

theorem exists_eq_ofNat3_succ (h : 1 ≤ kx.toNat) : ∃ k, k + 1 ≤ 7 ∧ kx = BitVec.ofNat 3 (k + 1) :=
  ⟨kx.toNat - 1, by omega, by rw [Nat.sub_add_cancel h, BitVec.ofNat_toNat, BitVec.setWidth_eq]⟩

/-- PEND is the output of sub-chunk K - 1. -/
theorem State.AtPartialExit.isOutput_pend (h : s.AtPartialExit kx r) (hm : Memory.wf s.mem = true) :
    IsOutput s.mem s.work.s.toNat s.work.ks (32 * (kx.toNat - 1)) s.work.pend := by
  obtain ⟨-, -, -, -, h2, -, -, -, -, -, -, hpend⟩ := h
  obtain ⟨k, hk, rfl⟩ := exists_eq_ofNat3_succ (by omega : 1 ≤ kx.toNat)
  rw [hpend, ofNat3_pred, toNat_ofNat3 hk]
  exact (isKeystreamAt_keystreamChunk (by omega)).isOutput hm

/-- The XORed window is output. -/
theorem State.AtPartialExit.isOutput_outWindow (h : s.AtPartialExit kx r) (hm : Memory.wf s.mem = true) :
    IsOutput s.mem s.work.s.toNat s.work.ks (s.work.n.toNat - 32)
      (outWindow s.mem (s.work.s.toNat + (s.work.n.toNat - 32)) s.work.t) := by
  obtain ⟨-, -, -, -, h2, -, hn, -, -, -, ht, -⟩ := h
  obtain ⟨k, hk, rfl⟩ := exists_eq_ofNat3_succ (by omega : 1 ≤ kx.toNat)
  have hks := isKeystreamAt_windowKeystream (ks := s.work.ks) hk r.isLt
  rw [BitVec.ofNat_toNat, BitVec.setWidth_eq, ← ht,
    show 32 * k + r.toNat = s.work.n.toNat - 32 by rw [toNat_ofNat3 hk] at hn; omega] at hks
  exact hks.isOutput hm

/-- The two stores of the engine write the offsets from 32(K-1) to n. -/
theorem State.AtPartialExit.overlappingExit_written (h : s.AtPartialExit kx r) (hm : Memory.wf s.mem = true) :
    Written s.mem s.work.s.toNat s.work.d.toNat s.work.ks (fun x => 32 * (kx.toNat - 1) ≤ x ∧ x < s.work.n.toNat)
      (overlappingExit s kx) := by
  have hpend := h.isOutput_pend hm
  have hwindow := h.isOutput_outWindow hm
  obtain ⟨h2, hn⟩ := h.exit_and_count
  rw [overlappingExit, subchunkAddr_pred _ (by omega)]
  exact (((written_nothing hm Nat.not_lt_zero).store hwindow).store hpend).congr fun x => by omega

theorem length_stagedBytes (m : Memory) (base : Word) (ks : Vector Byte 256) :
    (stagedBytes m base ks kx r).length = r.toNat := by
  simp only [stagedBytes, List.length_take, Vector.length_toList]
  omega

/-- The staged bytes are output, PEND being stored before the source is read: same region or disjoint ones, the bytes of
sub-chunk K still read as before (R60). -/
theorem State.AtPartialExit.stagedBytes_getElem {m' : Memory} (h : s.AtPartialExit kx r)
    (hsd : sameOrDisjoint s.work.s.toNat s.work.d.toNat s.work.n.toNat)
    (hw : Written s.mem s.work.s.toNat s.work.d.toNat s.work.ks
      (fun x => 32 * (kx.toNat - 1) ≤ x ∧ x < 32 * kx.toNat) m')
    (x : Fin 256) (hlo : 32 * kx.toNat ≤ x)
    (hhi : x < 32 * kx.toNat + (stagedBytes m' s.work.s s.work.ks kx r).length) :
    (stagedBytes m' s.work.s s.work.ks kx r)[x - 32 * kx.toNat] =
      Memory.get s.mem (s.work.s.toNat + x) ^^^ s.work.ks[x] := by
  obtain ⟨-, hn⟩ := h.exit_and_count
  rw [length_stagedBytes] at hhi
  have hsource : Memory.get m' (s.work.s.toNat + x) = Memory.get s.mem (s.work.s.toNat + x) :=
    hw.frame _ fun z hz => by rcases hsd with hsd | hsd | hsd <;> omega
  simp [stagedBytes, subchunkAddr, Nat.add_assoc, Nat.add_sub_cancel' hlo, hsource]

/-- The two stores of the staging variant write the same offsets. -/
theorem State.AtPartialExit.stagingExit_written (h : s.AtPartialExit kx r) (hm : Memory.wf s.mem = true)
    (hsd : sameOrDisjoint s.work.s.toNat s.work.d.toNat s.work.n.toNat) :
    Written s.mem s.work.s.toNat s.work.d.toNat s.work.ks (fun x => 32 * (kx.toNat - 1) ≤ x ∧ x < s.work.n.toNat)
      (stagingExit s kx r) := by
  have hpend := h.isOutput_pend hm
  obtain ⟨h2, hn⟩ := h.exit_and_count
  have hprev := ((written_nothing (dst := s.work.d.toNat) hm Nat.not_lt_zero).store hpend).congr
    (Q := fun x => 32 * (kx.toNat - 1) ≤ x ∧ x < 32 * kx.toNat) fun x => by omega
  rw [stagingExit, subchunkAddr_pred _ (by omega)]
  exact (hprev.storeBytes (h.stagedBytes_getElem hsd hprev)).congr fun x => by rw [length_stagedBytes]; omega

end staging

/-- Settles O52: XPART then XPREV completes (`exec_xpart_xprev`), and both variants write the source bytes XORed with their
keystream at the same offsets, so their memories are equal (`Written.unique`). -/
theorem overlappingStoresEqualStaging : Obligations.OverlappingStoresEqualStaging := by
  intro s kx r h hm hsd
  obtain ⟨t, ht, hmem⟩ := exec_xpart_xprev h
  have hn : s.work.n.toNat ≤ 256 := by
    obtain ⟨-, hn⟩ := h.exit_and_count
    omega
  refine ⟨t, ht, hmem.trans ?_⟩
  exact (h.overlappingExit_written hm).unique (h.stagingExit_written hm hsd) fun x hx => hx.2.trans_le hn

end Sys2Proof.Machine

namespace Sys2Proof

open Machine

/-! ### The transaction word (R81) -/

/-- A transaction word is RW, IDX and DATA, one after the other. -/
theorem htWord_eq (w : BitVec 40) : w.extractLsb' 39 1 ++ w.extractLsb' 32 7 ++ w.extractLsb' 0 32 = w := by
  rw [BitVec.extractLsb'_append_extractLsb'_eq_extractLsb' (start₂ := 39) (start₁ := 32) (len₁ := 7) rfl]
  exact BitVec.extractLsb'_append_extractLsb' (w := 8) (len := 32)

section ht
variable (top : BitVec 1) (idx : BitVec 7) (data : Word)

@[simp] theorem htWord_rw : (top ++ idx ++ data).extractLsb' 39 1 = top := by
  rw [BitVec.extractLsb'_append_eq_of_le (by decide)]
  exact BitVec.extractLsb'_append_eq_left

@[simp] theorem htWord_idx : (top ++ idx ++ data).extractLsb' 32 7 = idx := by
  rw [BitVec.extractLsb'_append_eq_of_le (by decide)]
  exact BitVec.extractLsb'_append_eq_right

@[simp] theorem htWord_data : (top ++ idx ++ data).extractLsb' 0 32 = data :=
  BitVec.extractLsb'_append_eq_right

theorem decodeHt_wr : decodeHt (1#1 ++ idx ++ data) = .ok (.wr idx data) := by
  simp [decodeHt]

theorem decodeHt_rd : decodeHt (0#1 ++ idx ++ 0#32) = .ok (.rd idx) := by
  simp [decodeHt]

end ht

/-- A transaction word that decodes is the encoding of what it decodes to: RW tells WR from RD. -/
theorem encode_of_decodeHt {w : BitVec 40} {i : Instr} (h : decodeHt w = .ok i) : encode i = .ht w := by
  have hw := htWord_eq w
  simp only [decodeHt] at h
  split_ifs at h with hrw hdata <;> cases h
  · rw [hrw] at hw
    exact congrArg Code.ht hw
  · have hrd : w.extractLsb' 39 1 = 0#1 := BitVec.eq_zero_or_eq_one _ |>.resolve_right hrw
    rw [hrd, hdata] at hw
    exact congrArg Code.ht hw

/-! ### The code map (R86) -/

/-- The CODE byte of a row of Table 30-2. -/
def UwRow.code (r : UwRow) : BitVec 8 := r.pattern.extractLsb' 8 8

/-- The bits of the ARG byte that a row of Table 30-2 wants to be zero. -/
def UwRow.argMask (r : UwRow) : BitVec 8 := r.mask.extractLsb' 0 8

/-- Every row fixes the whole CODE byte, and ARG bits to zero only. -/
theorem mask_and_pattern_of_mem_uwTable :
    ∀ r ∈ uwTable, r.mask = uwWord 0xFF r.argMask ∧ r.pattern = uwWord r.code 0 := by decide

/-- No two rows have one CODE. -/
theorem codes_nodup : (uwTable.map UwRow.code).Nodup := by decide

section uw
variable {r : UwRow} {code arg : BitVec 8} {w : BitVec 16} {i : Instr}

@[simp] theorem uwWord_code (code arg : BitVec 8) : (uwWord code arg).extractLsb' 8 8 = code :=
  BitVec.extractLsb'_append_eq_left

@[simp] theorem uwWord_arg (code arg : BitVec 8) : (uwWord code arg).extractLsb' 0 8 = arg :=
  BitVec.extractLsb'_append_eq_right

theorem uwWord_inj {c a c' a' : BitVec 8} : uwWord c a = uwWord c' a' ↔ c = c' ∧ a = a' := by
  refine ⟨fun h => ⟨?_, ?_⟩, fun ⟨hc, ha⟩ => by rw [hc, ha]⟩
  · rw [← uwWord_code c a, h, uwWord_code]
  · rw [← uwWord_arg c a, h, uwWord_arg]

/-- Every micro-operation word is a CODE and an ARG byte. -/
theorem exists_eq_uwWord (w : BitVec 16) : ∃ code arg, w = uwWord code arg :=
  ⟨_, _, (BitVec.extractLsb'_append_extractLsb' (w := 8) (len := 8) (x := w)).symm⟩

/-- A row claims the words with its CODE whose ARG has the bits it wants zero. -/
theorem UwRow.claims_iff (hr : r ∈ uwTable) :
    r.claims (uwWord code arg) = true ↔ r.code = code ∧ arg &&& r.argMask = 0 := by
  obtain ⟨hm, hp⟩ := mask_and_pattern_of_mem_uwTable r hr
  have hand : uwWord code arg &&& r.mask = uwWord code (arg &&& r.argMask) := by
    rw [hm, uwWord, uwWord, BitVec.and_append]
    exact congrArg (uwWord · _) (BitVec.and_allOnes (x := code))
  rw [UwRow.claims, beq_iff_eq, hand, hp, uwWord_inj, eq_comm (a := code)]

end uw

/-- Settles O3: a claimed word has the row's CODE (`UwRow.claims_iff`), and no two rows share one. -/
theorem uopRowsNeverOverlap : Obligations.UopRowsNeverOverlap := by
  refine (List.pairwise_map.mp codes_nodup).imp_of_mem fun ha hb hne w ⟨hwa, hwb⟩ => hne ?_
  obtain ⟨code, arg, rfl⟩ := exists_eq_uwWord w
  obtain ⟨hca, -⟩ := (UwRow.claims_iff ha).mp hwa
  obtain ⟨hcb, -⟩ := (UwRow.claims_iff hb).mp hwb
  exact hca.trans hcb.symm

section uw
variable {r : UwRow} {code arg : BitVec 8} {w : BitVec 16} {i : Instr}

/-- The ARG byte of a claimed word is put back by the encoder. -/
theorem encode_build : ∀ r ∈ uwTable, ∀ arg : BitVec 8, arg &&& r.argMask = 0 →
    encode (r.build arg) = .uw (uwWord r.code arg) := by decide +kernel

/-- A word that decodes does so through a row that claims it, with a legal operand. -/
theorem decodeUw_ok (h : decodeUw (uwWord code arg) = .ok i) :
    ∃ r ∈ uwTable, r.code = code ∧ arg &&& r.argMask = 0 ∧ (r.build arg).wellFormed = true ∧ r.build arg = i := by
  unfold decodeUw at h
  split at h
  · next r hfind =>
    have hr := List.mem_of_find?_eq_some hfind
    have hclaims : r.claims (uwWord code arg) = true := by simpa using List.find?_some hfind
    obtain ⟨hcode, harg⟩ := (UwRow.claims_iff hr).mp hclaims
    simp only [uwWord_arg] at h
    split_ifs at h with hwf
    injection h with hi
    exact ⟨r, hr, hcode, harg, hwf, hi⟩
  · cases h

/-- The decoder has one reason to reject a micro-operation word (R91). -/
theorem decodeUw_error {e : DecodeError} (h : decodeUw w = .error e) : e = .reservedUop := by
  unfold decodeUw at h
  simp only at h
  split at h
  · split_ifs at h
    cases h
    rfl
  · cases h
    rfl

theorem wellFormed_of_decodeUw (h : decodeUw w = .ok i) : i.wellFormed = true := by
  obtain ⟨code, arg, rfl⟩ := exists_eq_uwWord w
  obtain ⟨r, -, -, -, hwf, rfl⟩ := decodeUw_ok h
  exact hwf

theorem encode_of_decodeUw (h : decodeUw w = .ok i) : encode i = .uw w := by
  obtain ⟨code, arg, rfl⟩ := exists_eq_uwWord w
  obtain ⟨r, hr, rfl, harg, -, rfl⟩ := decodeUw_ok h
  exact encode_build r hr arg harg

end uw

theorem encode_of_isUop {i : Instr} (h : i.isUop = true) : encode i = .uw (encodeUw i) := by
  cases i with
  | wr | rd | xform4 => cases h
  | _ => rfl

/-- Settles O1: the three formats one by one; a micro-operation by `decodeUw_encodeUw`. -/
theorem decodeEncodeRoundTrip : Obligations.DecodeEncodeRoundTrip := by
  intro i hwf
  by_cases hu : i.isUop = true
  · rw [encode_of_isUop hu]
    exact decodeUw_encodeUw i hu hwf
  cases i with
  | wr idx data => exact decodeHt_wr idx data
  | rd idx => exact decodeHt_rd idx
  | xform4 => rfl
  | _ => exact absurd rfl hu

/-- Settles O2: the three formats one by one. -/
theorem encodeDecodeRoundTrip : Obligations.EncodeDecodeRoundTrip := by
  intro c i h
  cases c with
  | ht w =>
    refine ⟨?_, encode_of_decodeHt h⟩
    obtain ⟨idx, data, rfl⟩ | ⟨idx, rfl⟩ := decodeHt_ok h <;> rfl
  | cw w =>
    simp only [decode, decodeCw] at h
    split_ifs at h with hw
    cases h
    exact ⟨rfl, congrArg Code.cw hw.symm⟩
  | uw w => exact ⟨wellFormed_of_decodeUw h, encode_of_decodeUw h⟩

/-- Each row admits the operands of `legalArg`. -/
theorem legalArg_iff_of_mem_uwTable : ∀ r ∈ uwTable, ∀ arg : BitVec 8,
    legalArg r.code.toNat arg.toNat = true ↔ arg &&& r.argMask = 0 ∧ (r.build arg).wellFormed = true := by
  decide +kernel

/-- A CODE with a legal ARG is the CODE of a row. -/
theorem exists_row_of_legalArg {code arg : BitVec 8} (h : legalArg code.toNat arg.toNat = true) :
    ∃ r ∈ uwTable, r.code = code := by
  have hcodes : code.toNat ∈ uwTable.map fun r => r.code.toNat := by
    show code.toNat ∈ [1, 2, 15, 16, 17, 18, 19, 20, 21, 22, 23, 32, 33, 34, 48, 49, 50, 64, 65, 66, 67]
    unfold legalArg at h
    split_ifs at h with hc hc hc hc hc hc hc hc
    all_goals
      simp only [List.mem_cons, List.not_mem_nil, or_false] at hc ⊢
      omega
  obtain ⟨r, hr, hcode⟩ := List.mem_map.mp hcodes
  exact ⟨r, hr, BitVec.eq_of_toNat_eq hcode⟩

/-- Settles O4: a word that decodes does so through a row, which admits its ARG; a legal ARG makes an instruction of its
row, whose encoding decodes (O1). -/
theorem reservedUopWords : Obligations.ReservedUopWords := by
  intro code arg
  show decodeUw (uwWord code arg) = _ ↔ _
  cases h : decodeUw (uwWord code arg) with
  | ok i =>
    obtain ⟨r, hr, rfl, harg, hwf, -⟩ := decodeUw_ok h
    simp [(legalArg_iff_of_mem_uwTable r hr arg).mpr ⟨harg, hwf⟩]
  | error e =>
    obtain rfl := decodeUw_error h
    refine iff_of_true rfl (Bool.eq_false_iff.mpr fun hlegal => ?_)
    obtain ⟨r, hr, rfl⟩ := exists_row_of_legalArg hlegal
    obtain ⟨harg, hwf⟩ := (legalArg_iff_of_mem_uwTable r hr arg).mp hlegal
    have hdec := decodeEncodeRoundTrip _ hwf
    rw [encode_build r hr arg harg, decode, h] at hdec
    cases hdec

/-- A word decodes to the well-formed instruction it is the encoding of. -/
theorem decode_of_encode {c : Code} {i : Instr} (hwf : i.wellFormed = true) (hc : encode i = c) : decode c = .ok i :=
  hc ▸ decodeEncodeRoundTrip i hwf

/-- Settles O5: each word is the encoding of its instruction (`decode_of_encode`). -/
theorem specWordsDecode : Obligations.SpecWordsDecode := by
  refine ⟨?_, ?_, ?_, ?_, ?_, ?_, ?_, ?_, ?_, ?_, ?_, ?_⟩ <;> exact decode_of_encode rfl rfl

end Sys2Proof

namespace Sys2Proof.Machine

/-! ### The host transactions, index by index (R200, R201) -/

section host
variable {s : State} (h : s.upc = none) (data : Word)
include h

theorem execWr_cs (i : Fin 16) : execWr (BitVec.ofNat 7 i.val) data s = .next (s.writeCs i data) := by
  have hi : (BitVec.ofNat 7 i.val).toNat = i.val := Nat.mod_eq_of_lt (by omega)
  rw [execWr, whenIdle_of_idle h, dif_pos (hi.trans_lt i.isLt)]
  simp only [hi]

theorem execWr_src : execWr 16#7 data s = .next (s.writeSrc data) := whenIdle_of_idle h

theorem execWr_dst : execWr 17#7 data s = .next (s.writeDst data) := whenIdle_of_idle h

theorem execWr_nbytes : execWr 18#7 data s = .next (s.writeNbytes data) := whenIdle_of_idle h

theorem execWr_rounds : execWr 19#7 data s = .next (s.writeRounds data) := whenIdle_of_idle h

theorem execWr_cmd : execWr 20#7 data s = writeCommand s data := whenIdle_of_idle h

/-- WR of 1 to CMD is the command. -/
theorem execWr_cmd_one : execWr 20#7 1#32 s = exec .xform4 s :=
  (execWr_cmd h 1#32).trans (exec_xform4_of_idle h).symm

theorem execRd_cs (i : Fin 16) :
    execRd (BitVec.ofNat 7 i.val) s = .next (s.replyRegister s.csSet[i] s.cs[i]) := by
  have hi : (BitVec.ofNat 7 i.val).toNat = i.val := Nat.mod_eq_of_lt (by omega)
  rw [execRd, whenIdle_of_idle h, dif_pos (hi.trans_lt i.isLt)]
  simp only [hi]
  rfl

end host

/-- An index of 22 or more is none of Table 30-1. -/
theorem undefined_index {idx : BitVec 7} (h : 22 ≤ idx.toNat) : ¬ idx.toNat < 16 ∧ ¬ idx = 16#7 ∧ ¬ idx = 17#7
    ∧ ¬ idx = 18#7 ∧ ¬ idx = 19#7 ∧ ¬ idx = 20#7 ∧ ¬ idx = 21#7 := by
  refine ⟨by omega, ?_, ?_, ?_, ?_, ?_, ?_⟩ <;> rintro rfl <;> exact absurd h (by decide)

section undefined
variable {s : State} {idx : BitVec 7} (h : s.upc = none) (hi : 22 ≤ idx.toNat)
include h hi

theorem execWr_undefined (data : Word) : execWr idx data s = .refused .badReg := by
  obtain ⟨hcs, hsrc, hdst, hnbytes, hrounds, hcmd, hstatus⟩ := undefined_index hi
  rw [execWr, whenIdle_of_idle h, dif_neg hcs, if_neg hsrc, if_neg hdst, if_neg hnbytes, if_neg hrounds, if_neg hcmd,
    if_neg hstatus]

theorem execRd_undefined : execRd idx s = .refused .badReg := by
  obtain ⟨hcs, hsrc, hdst, hnbytes, hrounds, hcmd, hstatus⟩ := undefined_index hi
  rw [execRd, whenIdle_of_idle h, dif_neg hcs, if_neg hsrc, if_neg hdst, if_neg hnbytes, if_neg hrounds, if_neg hcmd,
    if_neg hstatus]

end undefined

/-! ### Words the host may not send (R81, R90) -/

theorem decodeCw_of_ne {w : Word} (h : w ≠ 1#32) : decodeCw w = .error .reservedCommand := if_neg h

theorem writeCommand_of_ne {w : Word} (h : w ≠ 1#32) (s : State) : writeCommand s w = .refused .badCmd := by
  simp [writeCommand, decodeCw_of_ne h]

theorem decodeHt_malformedRead {w : BitVec 40} (hrw : w.extractLsb' 39 1 = 0#1) (hdata : w.extractLsb' 0 32 ≠ 0#32) :
    decodeHt w = .error .malformedRead := by
  have hrd : w.extractLsb' 39 1 ≠ 1#1 := by simp [hrw]
  simp only [decodeHt, if_neg hrd, if_neg hdata]

section rejected
variable {s : State} {rest : List Input} {e : DecodeError} (h : s.upc = none)
include h

theorem step_of_rejectedTransaction {w : BitVec 40} (hi : s.inputs = .transaction w :: rest)
    (hd : decodeHt w = .error e) : step s = .refused .badReg := by
  simp [step, fetch, hostHeld_of_idle h, hi, fetchTransaction, hd]

theorem step_of_rejectedCommand {w : BitVec 32} (hi : s.inputs = .command w :: rest)
    (hd : decodeCw w = .error e) : step s = .refused .badCmd := by
  simp [step, fetch, hostHeld_of_idle h, hi, fetchCommand, hd]

end rejected

/-- Settles O6: the decoder of command words rejects the value (`decodeCw_of_ne`), whichever way it comes. -/
theorem reservedCommandRefused : Obligations.ReservedCommandRefused := fun s w _ hidle hw =>
  ⟨(execWr_cmd hidle w).trans (writeCommand_of_ne hw s), step_of_rejectedCommand hidle rfl (decodeCw_of_ne hw)⟩

/-- Settles O7: an undefined index when it is performed, a malformed read when it is decoded. -/
theorem undefinedRegisterRefused : Obligations.UndefinedRegisterRefused := fun _ hidle =>
  ⟨fun _ data hi => ⟨execWr_undefined hidle hi data, execRd_undefined hidle hi⟩,
    fun _ _ hrw hdata => step_of_rejectedTransaction hidle rfl (decodeHt_malformedRead hrw hdata)⟩

/-! ### Admission, condition by condition (R118) -/

/-- A field of a word is zero above bit k exactly when the word is below 2^k. -/
theorem extractLsb'_high_eq_zero_iff {w : Word} {k m : Nat} (hkm : k + m = 32) :
    w.extractLsb' k m = 0#m ↔ w.toNat < 2 ^ k := by
  have hlt : w.toNat / 2 ^ k < 2 ^ m := Nat.div_lt_of_lt_mul (by rw [← Nat.pow_add, hkm]; exact w.isLt)
  rw [← BitVec.toNat_inj, BitVec.extractLsb'_toNat, Nat.shiftRight_eq_div_pow, Nat.mod_eq_of_lt hlt, BitVec.toNat_ofNat,
    Nat.zero_mod, Nat.div_eq_zero_iff_lt (Nat.two_pow_pos k)]

section admission
variable {s : State}

theorem nbytesField_toNat (w : Word) : (nbytesField w).toNat = w.toNat % 512 := by simp [nbytesField]

theorem roundsField_toNat (w : Word) : (roundsField w).toNat = w.toNat % 256 := by simp [roundsField]

theorem lenBad_eq_false_iff : s.lenBad = false ↔ s.LengthOk := by
  simp only [State.lenBad, Bool.or_eq_false_iff, decide_eq_false_iff_not, not_not, not_le, not_lt, nbytesField_toNat,
    extractLsb'_high_eq_zero_iff (k := 9) (m := 23) rfl, Config.nLow, Config.nMax]
  omega

theorem roundsBad_eq_false_iff : s.roundsBad = false ↔ s.RoundsOk := by
  simp only [State.roundsBad, Bool.or_eq_false_iff, decide_eq_false_iff_not, not_not, ← BitVec.toNat_inj (n := 8),
    roundsField_toNat, extractLsb'_high_eq_zero_iff (k := 8) (m := 24) rfl, BitVec.toNat_ofNat]
  omega

theorem rangeBad_eq_false_iff : s.rangeBad = false ↔ s.RangeOk := by
  simp [State.rangeBad, State.byteCount, and_assoc]

theorem memoryBad_eq_false_iff : s.memoryBad = false ↔ s.MemoryOk := by
  simp only [State.memoryBad, Bool.or_eq_false_iff, Bool.not_eq_false', ordinaryRegion_iff]
  exact ⟨fun ⟨hsrc, hdst⟩ x hx => ⟨hsrc x hx, hdst x hx⟩, fun h => ⟨fun x hx => (h x hx).1, fun x hx => (h x hx).2⟩⟩

theorem aliasBad_eq_false_iff : s.aliasBad = false ↔ s.RegionsOk := by
  rw [← Bool.not_eq_true]
  simp only [State.aliasBad, Bool.and_eq_true, decide_eq_true_eq, ne_eq, ← BitVec.toNat_inj, State.RegionsOk,
    sameOrDisjoint, State.byteCount]
  omega

theorem csBad_eq_false_iff : s.csBad = false ↔ s.CipherOk := by
  rw [← Bool.not_eq_true]
  simp [State.csBad, Fin.forall_iff, Vector.any_eq_true]

/-- The first condition comes before the others. -/
theorem admission_of_not_lengthOk (h : ¬ s.LengthOk) : s.admission = some .len := by
  rw [← lenBad_eq_false_iff, Bool.not_eq_false] at h
  simp [State.admission, h]

/-- A launch that meets the six conditions is admitted. -/
theorem admission_eq_none (hlen : s.LengthOk) (hrounds : s.RoundsOk) (hrange : s.RangeOk) (hmemory : s.MemoryOk)
    (hregions : s.RegionsOk) (hcipher : s.CipherOk) : s.admission = none := by
  simp [State.admission, lenBad_eq_false_iff.mpr hlen, roundsBad_eq_false_iff.mpr hrounds,
    rangeBad_eq_false_iff.mpr hrange, memoryBad_eq_false_iff.mpr hmemory, aliasBad_eq_false_iff.mpr hregions,
    csBad_eq_false_iff.mpr hcipher]

theorem exec_xform4_of_not_lengthOk (h : s.upc = none) (hlen : ¬ s.LengthOk) : exec .xform4 s = .refused .len :=
  (exec_xform4_of_idle h).trans (launch_of_refused (admission_of_not_lengthOk hlen))

end admission

/-- Settles O15: 64 and 257 fail the first condition; an admitted launch completes (`launch_spec`). -/
theorem boundaryByteCounts : Obligations.BoundaryByteCounts := by
  intro s hidle
  have hrefused (n : Word) (hn : ¬ (65 ≤ n.toNat ∧ n.toNat ≤ 256)) :
      exec .xform4 { s with nbytes := n } = .refused .len :=
    exec_xform4_of_not_lengthOk (s := { s with nbytes := n }) hidle hn
  refine ⟨hrefused 64#32 (by decide), hrefused 257#32 (by decide), ?_⟩
  rintro n hn u rfl hrounds hrange hmemory hregions hcipher
  have hlen : 65 ≤ n.toNat ∧ n.toNat ≤ 256 := by rcases hn with rfl | rfl <;> decide
  obtain ⟨w, hw⟩ := launch_spec (admission_eq_none hlen hrounds hrange hmemory hregions hcipher)
  exact ⟨_, (exec_xform4_of_idle (s := { s with nbytes := n }) hidle).trans hw, rfl⟩

/-! ### The host's side of the protocol (R94, R203) -/

section setAll
variable {α : Type} (f : Fin 16 → α) (v : Vector α 16)

/-- A file of sixteen registers after these of them are set, in this order. -/
def setAll (l : List (Fin 16)) : Vector α 16 := l.foldl (fun v (i : Fin 16) => v.set i (f i)) v

theorem setAll_getElem (l : List (Fin 16)) (j : Fin 16) : (setAll f v l)[j] = if j ∈ l then f j else v[j] := by
  induction l generalizing v with
  | nil => rfl
  | cons i l ih =>
    show (setAll f (v.set i (f i)) l)[j] = _
    rw [ih]
    by_cases hj : j ∈ l
    · simp [hj]
    · by_cases hij : j = i
      · subst hij
        simp
      · have hne : i.val ≠ j.val := fun he => hij (Fin.ext he.symm)
        simp [hj, hij, hne]

theorem setAll_finRange : setAll f v (List.finRange 16) = Vector.ofFn f := by
  ext j hj
  have hset := setAll_getElem f v (List.finRange 16) ⟨j, hj⟩
  rw [if_pos (List.mem_finRange _)] at hset
  simpa using hset

end setAll

section pseudo
variable {s : State}

theorem foldl_execWr_cs (w : Block) (l : List (Fin 16)) (h : s.upc = none) :
    l.foldl (fun r i => andThen r (execWr (BitVec.ofNat 7 i.val) w[i])) (.next s) =
      .next { s with cs := setAll (fun i => w[i]) s.cs l, csSet := setAll (fun _ => true) s.csSet l } := by
  induction l generalizing s with
  | nil => rfl
  | cons i l ih =>
    rw [List.foldl_cons, andThen_next, execWr_cs h]
    exact ih h

/-- The Cipher State given, all of it written. -/
def State.withCipherState (s : State) (w : Block) : State := { s with cs := w, csSet := Vector.replicate 16 true }

theorem setCipherState_eq (w : Block) (h : s.upc = none) : setCipherState w s = .next (s.withCipherState w) := by
  rw [setCipherState, foldl_execWr_cs w _ h, setAll_finRange, setAll_finRange]
  have hcs : (Vector.ofFn fun i => w[i]) = w := by simp
  have hset : (Vector.ofFn fun _ : Fin 16 => true) = Vector.replicate 16 true := rfl
  rw [hcs, hset]
  rfl

/-- Unchanged or not, the Cipher State then is the one given. -/
theorem setStateIfChanged_eq (w : Block) (h : s.upc = none) : setStateIfChanged w s = .next (s.withCipherState w) := by
  unfold setStateIfChanged
  split
  · next hsame =>
    obtain ⟨rfl, hset⟩ := hsame
    rw [State.withCipherState, ← hset]
  · exact setCipherState_eq w h

theorem operandsFit_iff {src dst nr n : Nat} :
    operandsFit src dst nr n = true ↔ src < 2 ^ 32 ∧ dst < 2 ^ 32 ∧ nr < 2 ^ 32 ∧ n < 2 ^ 32 := by
  simp [operandsFit, and_assoc]

theorem addrField_ofNat {aw a : Nat} (ha : a < 2 ^ 32) : addrField aw (BitVec.ofNat 32 a) = BitVec.ofNat 32 (a % 2 ^ aw) := by
  rw [addrField, BitVec.toNat_ofNat, Nat.mod_eq_of_lt ha]

/-- XFORM4 with operands that fit: the four operand registers written, then the command. -/
theorem xform4Operands_eq {src dst nr n : Nat} (h : s.upc = none) (hf : operandsFit src dst nr n = true) :
    xform4Operands src dst nr n s = exec .xform4 ((((s.writeSrc (BitVec.ofNat 32 src)).writeDst
      (BitVec.ofNat 32 dst)).writeNbytes (BitVec.ofNat 32 n)).writeRounds (BitVec.ofNat 32 nr)) := by
  simp only [xform4Operands, hf, if_true, BitVec.ofNat_eq_ofNat, andThen_next, execWr_src, execWr_dst, execWr_nbytes,
    execWr_rounds, execWr_cmd_one, State.writeSrc_upc, State.writeDst_upc, State.writeNbytes_upc,
    State.writeRounds_upc, h]

theorem xform4Operands_tooWide {src dst nr n : Nat} (hf : ¬ operandsFit src dst nr n = true) :
    xform4Operands src dst nr n s = .fault .operandTooWide := if_neg hf

/-- CTRADV of a counter word that has been written reads it and writes it back c higher. -/
theorem counterAdvance_eq (c : Nat) (h : s.upc = none) (hset : s.csSet[12] = true) :
    counterAdvance c s =
      .next { s with cs := s.cs.set 12 (blockCounter s.cs[12] c), replies := s.replies ++ [s.cs[12]] } := by
  have hrd : execRd 12 s = .next (s.reply s.cs[12]) := by
    refine (execRd_cs h 12).trans ?_
    show Host.Outcome.next (s.replyRegister s.csSet[12] s.cs[12]) = _
    rw [hset, State.replyRegister_written]
  have hlast : (s.reply s.cs[12]).replies.getLast?.getD 0 = s.cs[12] := by simp
  have hsame : s.csSet.set 12 true = s.csSet := by rw [← hset, Vector.set_getElem_self]
  rw [counterAdvance, hrd, andThen_next, hlast]
  refine (execWr_cs (s := s.reply s.cs[12]) h _ 12).trans (congrArg Host.Outcome.next ?_)
  simp [State.writeCs, State.reply, hsame]

theorem blockCounter_toNat (x : Word) (c : Nat) : (blockCounter x c).toNat = (x.toNat + c) % 2 ^ 32 := by
  simp [blockCounter]

/-- The caller may store where there is ordinary memory, readable or writable. -/
theorem callerFault_of_ordinary {p : Platform} {a : Nat} (ha : a < 2 ^ p.aw)
    (ho : p.ordinary false a = true ∨ p.ordinary true a = true) : p.callerFault a = none :=
  ho.elim (fun ho => callerFault_of_byteFault (byteFault_eq_none.mpr ⟨ha, ho⟩))
    fun ho => callerFault_of_byteFault (byteFault_eq_none.mpr ⟨ha, ho⟩)

end pseudo

/-- Settles O57: each pseudo-instruction is the state its equation names; the caller's store changes the bytes it stores. -/
theorem hostPseudoInstructions : Obligations.HostPseudoInstructions := by
  intro s hidle
  refine ⟨fun w => ?_, fun w src dst nr n hsrc hdst hnr hn => ?_, fun w src dst nr n hwide => ?_, fun hset c => ?_,
    fun a bs rest hi hmem => ?_⟩
  · refine ⟨_, setCipherState_eq w hidle, rfl, fun i => ?_, rfl⟩
    simp [State.withCipherState]
  · rw [xform4Call, setStateIfChanged_eq w hidle, andThen_next,
      xform4Operands_eq (s := s.withCipherState w) hidle (operandsFit_iff.mpr ⟨hsrc, hdst, hnr, hn⟩),
      ← addrField_ofNat hsrc, ← addrField_ofNat hdst]
    rfl
  · rw [xform4Call, setStateIfChanged_eq w hidle, andThen_next]
    refine xform4Operands_tooWide fun hf => ?_
    have hfit := operandsFit_iff.mp hf
    omega
  · refine ⟨_, counterAdvance_eq c hidle hset, ?_, fun i hne => ?_, rfl⟩
    · simp [blockCounter_toNat]
    · have hval : 12 ≠ i.val := fun he => hne (Fin.ext he.symm)
      simp [hval]
  · have hallowed : s.platform.callerStoreFault a bs.length = none :=
      callerStoreFault_eq_none.mpr fun j hj => callerFault_of_ordinary (hmem j hj).1 (hmem j hj).2
    refine ⟨_, (step_of_callerStore hidle hi).trans (callerStore_ok hallowed), fun hwf j => ?_, fun b hb => ?_, rfl⟩
    · exact Memory.get_store_inside bs hwf j j.isLt
    · exact Memory.get_store_outside s.mem bs hb

end Sys2Proof.Machine

namespace Sys2Proof.Machine

/-! ### The outcome of a command that goes on -/

/-- The memory the command of these registers leaves. -/
def State.outputMem (s : State) : Memory := commandMem s.mem s.src s.dst (keystream s.cs s.roundCount) s.byteCount

section ready
variable {s t : State}

/-- A command that goes on was ready: a refusal has no next state. -/
theorem ready_of_exec_xform4_next (hidle : s.upc = none) (h : exec .xform4 s = .next t) : s.Ready := by
  refine ⟨hidle, ?_⟩
  rw [exec_xform4_of_idle hidle] at h
  cases hadm : s.admission with
  | some e => rw [launch_of_refused hadm] at h; cases h
  | none => rfl

/-- The state a ready command ends in: `launch_spec`, with the keystream function (R110, R111). -/
theorem State.Ready.exec_xform4 (h : s.Ready) : ∃ w, exec .xform4 s = .next
    (finished s w s.outputMem (s.history ++ commandTrace s.src s.dst s.roundCount s.byteCount)) := by
  obtain ⟨hidle, hadm⟩ := h
  obtain ⟨w, hw⟩ := launch_spec hadm
  rw [commandKeystream_eq] at hw
  exact ⟨w, (exec_xform4_of_idle hidle).trans hw⟩

/-- Admission looks at host registers and platform only, which a command leaves alone. -/
theorem State.Ready.finished_ready (h : s.Ready) (w : Working) (m : Memory) (es : List Event) : (finished s w m es).Ready :=
  ⟨rfl, h.2⟩

theorem State.Ready.byteCount_le (h : s.Ready) : s.byteCount ≤ 256 := (admitted_of_admission h.2).high

/-- A ready command writes its destination and nothing else. -/
theorem State.Ready.outputMem_written (h : s.Ready) (hm : Memory.wf s.mem = true) :
    Written s.mem s.src.toNat s.dst.toNat (keystream s.cs s.roundCount) (· < s.byteCount) s.outputMem :=
  have ha := admitted_of_admission h.2
  commandMem_written hm ha.sameOrDisjoint ha.low ha.high

end ready

/-! ### What a command leaves unchanged (R117) -/

section outside
variable (m : Memory) (src dst : Word) (ks : Vector Byte 256) {n k a : Nat}

/-- The walk, k sub-chunks being done, has stored inside the first k - 1 of the destination. Canonical or not, the memory
beside them is as it was. -/
theorem walked_outside (ha : a < dst.toNat ∨ dst.toNat + 32 * (k - 1) ≤ a) :
    Memory.get (walked m src dst ks k).1 a = Memory.get m a := by
  induction k with
  | zero => rfl
  | succ k ih =>
    simp only [walked]
    split
    · next h0 => exact ih (by omega)
    · next h0 => rw [Memory.get_store_chunk_outside _ _ (by omega), ih (by omega)]

/-- The memory beside the n bytes of the destination is as it was before the command. -/
theorem commandMem_outside (hlow : 64 < n) (ha : a < dst.toNat ∨ dst.toNat + n ≤ a) :
    Memory.get (commandMem m src dst ks n) a = Memory.get m a := by
  have hexit : 2 ≤ exitSubchunk n ∧ 32 * exitSubchunk n + (if residue n = 0 then 32 else residue n) = n := by
    unfold exitSubchunk residue
    split <;> omega
  obtain ⟨h2, hn⟩ := hexit
  simp only [commandMem]
  split at hn
  · next h0 =>
    rw [if_pos h0, Memory.get_store_chunk_outside _ _ (by omega), Memory.get_store_chunk_outside _ _ (by omega),
      walked_outside _ _ _ _ (by omega)]
  · next h0 =>
    rw [if_neg h0, Memory.get_store_chunk_outside _ _ (by omega), Memory.get_store_chunk_outside _ _ (by omega),
      walked_outside _ _ _ _ (by omega)]

end outside

/-- Settles O17: the command ends in `finished`, which keeps every host register, and its stores lie in the destination
(`commandMem_outside`). -/
theorem commandFrame : Obligations.CommandFrame := by
  intro s t hidle h
  have hready := ready_of_exec_xform4_next hidle h
  obtain ⟨w, hw⟩ := hready.exec_xform4
  rw [hw] at h
  cases h
  exact ⟨rfl, rfl, rfl, rfl, rfl, rfl, rfl, rfl, rfl, rfl, rfl, rfl,
    fun a ha => commandMem_outside _ _ _ _ (admitted_of_admission hready.2).low ha⟩

/-- Settles O19: the events a command adds are `commandTrace`, whose words are `useq` (`issuedWords_commandTrace`). -/
theorem commandIssuesUseq : Obligations.CommandIssuesUseq := by
  intro s t hidle h
  obtain ⟨-, hh⟩ := exec_xform4_next hidle h
  rw [hh, issuedWords_append, issuedWords_commandTrace]

/-! ### Two commands with one keystream (R119) -/

section twice
variable {m m' m'' : Memory} {src mid dst : Nat} {ks : Vector Byte 256} {P : Nat → Prop}

/-- The second XOR with the keystream undoes the first. -/
theorem Written.get_twice (h : Written m src mid ks P m') (h' : Written m' mid dst ks P m'') (x : Fin 256) (hx : P x) :
    Memory.get m'' (dst + x) = Memory.get m (src + x) := by
  rw [h'.out x hx, h.out x hx, BitVec.xor_assoc, BitVec.xor_self, BitVec.xor_zero]

/-- In place, what leads from m to m' leads back. -/
theorem Written.reverse (h : Written m src dst ks P m') (hm : Memory.wf m = true) (hsd : src = dst) :
    Written m' src dst ks P m where
  wf := hm
  out x hx := by rw [hsd, h.out x hx, BitVec.xor_assoc, BitVec.xor_self, BitVec.xor_zero, hsd]
  frame a ha := (h.frame a ha).symm

end twice

/-- Settles O25: in place the memory after the second command is the one that `Written.reverse` leads back to; elsewhere its
output is read byte by byte (`Written.get_twice`). -/
theorem commandTwiceRestores : Obligations.CommandTwiceRestores := by
  refine ⟨fun s hs hsd hm => ?_, fun s t u d hs hm ht hu hready => ?_⟩
  · obtain ⟨w, hw⟩ := hs.exec_xform4
    have hagain := hs.finished_ready w s.outputMem (s.history ++ commandTrace s.src s.dst s.roundCount s.byteCount)
    obtain ⟨w', hw'⟩ := hagain.exec_xform4
    have hfirst := hs.outputMem_written hm
    have hsecond := hagain.outputMem_written hfirst.wf
    have hlt (x : Nat) (hx : x < s.byteCount) : x < 256 := hx.trans_le hs.byteCount_le
    exact ⟨_, _, hw, hw', hsecond.unique (hfirst.reverse hm (congrArg _ hsd)) hlt⟩
  · obtain ⟨w, hw⟩ := hs.exec_xform4
    rw [hw] at ht
    cases ht
    subst hu
    obtain ⟨w', hw'⟩ := hready.exec_xform4
    have hfirst := hs.outputMem_written hm
    have hsecond := hready.outputMem_written hfirst.wf
    exact ⟨_, hw', fun x hx => hfirst.get_twice hsecond ⟨x, hx.trans_le hs.byteCount_le⟩ hx⟩

/-- Settles O26: both outputs are the source XOR one keystream (`commandXorsKeystream`), which does not depend on NBYTES. -/
theorem shorterCommandIsPrefix : Obligations.ShorterCommandIsPrefix := by
  rintro s₁ s₂ n₁ rfl hs₁ hs₂ hle hm
  obtain ⟨t₁, ht₁, -, hout₁⟩ := commandXorsKeystream _ hs₁ hm
  obtain ⟨t₂, ht₂, -, hout₂⟩ := commandXorsKeystream _ hs₂ hm
  refine ⟨t₁, t₂, ht₁, ht₂, fun x hx => ?_⟩
  have hx256 := hx.trans_le hs₁.byteCount_le
  exact (hout₁ ⟨x, hx256⟩ hx).trans (hout₂ ⟨x, hx256⟩ (hx.trans_le hle)).symm

/-! ### The order of the six conditions (R118, R222) -/

/-- The admission check in the words of R118: the first of the six conditions that fails names the refusal. -/
theorem admission_eq (s : State) : s.admission =
    if s.LengthOk then
      if s.RoundsOk then
        if s.RangeOk then
          if s.MemoryOk then
            if s.RegionsOk then
              if s.CipherOk then none else some .csUnset
            else some .aliasing
          else some .memory
        else some .range
      else some .rounds
    else some .len := by
  simp only [State.admission, ← Bool.not_eq_false, lenBad_eq_false_iff, roundsBad_eq_false_iff, rangeBad_eq_false_iff,
    memoryBad_eq_false_iff, aliasBad_eq_false_iff, csBad_eq_false_iff, ite_not]

/-- Settles O14: each clause picks its branch of `admission_eq`. -/
theorem admissionOrder : Obligations.AdmissionOrder := by
  intro s hidle
  have hrefused {e : Refusal} (he : s.admission = some e) : exec .xform4 s = .refused e :=
    (exec_xform4_of_idle hidle).trans (launch_of_refused he)
  refine ⟨fun h1 => hrefused ?_, fun h1 h2 => hrefused ?_, fun h1 h2 h3 => hrefused ?_, fun h1 h2 h3 h4 => hrefused ?_,
    fun h1 h2 h3 h4 h5 => hrefused ?_, fun h1 h2 h3 h4 h5 h6 => hrefused ?_, admission_eq_none⟩
  · rw [admission_eq, if_neg h1]
  · rw [admission_eq, if_pos h1, if_neg h2]
  · rw [admission_eq, if_pos h1, if_pos h2, if_neg h3]
  · rw [admission_eq, if_pos h1, if_pos h2, if_pos h3, if_neg h4]
  · rw [admission_eq, if_pos h1, if_pos h2, if_pos h3, if_pos h4, if_neg h5]
  · rw [admission_eq, if_pos h1, if_pos h2, if_pos h3, if_pos h4, if_pos h5, if_neg h6]

/-! ### The control micro-operations (R114 to R116) -/

theorem addrField_toNat (aw : Nat) (w : Word) : (addrField aw w).toNat = w.toNat % 2 ^ aw := by
  rw [addrField, BitVec.toNat_ofNat]
  exact Nat.mod_eq_of_lt ((Nat.mod_le _ _).trans_lt w.isLt)

section control
variable {s : State} {u : Nat} (hu : s.upc = some u)
include hu

/-- A micro-operation that needs no more than a running command goes on. -/
theorem reading_upc (k : Result) : reading s [.upc] k = k := reading_of_live (by simp [State.isLive, hu])

/-- LATCH of a running engine (R114). -/
theorem exec_latch : exec .latch s = .next { s.latchOperands with
    upc := some (u + 1), seq := s.seq ++ (preamble (roundsField s.rounds).toNat).map encodeUw } := by
  refine (reading_upc hu _).trans ?_
  simp only [State.advance, State.enqueue, State.latchOperands_upc, hu]
  rfl

/-- DERIVE of a running engine (R115). -/
theorem exec_derive : exec .derive s = .next { s with
    upc := some (u + 1)
    work := { s.work with m := deriveStates s.cs, live := { s.work.live with matrices := true } } } := by
  refine (reading_upc hu _).trans ?_
  simp only [State.advance, hu]
  rfl

end control

/-- Settles O33: the operands are fields of the registers, cut as R84 says. -/
theorem latchEffect : Obligations.LatchEffect := fun _ _ hu =>
  ⟨_, exec_latch hu, addrField_toNat _ _, addrField_toNat _ _, nbytesField_toNat _, roundsField_toNat _, rfl, rfl, rfl⟩

/-- Settles O34: each matrix is the block's input state (`deriveStates_getElem`), which differs from CS in word 12 only. -/
theorem deriveEffect : Obligations.DeriveEffect := by
  intro s u hu
  refine ⟨_, exec_derive hu, fun b i hi => ?_, fun b => ?_, rfl⟩
  · have hne : 12 ≠ i.val := fun he => hi (Fin.ext he.symm)
    show (deriveStates s.cs)[b][i] = s.cs[i]
    rw [deriveStates_getElem]
    simp [blockInput, hne]
  · show ((deriveStates s.cs)[b][12]).toNat = _
    rw [deriveStates_getElem]
    simp [blockInput, blockCounter_toNat]

/-- Settles O35: a running engine has the one element that DONE reads (`reading_upc`). -/
theorem doneEffect : Obligations.DoneEffect := fun _ _ hu => reading_upc hu _

end Sys2Proof.Machine

namespace Sys2Proof.Machine

/-! ### Mixing one lane into another: what ADD32, XOR32 and ROTL32 have in common (R130 to R132) -/

theorem rotl32_eq_rotateLeft (x : Word) {c : Nat} (hc : c < 32) : rotl32 x c = x.rotateLeft c := by
  rw [rotl32, BitVec.rotateLeft_def, Nat.mod_eq_of_lt hc]

theorem getLsbD_rotl32 (x : Word) {c i : Nat} (hi : i < 32) :
    (rotl32 x c).getLsbD i = if i < c then x.getLsbD (32 - c + i) else x.getLsbD (i - c) := by
  by_cases h : i < c
  · simp [rotl32, h]
  · simp [rotl32, h, hi, BitVec.getLsbD_of_ge x (32 - c + i) (by omega), -BitVec.getLsbD_eq_getElem]

/-- Two rotations whose amounts make a whole turn cancel. -/
theorem rotl32_rotl32_of_add_eq (x : Word) {c d : Nat} (h : c + d = 32) : rotl32 (rotl32 x c) d = x := by
  refine BitVec.eq_of_getLsbD_eq fun i hi => ?_
  rw [getLsbD_rotl32 _ hi]
  split_ifs with hid
  · rw [getLsbD_rotl32 _ (by omega), if_neg (by omega), show 32 - d + i - c = i by omega]
  · rw [getLsbD_rotl32 _ (by omega), if_pos (by omega), show 32 - c + (i - d) = i by omega]

/-- Lane i becomes `f` of its own word and lane j's, in each block separately. -/
def mixLane (f : Word → Word → Word) (i j : Fin 16) (v : Lanes) : Lanes :=
  v.set i (Vector.ofFn fun b => f v[i][b] v[j][b])

theorem laneAdd_eq_mixLane (q : BitVec 3) (rd rs : BitVec 2) :
    laneAdd q rd rs = mixLane (· + ·) (slotLane q rd) (slotLane q rs) := rfl

theorem laneXor_eq_mixLane (q : BitVec 3) (rd rs : BitVec 2) :
    laneXor q rd rs = mixLane (· ^^^ ·) (slotLane q rd) (slotLane q rs) := rfl

/-- A rotation reads its own lane only, so any lane does as the second one. -/
theorem laneRotl_eq_mixLane (q : BitVec 3) (rd : BitVec 2) (c : Nat) (j : Fin 16) :
    laneRotl q rd c = mixLane (fun x _ => rotl32 x c) (slotLane q rd) j := rfl

section mixLane
variable {f g : Word → Word → Word} {i j : Fin 16}

@[simp] theorem mixLane_getElem_self (v : Lanes) (b : Fin 4) : (mixLane f i j v)[i][b] = f v[i][b] v[j][b] := by
  simp [mixLane]

theorem mixLane_getElem_of_ne (v : Lanes) {k : Fin 16} (hk : k ≠ i) : (mixLane f i j v)[k] = v[k] :=
  Vector.getElem_set_ne _ _ fun he => hk (Fin.ext he.symm)

/-- Undone word by word, a mixing is undone on the lane file: the lane mixed in is still there. -/
theorem mixLane_leftInverse (hij : i ≠ j) (h : ∀ x y, g (f x y) y = x) :
    Function.LeftInverse (mixLane g i j) (mixLane f i j) := by
  refine fun v => Vector.ext fun k hk => ?_
  have hword (b : Fin 4) : (mixLane g i j (mixLane f i j v))[i][b] = v[i][b] := by
    rw [mixLane_getElem_self, mixLane_getElem_self, mixLane_getElem_of_ne v hij.symm, h]
  by_cases hki : ⟨k, hk⟩ = i
  · subst hki
    exact Vector.ext fun b hb => hword ⟨b, hb⟩
  · exact (mixLane_getElem_of_ne (k := ⟨k, hk⟩) _ hki).trans (mixLane_getElem_of_ne v hki)

theorem mixLane_bijective (hij : i ≠ j) (hgf : ∀ x y, g (f x y) y = x) (hfg : ∀ x y, f (g x y) y = x) :
    Function.Bijective (mixLane f i j) :=
  Function.bijective_iff_has_inverse.mpr ⟨mixLane g i j, mixLane_leftInverse hij hgf, mixLane_leftInverse hij hfg⟩

/-- A lane operation inside a QR mixes into the destination lane and changes nothing else. -/
theorem inSlot_mixLane {s : State} {q : BitVec 3} {op : BitVec 3 → Lanes → Lanes} (hq : s.work.slot = some q)
    (hl : s.work.live.lanes = true) (hop : op q = mixLane f i j) :
    ∃ t, inSlot s op = .next t
      ∧ (∀ b : Fin 4, t.work.v[i][b] = f s.work.v[i][b] s.work.v[j][b])
      ∧ (∀ k : Fin 16, k ≠ i → t.work.v[k] = s.work.v[k])
      ∧ t = { s with work := { s.work with v := t.work.v } } := by
  refine ⟨s.setLanes (mixLane f i j s.work.v), ?_, mixLane_getElem_self _, fun _ => mixLane_getElem_of_ne _, rfl⟩
  rw [inSlot_of_slot hq hl, hop]

end mixLane

/-- Settles O36: the three operations are mixings of one lane (`inSlot_mixLane`). -/
theorem laneOperations : Obligations.LaneOperations := by
  intro s q rd rs hq hl
  refine ⟨inSlot_mixLane hq hl (laneAdd_eq_mixLane q rd rs), inSlot_mixLane hq hl (laneXor_eq_mixLane q rd rs),
    fun c hc => ?_⟩
  have hexec : exec (.rotl32 rd c) s = inSlot s fun q v => laneRotl q rd c.toNat v := if_neg hc
  simp only [hexec, ← rotl32_eq_rotateLeft _ c.isLt]
  exact inSlot_mixLane (op := fun q => laneRotl q rd c.toNat) hq hl (laneRotl_eq_mixLane q rd c.toNat (slotLane q rd))

/-! ### QR is a bijection that fixes zero (R133) -/

section bijective
variable (q : BitVec 3) {rd rs : BitVec 2}

theorem laneAdd_bijective (h : rd ≠ rs) : Function.Bijective (laneAdd q rd rs) := by
  rw [laneAdd_eq_mixLane]
  exact mixLane_bijective (g := (· - ·)) ((slotLane_injective q).ne h) BitVec.add_sub_cancel BitVec.sub_add_cancel

theorem laneXor_bijective (h : rd ≠ rs) : Function.Bijective (laneXor q rd rs) := by
  have hcancel (x y : Word) : x ^^^ y ^^^ y = x := by rw [BitVec.xor_assoc, BitVec.xor_self, BitVec.xor_zero]
  rw [laneXor_eq_mixLane]
  exact mixLane_bijective ((slotLane_injective q).ne h) hcancel hcancel

theorem laneRotl_bijective (rd : BitVec 2) {c : Nat} (hc : c ≤ 32) : Function.Bijective (laneRotl q rd c) := by
  obtain ⟨j, hj⟩ := exists_ne (slotLane q rd)
  rw [laneRotl_eq_mixLane q rd c j]
  exact mixLane_bijective (g := fun x _ => rotl32 x (32 - c)) hj.symm
    (fun x _ => rotl32_rotl32_of_add_eq x (by omega)) fun x _ => rotl32_rotl32_of_add_eq x (by omega)

end bijective

/-- A quarter of QR: add y to x, XOR x into z, rotate z left. -/
def quarterStep (q : BitVec 3) (x y z : BitVec 2) (c : Nat) : Lanes → Lanes :=
  laneRotl q z c ∘ laneXor q z x ∘ laneAdd q x y

theorem quarterRound_eq_quarterSteps (q : BitVec 3) : quarterRound q =
    quarterStep q 2 3 1 7 ∘ quarterStep q 0 1 3 8 ∘ quarterStep q 2 3 1 12 ∘ quarterStep q 0 1 3 16 := rfl

theorem quarterStep_bijective (q : BitVec 3) {x y z : BitVec 2} {c : Nat} (hxy : x ≠ y) (hzx : z ≠ x) (hc : c ≤ 32) :
    Function.Bijective (quarterStep q x y z c) :=
  (laneRotl_bijective q z hc).comp ((laneXor_bijective q hzx).comp (laneAdd_bijective q hxy))

theorem quarterRound_bijective (q : BitVec 3) : Function.Bijective (quarterRound q) := by
  rw [quarterRound_eq_quarterSteps]
  have hab {c : Nat} := quarterStep_bijective q (x := 0) (y := 1) (z := 3) (c := c) (by decide) (by decide)
  have hcd {c : Nat} := quarterStep_bijective q (x := 2) (y := 3) (z := 1) (c := c) (by decide) (by decide)
  exact (hcd (by decide)).comp ((hab (by decide)).comp ((hcd (by decide)).comp (hab (by decide))))

/-- The lane file of zero words. -/
def zeroLanes : Lanes := Vector.replicate 16 (Vector.replicate 4 0)

theorem mixLane_zeroLanes {f : Word → Word → Word} (hf : f 0 0 = 0) (i j : Fin 16) :
    mixLane f i j zeroLanes = zeroLanes := by
  have hlane : (Vector.ofFn fun _ => f 0 0 : Lane) = zeroLanes[i] := by
    ext b hb
    rw [Vector.getElem_ofFn, hf]
    simp [zeroLanes]
  have hmix : mixLane f i j zeroLanes = zeroLanes.set i (Vector.ofFn fun _ => f 0 0) := by simp [mixLane, zeroLanes]
  rw [hmix, hlane]
  exact Vector.set_getElem_self i.isLt

theorem rotl32_zero (c : Nat) : rotl32 0 c = 0 := by simp [rotl32]

theorem quarterStep_zeroLanes (q : BitVec 3) (x y z : BitVec 2) (c : Nat) : quarterStep q x y z c zeroLanes = zeroLanes := by
  rw [quarterStep, Function.comp_apply, Function.comp_apply, laneAdd_eq_mixLane, laneXor_eq_mixLane, laneRotl_eq_mixLane q z c (slotLane q z),
    mixLane_zeroLanes (BitVec.add_zero 0), mixLane_zeroLanes BitVec.xor_self, mixLane_zeroLanes (rotl32_zero c)]

theorem quarterRound_zeroLanes (q : BitVec 3) : quarterRound q zeroLanes = zeroLanes := by
  simp only [quarterRound_eq_quarterSteps, Function.comp_apply, quarterStep_zeroLanes]

/-- Settles O39: each of the twelve operations mixes one lane into another and can be undone; zero mixed into zero is zero. -/
theorem quarterRoundIsBijective : Obligations.QuarterRoundIsBijective :=
  fun q => ⟨quarterRound_bijective q, quarterRound_zeroLanes q⟩

/-! ### QR, the rounds and ADDORIG of a running engine (R133, R135 to R139) -/

theorem State.setLanes_setLanes (s : State) (v w : Lanes) : (s.setLanes v).setLanes w = s.setLanes w := rfl

theorem State.advance_setLanes {s : State} {u : Nat} (hu : s.upc = some u) (v : Lanes) :
    (s.setLanes v).advance = { s with upc := some (u + 1), work := { s.work with v := v } } := by
  simp only [State.advance, State.setLanes_upc, hu]
  rfl

section rounds
variable {s : State} (hl : s.work.live.lanes = true)
include hl

theorem reading_lanes (k : Result) : reading s [.lanes] k = k := reading_of_live (by simp [State.isLive, hl])

theorem exec_qr (q : BitVec 3) : exec (.qr q) s = .next (s.setLanes (quarterRound q s.work.v)) := reading_lanes hl _

theorem exec_colrnd : exec .colrnd s = .next (s.setLanes (columnRound s.work.v)) := reading_lanes hl _

theorem exec_diagrnd : exec .diagrnd s = .next (s.setLanes (diagonalRound s.work.v)) := reading_lanes hl _

theorem exec_dblrnd {u : Nat} {dr : BitVec 7} (hu : s.upc = some u) (hdr : dr.toNat ≤ 126) :
    exec (.dblrnd dr) s = .next { s with upc := some (u + 1), work := { s.work with v := doubleRound s.work.v } } := by
  have hread (k : Result) : reading s [.upc, .lanes] k = k := reading_of_live (by simp [State.isLive, hu, hl])
  rw [← State.advance_setLanes hu]
  exact (if_neg (by omega)).trans (hread _)

theorem exec_addorig {u : Nat} (hu : s.upc = some u) (ho : s.work.live.original = true) : exec .addorig s =
    .next { s with upc := some (u + 1), work := { s.work with v := addOriginal s.work.v s.work.v0 } } := by
  have hread (k : Result) : reading s [.upc, .lanes, .original] k = k :=
    reading_of_live (by simp [State.isLive, hu, hl, ho])
  rw [← State.advance_setLanes hu]
  exact hread _

/-- Four QRs in turn. -/
theorem exec_qrs (q₀ q₁ q₂ q₃ : BitVec 3) :
    andThen (exec (.qr q₀) s) (fun s => andThen (exec (.qr q₁) s) fun s => andThen (exec (.qr q₂) s) fun s =>
      exec (.qr q₃) s) =
    .next (s.setLanes (s.work.v |> quarterRound q₀ |> quarterRound q₁ |> quarterRound q₂ |> quarterRound q₃)) := by
  have hq (v : Lanes) (q : BitVec 3) : exec (.qr q) (s.setLanes v) = .next (s.setLanes (quarterRound q v)) :=
    exec_qr (s := s.setLanes v) hl q
  rw [exec_qr hl, andThen_next, hq, andThen_next, hq, andThen_next, hq]

theorem exec_colrnd_diagrnd :
    andThen (exec .colrnd s) (fun s => exec .diagrnd s) = .next (s.setLanes (doubleRound s.work.v)) := by
  have hlanes : (s.setLanes (columnRound s.work.v)).work.live.lanes = true := hl
  rw [exec_colrnd hl, andThen_next, exec_diagrnd hlanes, State.setLanes_setLanes, State.setLanes_work, doubleRound]

end rounds

/-- Settles O38: the slot's words by `slotWords_quarterRound`, the other lanes by `quarterRound_getElem_of_ne`. -/
theorem quarterRoundEffect : Obligations.QuarterRoundEffect := fun s q hl =>
  ⟨_, exec_qr hl q, slotWords_quarterRound q s.work.v, quarterRound_getElem_of_ne q s.work.v, rfl⟩

/-- Settles O40: each round rewrites the lanes as its four QRs in turn do (`exec_qrs`). -/
theorem roundsAreTheirQuarterRounds : Obligations.RoundsAreTheirQuarterRounds := by
  intro s u dr hu hl hdr
  refine ⟨_, _, _, exec_colrnd hl, exec_diagrnd hl, exec_dblrnd hl hu hdr, exec_qrs hl 0 1 2 3, exec_qrs hl 4 5 6 7,
    ?_, rfl, rfl, rfl, rfl⟩
  rw [exec_colrnd_diagrnd hl, State.setLanes, ← hu]

/-- Settles O41 by `deinterleave_doubleRound`: each slot's QR is the quarter round of the block alone. -/
theorem blocksAreIndependent : Obligations.BlocksAreIndependent := deinterleave_doubleRound

/-- Settles O42: `addOriginal` is word by word the sum with the pre-mix word. -/
theorem addOriginalEffect : Obligations.AddOriginalEffect := by
  intro s u hu hl ho
  refine ⟨_, exec_addorig hl hu ho, fun i b => ?_, rfl⟩
  simp [addOriginal]

end Sys2Proof.Machine

namespace Sys2Proof.Machine

/-! ### The two layouts and the flat one (R150 to R154) -/

@[simp] theorem interleave_getElem (m : Matrices) (i b : Nat) (hi : i < 16) (hb : b < 4) :
    (interleave m)[i][b] = m[b][i] := by
  simp [interleave]

@[simp] theorem interleave_deinterleave (v : Lanes) : interleave (deinterleave v) = v := by
  ext i hi b hb
  rw [interleave_getElem, deinterleave_getElem]

theorem leByte_toNat (x : Word) (j : Nat) : (leByte x j).toNat = x.toNat / 2 ^ (8 * j) % 256 := by
  rw [leByte, BitVec.extractLsb'_toNat, Nat.shiftRight_eq_div_pow]

/-- The position of a byte determines its block, its word and its place in the word. -/
theorem serialise_getElem (m : Matrices) (b : Fin 4) (i : Fin 16) (j : Fin 4) :
    (serialise m)[64 * b.val + 4 * i.val + j.val]'(by omega) = leByte m[b][i] j := by
  have hblock : (64 * b.val + 4 * i.val + j.val) / 64 = b := by omega
  have hword : (64 * b.val + 4 * i.val + j.val) / 4 % 16 = i := by omega
  have hbyte : (64 * b.val + 4 * i.val + j.val) % 4 = j := by omega
  simp only [serialise, Vector.getElem_ofFn, hblock, hword, hbyte]
  rfl

/-! ### ILV, DLV and SER of a running engine -/

section layout
variable {s : State} {u : Nat} (hu : s.upc = some u)
include hu

/-- A micro-operation that reads one element of the working state, writes the working state and advances. -/
theorem reading_setWork {e : WorkElem} (he : s.isLive e = true) (w : Working) :
    reading s [.upc, e] (.next { s with work := w }.advance) = .next { s with upc := some (u + 1), work := w } := by
  have hupc : s.isLive .upc = true := by simp [State.isLive, hu]
  rw [reading_of_live (by simp [hupc, he]), State.advance, hu]
  rfl

theorem exec_ilv (hm : s.work.live.matrices = true) : exec .ilv s = .next { s with
    upc := some (u + 1)
    work := { s.work with
      v := interleave s.work.m, v0 := interleave s.work.m
      live := { s.work.live with lanes := true, original := true } } } :=
  reading_setWork (e := .matrices) hu hm _

theorem exec_dlv (hl : s.work.live.lanes = true) : exec .dlv s = .next { s with
    upc := some (u + 1)
    work := { s.work with m := deinterleave s.work.v, live := { s.work.live with matrices := true } } } :=
  reading_setWork (e := .lanes) hu hl _

theorem exec_ser (hm : s.work.live.matrices = true) : exec .ser s = .next { s with
    upc := some (u + 1)
    work := { s.work with ks := serialise s.work.m, live := { s.work.live with keystream := true } } } :=
  reading_setWork (e := .matrices) hu hm _

end layout

/-- Settles O43: the words by `interleave_getElem` and `deinterleave_getElem`, the bytes by `serialise_getElem`. -/
theorem layoutEffects : Obligations.LayoutEffects := by
  intro s u hu
  refine ⟨fun hm => ⟨_, exec_ilv hu hm, fun i b => ?_, rfl⟩, fun hl => ⟨_, exec_dlv hu hl, fun b i => ?_, rfl⟩,
    fun hm => ⟨_, exec_ser hu hm, fun b i j => ?_, rfl⟩⟩
  · have hword := interleave_getElem s.work.m i b i.isLt b.isLt
    exact ⟨hword, hword⟩
  · exact deinterleave_getElem s.work.v b i b.isLt i.isLt
  · rw [serialise_getElem, leByte_toNat]

/-- Settles O44: the second micro-operation finds live what the first wrote, and the two transpositions cancel
(`deinterleave_interleave`, `interleave_deinterleave`). -/
theorem layoutsAreInverse : Obligations.LayoutsAreInverse := by
  intro s u hu
  refine ⟨fun hm => ?_, fun hl => ?_⟩
  · rw [exec_ilv hu hm, andThen_next]
    exact ⟨_, exec_dlv rfl rfl, deinterleave_interleave s.work.m⟩
  · rw [exec_dlv hu hl, andThen_next]
    exact ⟨_, exec_ilv rfl rfl, interleave_deinterleave s.work.v⟩

end Sys2Proof.Machine

namespace Sys2Proof.Machine

/-! ### The micro-operations and transactions that leave the memory alone (R36) -/

section keepsMemory
variable {i : Instr} {s t : State}

/-- An operation that first rejects some operands and goes on was given another one. -/
theorem unguarded_next {p : Prop} [Decidable p] {f : Fault} {r : Result}
    (h : (if p then .fault f else r) = Host.Outcome.next t) : ¬ p ∧ r = .next t := by
  split at h
  · cases h
  · next hp => exact ⟨hp, h⟩

/-- A micro-operation without accesses answers a state made in advance: its reads change nothing. -/
theorem reading_keeps_mem {es : List WorkElem} {u : State} (h : reading s es (.next u) = .next t)
    (hu : u.mem = s.mem) : t.mem = s.mem := by
  obtain ⟨-, h⟩ := reading_next h
  cases h
  exact hu

theorem inSlot_keeps_mem {f : BitVec 3 → Lanes → Lanes} (h : inSlot s f = .next t) : t.mem = s.mem := by
  obtain ⟨q, -, -, rfl⟩ := inSlot_next h
  rfl

/-- Every micro-operation but the four output ones leaves the memory as it was. -/
theorem execUop_keeps_mem (hfull : ∀ k, i ≠ .xfull k) (htail : ∀ kx, i ≠ .xexact kx ∧ i ≠ .xpart kx ∧ i ≠ .xprev kx)
    (h : execUop i s = .next t) : t.mem = s.mem := by
  cases i with
  | wr | rd | xform4 => cases h
  | latch | derive | done | qr | colrnd | diagrnd | addorig | ilv | dlv | ser | walk | xstep =>
    exact reading_keeps_mem h (by simp)
  | add32 | xor32 => exact inSlot_keeps_mem h
  | rotl32 =>
    obtain ⟨-, h⟩ := unguarded_next h
    exact inSlot_keeps_mem h
  | dblrnd =>
    obtain ⟨-, h⟩ := unguarded_next h
    exact reading_keeps_mem h (by simp)
  | bshift =>
    obtain ⟨-, h⟩ := unguarded_next h
    obtain ⟨-, h⟩ := reading_next h
    obtain ⟨-, h⟩ := unguarded_next h
    cases h
    simp
  | xfull k => exact absurd rfl (hfull k)
  | xexact kx => exact absurd rfl (htail kx).1
  | xpart kx => exact absurd rfl (htail kx).2.1
  | xprev kx => exact absurd rfl (htail kx).2.2

/-- WR of any register but CMD leaves the memory as it was. -/
theorem execWr_keeps_mem {idx : BitVec 7} {data : Word} (hcmd : idx ≠ 20#7) (h : execWr idx data s = .next t) :
    t.mem = s.mem := by
  obtain ⟨-, ⟨i, -, rfl⟩ | ⟨-, rfl⟩ | ⟨-, rfl⟩ | ⟨-, rfl⟩ | ⟨-, rfl⟩ | ⟨h20, -⟩ | ⟨-, rfl⟩⟩ := execWr_next h
  · rfl
  · rfl
  · rfl
  · rfl
  · rfl
  · exact absurd h20 hcmd
  · rfl

theorem execRd_keeps_mem {idx : BitVec 7} (h : execRd idx s = .next t) : t.mem = s.mem := by
  obtain ⟨-, b, w, rfl⟩ := execRd_next h
  exact State.replyRegister_mem s b w

end keepsMemory

/-- Settles O30: a register transaction or a micro-operation, neither of which writes the memory. -/
theorem onlyOutputUnitsStore : Obligations.OnlyOutputUnitsStore := by
  intro i s t h hfull htail hform hcmd a
  have hmem : t.mem = s.mem := by
    cases i with
    | wr idx data => exact execWr_keeps_mem (fun hidx => hcmd data (by rw [hidx])) h
    | rd idx => exact execRd_keeps_mem h
    | xform4 => exact absurd rfl hform
    | _ =>
      rw [← execUop_eq_exec rfl] at h
      exact execUop_keeps_mem hfull htail h
  exact congrArg (Memory.get · a) hmem

/-! ### WALK and XFULL of a running engine (R166, R169) -/

/-- The memory XFULL k leaves: the pending sub-chunk k - 1 is stored if there is one. -/
def State.xfullMem (s : State) (k : BitVec 3) : Memory :=
  if k = 0#3 then s.mem else s.mem.store (subchunkAddr s.work.d (k - 1)) s.work.pend.toList

/-- The accesses of XFULL k. -/
def State.xfullEvents (s : State) (k : BitVec 3) : List Event :=
  .read (subchunkAddr s.work.s k) :: if k = 0#3 then [] else [.write (subchunkAddr s.work.d (k - 1))]

section walkUnits
variable {s : State} {u : Nat} {k : BitVec 3} (hu : s.upc = some u)
include hu

theorem exec_walk (hl : s.work.live.latched = true) : exec .walk s = .next { s with
    upc := some (u + 1)
    work := { s.work with
      rem := remLoad s.work.n, k := 0
      live := { s.work.live with remaining := true, subchunk := true } } } :=
  reading_setWork (e := .latched) hu hl _

/-- XFULL of a running engine that has what it reads and may access both sub-chunks. -/
theorem exec_xfull (h6 : k.toNat ≤ 6) (hl : s.work.live.latched = true) (hk : s.work.live.keystream = true)
    (hs : s.work.live.subchunk = true) (hread : s.platform.accessFault false (subchunkAddr s.work.s k) 32 = none)
    (hwrite : k ≠ 0#3 → s.work.live.pending = true
      ∧ s.platform.accessFault true (subchunkAddr s.work.d (k - 1)) 32 = none) :
    exec (.xfull k) s = .next { s with
      upc := some (u + 1), mem := s.xfullMem k, history := s.history ++ s.xfullEvents k
      work := { s.work with
        pend := outChunk s.mem s.work.s s.work.ks k, k := s.work.k + 1
        live := { s.work.live with pending := true } } } := by
  have hlive : ∀ e ∈ Instr.reads (.xfull k), s.isLive e = true := by
    simp [Instr.reads, State.isLive, hu, hl, hk, hs]
  refine (if_neg (Nat.not_lt.mpr h6)).trans ((reading_of_live hlive).trans ((memRead_ok hread).trans ?_))
  by_cases h0 : k = 0#3
  · refine (if_pos h0).trans ?_
    simp [State.xfullMem, State.xfullEvents, h0, State.advance, State.holdBack, State.log, hu, outChunk]
  · obtain ⟨hp, hb⟩ := hwrite h0
    have hpend : ∀ e ∈ [WorkElem.pending], (s.log (.read (subchunkAddr s.work.s k))).isLive e = true := by
      simp [State.isLive, hp]
    refine (if_neg h0).trans ((reading_of_live hpend).trans
      ((memWrite_ok (s := s.log (.read (subchunkAddr s.work.s k))) hb).trans ?_))
    simp [State.xfullMem, State.xfullEvents, h0, State.advance, State.holdBack, State.log, hu, outChunk]

end walkUnits

/-- Settles O45: nine bits, zero-extended to ten, are not negative (`remLoad_toInt`). -/
theorem walkEffect : Obligations.WalkEffect := fun s _ hu hl =>
  ⟨_, exec_walk hu hl, remLoad_toInt s.work.n, rfl, rfl⟩

theorem outChunk_getElem (m : Memory) (src : Word) (ks : Vector Byte 256) (k : BitVec 3) (j : Fin 32) :
    (outChunk m src ks k)[j] = Memory.get m (src.toNat + 32 * k.toNat + j) ^^^ (keystreamChunk ks k)[j] := by
  simp [outChunk, subchunkAddr]

/-- The memory XFULL k leaves when a sub-chunk is pending, its address written out. -/
theorem State.xfullMem_of_ne {s : State} {k : BitVec 3} (h0 : k ≠ 0#3) :
    s.xfullMem k = s.mem.store (s.work.d.toNat + 32 * (k.toNat - 1)) s.work.pend.toList := by
  rw [State.xfullMem, if_neg h0, subchunkAddr_pred _ (by bv_omega)]

/-- Settles O47: the state of `exec_xfull`, its memory either the old one or the old one with PEND stored. -/
theorem fullSubchunkEffect : Obligations.FullSubchunkEffect := by
  intro s u k hu h6 hl hk hs hsrc hdst
  have hwrite (h0 : k ≠ 0#3) : s.work.live.pending = true
      ∧ s.platform.accessFault true (subchunkAddr s.work.d (k - 1)) 32 = none := by
    obtain ⟨hp, hacc⟩ := hdst h0
    rw [subchunkAddr_pred _ (by bv_omega)]
    exact ⟨hp, accessFault_of_canAccess hacc⟩
  refine ⟨_, exec_xfull hu h6 hl hk hs (accessFault_of_canAccess hsrc) hwrite, outChunk_getElem _ _ _ _, rfl,
    fun h0 => if_pos h0, fun h0 => ⟨fun hm j => ?_, fun a ha => ?_⟩, rfl⟩
  · rw [State.byteAt, State.xfullMem_of_ne h0]
    exact Memory.get_store_chunk _ hm j j.isLt
  · rw [State.byteAt, State.xfullMem_of_ne h0]
    exact Memory.get_store_chunk_outside _ _ ha

end Sys2Proof.Machine

namespace Sys2Proof.Machine

/-! ### XEXACT, BSHIFT, XPART and XPREV of a running engine (R181 to R184) -/

section tailUnits
variable {s : State} {u : Nat} {kx : BitVec 3} {r : BitVec 5} (hu : s.upc = some u)
include hu

/-- XEXACT of a running engine that has what it reads and may access its three sub-chunks. -/
theorem exec_xexact (h2 : 2 ≤ kx.toNat) (hl : s.work.live.latched = true) (hk : s.work.live.keystream = true)
    (hp : s.work.live.pending = true) (ha : s.platform.accessFault false (subchunkAddr s.work.s kx) 32 = none)
    (hb : s.platform.accessFault true (subchunkAddr s.work.d (kx - 1)) 32 = none)
    (hc : s.platform.accessFault true (subchunkAddr s.work.d kx) 32 = none) :
    exec (.xexact kx) s = .next { s with
      upc := some (u + 1)
      mem := (s.mem.store (subchunkAddr s.work.d (kx - 1)) s.work.pend.toList).store (subchunkAddr s.work.d kx)
        (outChunk s.mem s.work.s s.work.ks kx).toList
      history := s.history ++ [.read (subchunkAddr s.work.s kx), .write (subchunkAddr s.work.d (kx - 1)),
        .write (subchunkAddr s.work.d kx)] } := by
  have hlive : ∀ e ∈ Instr.reads (.xexact kx), s.isLive e = true := by simp [Instr.reads, State.isLive, hu, hl, hk, hp]
  refine (if_pos (decide_eq_true h2)).trans ((reading_of_live hlive).trans ((memRead_ok ha).trans
    ((memWrite_ok (s := s.log _) hb).trans ((memWrite_ok (s := State.log { s.log _ with mem := _ } _) hc).trans ?_))))
  simp [State.advance, State.log, outChunk, hu]

/-- BSHIFT of a running engine whose keystream and index, not 0, are written. -/
theorem exec_bshift (hr : r ≠ 0#5) (h0 : s.work.k ≠ 0#3) (hk : s.work.live.keystream = true)
    (hs : s.work.live.subchunk = true) : exec (.bshift r) s = .next { s with
      upc := some (u + 1)
      work := { s.work with
        t := windowKeystream s.work.ks s.work.k r, live := { s.work.live with shifted := true } } } := by
  have hlive : ∀ e ∈ Instr.reads (.bshift r), s.isLive e = true := by simp [Instr.reads, State.isLive, hu, hk, hs]
  refine (if_neg hr).trans ((reading_of_live hlive).trans ((if_neg h0).trans ?_))
  simp [State.advance, hu]

end tailUnits

/-- Settles O51: the state of `exec_xprev`, its one store read back byte for byte. -/
theorem previousStoreEffect : Obligations.PreviousStoreEffect := by
  intro s u kx hu h2 hl hp hdst
  have haddr := subchunkAddr_pred s.work.d (kx := kx) (by omega)
  have hexec := exec_xprev hu h2 hl hp (haddr ▸ accessFault_of_canAccess hdst)
  rw [haddr] at hexec
  exact ⟨_, hexec, fun hm j => Memory.get_store_chunk _ hm j j.isLt,
    fun _ ha => Memory.get_store_chunk_outside _ _ ha, rfl⟩

/-- Settles O48: the state of `exec_xexact`. The two stores are adjacent, so the second leaves the first as it was. -/
theorem exactExitEffect : Obligations.ExactExitEffect := by
  intro s u kx hu h2 hl hk hp hsrc hprev hdst
  have haddr := subchunkAddr_pred s.work.d (kx := kx) (by omega)
  have hexec := exec_xexact hu h2 hl hk hp (accessFault_of_canAccess hsrc) (haddr ▸ accessFault_of_canAccess hprev)
    (accessFault_of_canAccess hdst)
  rw [haddr, subchunkAddr] at hexec
  -- `with_reducible`: the frame is an equality of record fields, and plain `rfl` would evaluate the stored chunks.
  refine ⟨_, hexec, fun hm j => ⟨?_, ?_⟩, fun a ha => ?_, by with_reducible rfl⟩
  · rw [State.byteAt, Memory.get_store_chunk_outside _ _ (by omega), Memory.get_store_chunk _ hm j j.isLt]
    rfl
  · rw [State.byteAt, Memory.get_store_chunk _ (Memory.store_wf _ hm) j j.isLt]
    exact outChunk_getElem _ _ _ _ _
  · rw [State.byteAt, Memory.get_store_chunk_outside _ _ (by omega), Memory.get_store_chunk_outside _ _ (by omega)]
    rfl

/-- Settles O50: the state of `exec_xpart`, its one store read back byte for byte. -/
theorem partialStoreEffect : Obligations.PartialStoreEffect := by
  intro s u kx hu h2 hn hl ht hsrc hdst
  have hexec := exec_xpart hu h2 hn hl ht (accessFault_of_canAccess hsrc) (accessFault_of_canAccess hdst)
  refine ⟨_, hexec, fun hm j => ?_, fun a ha => ?_, by with_reducible rfl⟩
  · rw [State.byteAt, Memory.get_store_chunk _ hm j j.isLt]
    simp [outWindow, State.byteAt]
  · rw [State.byteAt, Memory.get_store_chunk_outside _ _ (by omega)]
    rfl

/-! ### The keystream of the window (R182) -/

theorem IsKeystreamAt.getElem {ks : Vector Byte 256} {c : Nat} {y : Chunk} (h : IsKeystreamAt ks c y) (j : Fin 32)
    (x : Fin 256) (hx : x.val = c + j) : y[j] = ks[x] := by
  have hget := h x (by omega) (by omega)
  simpa [hx] using hget

/-- `isKeystreamAt_windowKeystream` for the machine's own index and residue. -/
theorem isKeystreamAt_windowKeystream_of_pos (ks : Vector Byte 256) {k : BitVec 3} (hk : 1 ≤ k.toNat) (r : BitVec 5) :
    IsKeystreamAt ks (32 * (k.toNat - 1) + r.toNat) (windowKeystream ks k r) := by
  obtain ⟨i, hi, rfl⟩ := exists_eq_ofNat3_succ hk
  simpa [toNat_ofNat3 hi] using isKeystreamAt_windowKeystream (ks := ks) hi r.isLt

/-- Settles O49: the state of `exec_bshift`, whose T is the keystream from byte 32(k-1) + r on. -/
theorem byteShiftEffect : Obligations.ByteShiftEffect := by
  intro s u r hu hr h0 hk hs
  exact ⟨_, exec_bshift hu hr h0 hk hs,
    fun j x hx => (isKeystreamAt_windowKeystream_of_pos s.work.ks (by bv_omega) r).getElem j x hx, rfl⟩

/-! ### The stores of a partial exit in the wrong order (R185) -/

section wrongOrder
variable {s : State} {kx : BitVec 3} {r : BitVec 5}

/-- The memory after XPREV. -/
def State.xprevMem (s : State) (kx : BitVec 3) : Memory :=
  s.mem.store (subchunkAddr s.work.d (kx - 1)) s.work.pend.toList

/-- XPREV and then XPART: PEND is stored, and the window is read from a memory that already has it. -/
theorem State.AtPartialExit.exec_xprev_xpart (h : s.AtPartialExit kx r) :
    ∃ t, andThen (exec (.xprev kx) s) (fun s => exec (.xpart kx) s) = .next t
      ∧ t.mem = (s.xprevMem kx).store (s.work.d.toNat + (s.work.n.toNat - 32))
          (outWindow (s.xprevMem kx) (s.work.s.toNat + (s.work.n.toNat - 32)) s.work.t).toList := by
  have hacc := h.accessible
  obtain ⟨h2, hn⟩ := h.exit_and_count
  obtain ⟨hrun, hl, hp, ht, -⟩ := h
  obtain ⟨u, hu⟩ := Option.ne_none_iff_exists'.mp hrun
  have hprev : s.platform.accessFault true (subchunkAddr s.work.d (kx - 1)) 32 = none := by
    rw [subchunkAddr_pred _ (by omega)]
    exact hacc.write _ (by omega) (by omega)
  have hread := hacc.read (s.work.s.toNat + (s.work.n.toNat - 32)) (by omega) (by omega)
  have hwrite := hacc.write (s.work.d.toNat + (s.work.n.toNat - 32)) (by omega) (by omega)
  rw [exec_xprev hu h2 hl hp hprev, andThen_next]
  exact ⟨_, exec_xpart rfl h2 (by omega : 32 ≤ s.work.n.toNat) hl ht hread hwrite, by rw [State.xprevMem]⟩

/-- XPREV writes the output of sub-chunk K - 1. -/
theorem State.AtPartialExit.xprevMem_written (h : s.AtPartialExit kx r) (hm : Memory.wf s.mem = true) :
    Written s.mem s.work.s.toNat s.work.d.toNat s.work.ks (fun x => 32 * (kx.toNat - 1) ≤ x ∧ x < 32 * kx.toNat)
      (s.xprevMem kx) := by
  have hpend := h.isOutput_pend hm
  obtain ⟨h2, -⟩ := h.exit_and_count
  rw [State.xprevMem, subchunkAddr_pred _ (by omega)]
  exact ((written_nothing hm Nat.not_lt_zero).store hpend).congr fun x => by omega

/-- T is the keystream of the window. -/
theorem State.AtPartialExit.isKeystreamAt_t (h : s.AtPartialExit kx r) :
    IsKeystreamAt s.work.ks (s.work.n.toNat - 32) s.work.t := by
  obtain ⟨-, -, -, -, h2, -, hn, -, -, -, ht, -⟩ := h
  rw [ht, show s.work.n.toNat - 32 = 32 * (kx.toNat - 1) + r.toNat by omega]
  exact isKeystreamAt_windowKeystream_of_pos _ (by omega) r

/-- In place, the window read after XPREV is output in the overlap already: the second XOR with the same keystream restores
the source byte. -/
theorem State.AtPartialExit.outWindow_xprevMem (h : s.AtPartialExit kx r) (hm : Memory.wf s.mem = true)
    (hsd : s.work.s = s.work.d) (x : Fin 256) (hlo : s.work.n.toNat - 32 ≤ x) (hhi : x < 32 * kx.toNat) :
    (outWindow (s.xprevMem kx) (s.work.s.toNat + (s.work.n.toNat - 32)) s.work.t)[x.val - (s.work.n.toNat - 32)]'(by
        have := h.exit_and_count
        omega) = Memory.get s.mem (s.work.d.toNat + x) := by
  obtain ⟨h2, hn⟩ := h.exit_and_count
  have hpend := (h.xprevMem_written hm).out x ⟨by omega, hhi⟩
  have ht := h.isKeystreamAt_t x hlo (by omega)
  rw [hsd] at hpend ⊢
  rw [outWindow, chunkXor_getElem, Memory.load_getElem, Nat.add_assoc, Nat.add_sub_cancel' hlo, hpend, ht,
    BitVec.xor_assoc, BitVec.xor_self, BitVec.xor_zero]

end wrongOrder

/-- Settles O53: XPREV then XPART completes (`State.AtPartialExit.exec_xprev_xpart`), and the byte the window then stores at
an offset of the overlap is the old one (`State.AtPartialExit.outWindow_xprevMem`). -/
theorem wrongStoreOrderLeavesPlaintext : Obligations.WrongStoreOrderLeavesPlaintext := by
  intro s kx r h hm hsd
  obtain ⟨t, ht, hmem⟩ := h.exec_xprev_xpart
  obtain ⟨h2, hn⟩ := h.exit_and_count
  refine ⟨t, ht, fun x hlo hhi => ?_⟩
  have hstored := Memory.get_store_chunk (a := s.work.d.toNat + (s.work.n.toNat - 32))
    (outWindow (s.xprevMem kx) (s.work.s.toNat + (s.work.n.toNat - 32)) s.work.t) (h.xprevMem_written hm).wf
    (x - (s.work.n.toNat - 32)) (by omega)
  rw [Nat.add_assoc, Nat.add_sub_cancel' hlo] at hstored
  rw [State.byteAt, hmem, hstored]
  exact h.outWindow_xprevMem hm hsd ⟨x, by omega⟩ hlo hhi

end Sys2Proof.Machine

namespace Sys2Proof.Machine

/-! ### What WR and RD do, index by index (R200, R201) -/

/-- An index below 16 is that of a Cipher State word. -/
theorem exists_cs_index {idx : BitVec 7} (h : idx.toNat < 16) : ∃ i : Fin 16, idx = BitVec.ofNat 7 i.val :=
  ⟨⟨idx.toNat, h⟩, by simp⟩

section reads
variable {s : State}

section idle
variable (h : s.upc = none)
include h

theorem execWr_status (data : Word) : execWr 21#7 data s = .next s := whenIdle_of_idle h

theorem execRd_src : execRd 16#7 s = .next (s.replyRegister s.srcSet s.src) := whenIdle_of_idle h

theorem execRd_dst : execRd 17#7 s = .next (s.replyRegister s.dstSet s.dst) := whenIdle_of_idle h

theorem execRd_nbytes : execRd 18#7 s = .next (s.reply s.nbytes) := whenIdle_of_idle h

theorem execRd_rounds : execRd 19#7 s = .next (s.reply s.rounds) := whenIdle_of_idle h

theorem execRd_cmd : execRd 20#7 s = .next (s.reply 0) := whenIdle_of_idle h

theorem execRd_status : execRd 21#7 s = .next (s.reply (statusWord s.statusDone)) := whenIdle_of_idle h

end idle

theorem State.replyRegister_of_written {written : Bool} (h : written = true) (w : Word) :
    s.replyRegister written w = s.reply w := if_pos h

/-- Written or not, a register read adds one reply and may draw a free value; nothing else changes. -/
theorem State.replyRegister_eq (s : State) (written : Bool) (w : Word) : ∃ (v : Word) (c : Nat),
    s.replyRegister written w = { s with replies := s.replies ++ [v], freeCtr := c } := by
  cases written with
  | true => exact ⟨w, s.freeCtr, rfl⟩
  | false => exact ⟨Config.freeWord s.freeCtr, s.freeCtr + 1, rfl⟩

/-- RD of a register that can be unwritten is a register read. -/
theorem execRd_eq_replyRegister {idx : BitVec 7} (h : s.upc = none) (hi : idx.toNat < 18) :
    ∃ (written : Bool) (w : Word), execRd idx s = .next (s.replyRegister written w) := by
  by_cases hcs : idx.toNat < 16
  · obtain ⟨i, rfl⟩ := exists_cs_index hcs
    exact ⟨_, _, execRd_cs h i⟩
  · obtain rfl | rfl : idx = 16#7 ∨ idx = 17#7 := by bv_omega
    · exact ⟨_, _, execRd_src h⟩
    · exact ⟨_, _, execRd_dst h⟩

end reads

/-- Settles O8: the clauses are the equations of WR, one per index. -/
theorem writeTransaction : Obligations.WriteTransaction := fun s data hidle =>
  ⟨execWr_cs hidle data, execWr_src hidle data, execWr_dst hidle data, execWr_nbytes hidle data, execWr_rounds hidle data,
    execWr_cmd_one hidle, fun hne => (execWr_cmd hidle data).trans (writeCommand_of_ne hne s), execWr_status hidle data,
    fun _ hi => execWr_undefined hidle hi data⟩

/-- Settles O9: the clauses are the equations of RD, one per index; a register written since reset answers its value
(`State.replyRegister_of_written`), any register some word (`State.replyRegister_eq`). -/
theorem readTransaction : Obligations.ReadTransaction := by
  intro s hidle
  have hreply {written : Bool} {w : Word} {r : Result} (hr : r = .next (s.replyRegister written w))
      (hset : written = true) : r = .next (s.reply w) := by rw [hr, State.replyRegister_of_written hset]
  refine ⟨fun i => hreply (execRd_cs hidle i), hreply (execRd_src hidle), hreply (execRd_dst hidle), execRd_nbytes hidle,
    execRd_rounds hidle, execRd_cmd hidle, execRd_status hidle, fun idx hi => execRd_undefined hidle hi, fun idx hi => ?_⟩
  obtain ⟨written, w, hrd⟩ := execRd_eq_replyRegister hidle hi
  obtain ⟨v, c, hv⟩ := s.replyRegister_eq written w
  exact ⟨v, c, hrd.trans (congrArg _ hv)⟩

/-- Settles O10: RD of the register after the equation of WR; a Cipher State word, SRC and DST are written by then. -/
theorem readBackAfterWrite : Obligations.ReadBackAfterWrite := by
  intro s idx data hidle hi
  by_cases hcs : idx.toNat < 16
  · obtain ⟨i, rfl⟩ := exists_cs_index hcs
    have hne : ¬ (BitVec.ofNat 7 i.val = 16#7 ∨ BitVec.ofNat 7 i.val = 17#7) := by bv_omega
    refine ⟨_, _, execWr_cs hidle data i, execRd_cs (s := s.writeCs i data) hidle i, ?_⟩
    rw [if_neg hne, State.replyRegister_of_written (by simp), State.reply_replies]
    simp
  · obtain rfl | rfl | rfl | rfl : idx = 16#7 ∨ idx = 17#7 ∨ idx = 18#7 ∨ idx = 19#7 := by bv_omega
    · exact ⟨_, _, execWr_src hidle data, execRd_src (s := s.writeSrc data) hidle, rfl⟩
    · exact ⟨_, _, execWr_dst hidle data, execRd_dst (s := s.writeDst data) hidle, rfl⟩
    · exact ⟨_, _, execWr_nbytes hidle data, execRd_nbytes (s := s.writeNbytes data) hidle, rfl⟩
    · exact ⟨_, _, execWr_rounds hidle data, execRd_rounds (s := s.writeRounds data) hidle, rfl⟩

end Sys2Proof.Machine

namespace Sys2Proof.Machine

/-! ### XFORM1, and STREAM (R202, R204, R206) -/

/-- len bytes at dst are the source bytes of memory m XOR these key bytes, every other byte is as it was. -/
structure XorWritten (m : Memory) (src dst len : Nat) (key : Nat → Byte) (m' : Memory) : Prop where
  wf : Memory.wf m' = true
  out : ∀ x, x < len → Memory.get m' (dst + x) = Memory.get m (src + x) ^^^ key x
  frame : ∀ a, a < dst ∨ dst + len ≤ a → Memory.get m' a = Memory.get m a

section xorWritten
variable {m m' m'' : Memory} {src dst len len' : Nat} {key : Nat → Byte}

theorem xorWritten_zero (hm : Memory.wf m = true) : XorWritten m src dst 0 key m :=
  ⟨hm, fun x hx => absurd hx (Nat.not_lt_zero x), fun _ _ => rfl⟩

/-- The store of a byte string that is the XOR. -/
theorem xorWritten_store {out : List Byte} (hm : Memory.wf m = true) (hlen : out.length = len)
    (hout : ∀ x (hx : x < out.length), out[x] = Memory.get m (src + x) ^^^ key x) :
    XorWritten m src dst len key (m.store dst out) := by
  subst hlen
  exact ⟨Memory.store_wf out hm, fun x hx => (Memory.get_store_inside out hm x hx).trans (hout x hx),
    fun _ ha => Memory.get_store_outside m out ha⟩

/-- What a command has written, its byte count being len. -/
theorem Written.xorWritten {ks : Vector Byte 256} (h : Written m src dst ks (· < len) m') (hlen : len ≤ 256)
    (hkey : ∀ x : Fin 256, ks[x] = key x) : XorWritten m src dst len key m' where
  wf := h.wf
  out x hx := (h.out ⟨x, hx.trans_le hlen⟩ hx).trans (congrArg _ (hkey ⟨x, _⟩))
  frame a ha := h.frame a fun x hx => by omega

/-- Two adjacent pieces. The source of the second still reads as at the start: the buffers are the same or disjoint. -/
theorem XorWritten.append (h : XorWritten m src dst len key m')
    (h' : XorWritten m' (src + len) (dst + len) len' (fun x => key (len + x)) m'')
    (hsd : sameOrDisjoint src dst (len + len')) : XorWritten m src dst (len + len') key m'' where
  wf := h'.wf
  out x hx := by
    by_cases hlt : x < len
    · rw [h'.frame _ (by omega), h.out x hlt]
    · obtain ⟨y, rfl⟩ := Nat.exists_eq_add_of_le (Nat.le_of_not_lt hlt)
      have hy : y < len' := by omega
      have hsource : Memory.get m' (src + (len + y)) = Memory.get m (src + (len + y)) :=
        h.frame _ (by rcases hsd with hsd | hsd | hsd <;> omega)
      rw [← hsource, ← Nat.add_assoc, ← Nat.add_assoc, h'.out y hy]
  frame a ha := by rw [h'.frame a (by omega), h.frame a (by omega)]

end xorWritten

/-! ### The key bytes of a stream -/

section streamKey
variable (cs : Block) (nr : Nat)

theorem blockCounter_blockCounter (w : Word) (a b : Nat) : blockCounter (blockCounter w a) b = blockCounter w (a + b) := by
  simp [blockCounter, BitVec.ofNat_add, BitVec.add_assoc]

@[simp] theorem blockInput_zero : blockInput cs 0 = cs := by simp [blockInput, blockCounter]

theorem blockInput_blockInput (a b : Nat) : blockInput (blockInput cs a) b = blockInput cs (a + b) := by
  simp [blockInput, blockCounter_blockCounter]

theorem blockOutput_blockInput (a b : Nat) : blockOutput (blockInput cs a) nr b = blockOutput cs nr (a + b) := by
  simp only [blockOutput, blockInput_blockInput]

/-- The stream of a counter that is a blocks further skips 64 a bytes. -/
theorem streamByte_blockInput (a x : Nat) : streamByte (blockInput cs a) nr x = streamByte cs nr (64 * a + x) := by
  have hblock : (64 * a + x) / 64 = a + x / 64 := by omega
  have hword : (64 * a + x) / 4 % 16 = x / 4 % 16 := by omega
  have hbyte : (64 * a + x) % 4 = x % 4 := by omega
  simp only [streamByte, blockOutput_blockInput, hblock, hword, hbyte]

/-- The keystream of a command is the first 256 bytes of the stream. -/
theorem keystream_getElem (x : Nat) (hx : x < 256) : (keystream cs nr)[x] = streamByte cs nr x := by
  simp [keystream, serialise, streamByte]

end streamKey

/-! ### The collaborator's copies -/

@[simp] theorem loadBytes_length (m : Memory) (a len : Nat) : (loadBytes m a len).length = len := by
  induction len generalizing a with
  | zero => rfl
  | succ len ih => simp [loadBytes, ih]

theorem loadBytes_getElem (m : Memory) (a len j : Nat) (hj : j < (loadBytes m a len).length) :
    (loadBytes m a len)[j] = Memory.get m (a + j) := by
  induction len generalizing a j with
  | zero => simp at hj
  | succ len ih =>
    cases j with
    | zero => rfl
    | succ j =>
      simp only [loadBytes, List.getElem_cons_succ, ih]
      congr 1
      omega

@[simp] theorem blockXor_length (cs : Block) (nr : Nat) (p : List Byte) : (blockXor cs nr p).length = min p.length 64 := by
  simp [blockXor]

theorem blockXor_getElem (cs : Block) (nr : Nat) (p : List Byte) (j : Nat) (hj : j < (blockXor cs nr p).length) :
    (blockXor cs nr p)[j] = p[j]'(by simp at hj; omega) ^^^ streamByte cs nr j := by
  have h64 : j < 64 := by simp at hj; omega
  simp [blockXor, keystream_getElem cs nr j (by omega)]

/-- The staging buffer is full: the tail and unspecified bytes. -/
theorem stagingBuffer_length (s : State) {tail : List Byte} (h : tail.length ≤ 64) :
    (stagingBuffer s tail).length = 64 := by
  simp [stagingBuffer, Config.stage, h]

theorem stagingBuffer_getElem (s : State) (tail : List Byte) (j : Nat) (hj : j < tail.length) :
    (stagingBuffer s tail)[j]'(by simp [stagingBuffer]; omega) = tail[j] := by
  simp [stagingBuffer, hj]

section copies
variable {s : State} {src dst nr rest : Nat}

theorem transformBytes_ok {len : Nat} (hr : s.platform.accessFault false src len = none)
    (hw : s.platform.accessFault true dst len = none) (f : List Byte → List Byte) :
    transformBytes src dst len f s = .next (s.storeBytes dst (f (loadBytes s.mem src len))) := by
  simp [transformBytes, hr, hw, State.storeBytes]

/-- XFORM1 is one store, whose bytes are the source XOR the first block. -/
theorem xform1_ok (hr : s.platform.accessFault false src 64 = none) (hw : s.platform.accessFault true dst 64 = none) :
    ∃ bs, xform1 src dst nr s = .next (s.storeBytes dst bs)
      ∧ (Memory.wf s.mem = true → XorWritten s.mem src dst 64 (streamByte s.cs nr) (s.mem.store dst bs)) := by
  refine ⟨_, transformBytes_ok hr hw _, fun hm => xorWritten_store hm ?_ fun x hx => ?_⟩
  · rw [blockXor_length, loadBytes_length]
    rfl
  · rw [blockXor_getElem, loadBytes_getElem]

/-- The staged XFORM1 stores the tail's bytes alone, and draws the bytes beyond it. -/
theorem xform1Staged_ok (hr : s.platform.accessFault false src rest = none)
    (hw : s.platform.accessFault true dst rest = none) (hrest : rest ≤ 64) :
    ∃ bs c, xform1Staged src dst nr rest s = .next { s.storeBytes dst bs with freeCtr := c }
      ∧ (Memory.wf s.mem = true → XorWritten s.mem src dst rest (streamByte s.cs nr) (s.mem.store dst bs)) := by
  have hfull : (stagingBuffer s (loadBytes s.mem src rest)).length = 64 := stagingBuffer_length s (by simpa using hrest)
  refine ⟨_, _, congrArg (andThen · _) (transformBytes_ok hr hw _), fun hm => xorWritten_store hm ?_ fun x hx => ?_⟩
  · simp [hfull, hrest]
  · have htail : x < (loadBytes s.mem src rest).length := by simpa [hfull, hrest] using hx
    rw [List.getElem_take, blockXor_getElem, stagingBuffer_getElem _ _ _ htail, loadBytes_getElem]

end copies

/-- Settles O58: XFORM1's one store, whose bytes are the source XOR the first block (`xform1_ok`). -/
theorem singleBlockEffect : Obligations.SingleBlockEffect := by
  intro s src dst nr _ hm hmem
  have hr : s.platform.accessFault false src 64 = none :=
    accessFault_eq_none.mpr fun j hj => byteFault_eq_none.mpr (hmem j hj).1
  have hw : s.platform.accessFault true dst 64 = none :=
    accessFault_eq_none.mpr fun j hj => byteFault_eq_none.mpr (hmem j hj).2
  obtain ⟨bs, hnext, hout⟩ := xform1_ok (nr := nr) hr hw
  obtain ⟨-, hbytes, hframe⟩ := hout hm
  refine ⟨_, hnext, fun x hx => ?_, hframe, rfl⟩
  exact (hbytes x hx).trans (congrArg _ (keystream_getElem s.cs nr x x.isLt).symm)

/-! ### STREAM, one hand-off after the other (R202) -/

/-- What STREAM has done once len bytes are handed off and the counter word is so many blocks further: those bytes are the
source XOR the key bytes of the stream, and the host and the platform are as STREAM needs them to go on. -/
structure Streamed (s : State) (src dst nr len blocks : Nat) (t : State) : Prop where
  idle : t.upc = none
  csSet : t.csSet = s.csSet
  platform : t.platform = s.platform
  cs : t.cs = blockInput s.cs blocks
  mem : Memory.wf s.mem = true → XorWritten s.mem src dst len (streamByte s.cs nr) t.mem

section streamed
variable {s t u : State} {src dst nr len len' : Nat}

theorem streamed_nothing (h : s.upc = none) : Streamed s src dst nr 0 0 s :=
  ⟨h, rfl, rfl, (blockInput_zero s.cs).symm, xorWritten_zero⟩

/-- CTRADV after a hand-off. -/
theorem Streamed.advance (h : Streamed s src dst nr len 0 t) (hset : s.csSet[12] = true) (c : Nat) :
    ∃ u, counterAdvance c t = .next u ∧ Streamed s src dst nr len c u := by
  have hcs : t.cs = s.cs := h.cs.trans (blockInput_zero s.cs)
  refine ⟨_, counterAdvance_eq c h.idle (by simpa only [h.csSet] using hset), h.idle, h.csSet, h.platform, ?_, h.mem⟩
  simp only [hcs, blockInput]

/-- A piece of whole blocks and the piece that follows it, or a piece that nothing follows. -/
theorem Streamed.append (h : Streamed s src dst nr len (blocksUsed len) t)
    (h' : Streamed t (src + len) (dst + len) nr len' (blocksUsed len') u) (hwhole : len % 64 = 0 ∨ len' = 0)
    (hsd : sameOrDisjoint src dst (len + len')) :
    Streamed s src dst nr (len + len') (blocksUsed (len + len')) u where
  idle := h'.idle
  csSet := h'.csSet.trans h.csSet
  platform := h'.platform.trans h.platform
  cs := by
    have hblocks : blocksUsed len + blocksUsed len' = blocksUsed (len + len') := by unfold blocksUsed; omega
    rw [h'.cs, h.cs, blockInput_blockInput, hblocks]
  mem hm := by
    have hfirst := h.mem hm
    refine hfirst.append ?_ hsd
    obtain ⟨hwf, hout, hframe⟩ := h'.mem hfirst.wf
    refine ⟨hwf, fun x hx => ?_, hframe⟩
    have hkey : 64 * blocksUsed len + x = len + x := by unfold blocksUsed; omega
    rw [hout x hx, h.cs, streamByte_blockInput, hkey]

end streamed

/-! ### What the host owes before STREAM (R209), piece by piece -/

namespace State.StreamReady

variable {s t : State} {src dst nr len len' blocks : Nat}

theorem idle (h : s.StreamReady src dst nr len) : s.upc = none := h.1

theorem counterSet (h : s.StreamReady src dst nr len) : s.csSet[12] = true := h.2.1 12

theorem regions (h : s.StreamReady src dst nr len) : sameOrDisjoint src dst len := by
  obtain ⟨-, -, -, -, -, -, -, hsd⟩ := h
  exact hsd

theorem readable (h : s.StreamReady src dst nr len) : s.platform.accessFault false src len = none := by
  obtain ⟨-, -, -, -, htop, -, hmem, -⟩ := h
  exact accessFault_eq_none.mpr fun x hx => byteFault_eq_none.mpr ⟨by omega, (hmem x hx).1⟩

theorem writable (h : s.StreamReady src dst nr len) : s.platform.accessFault true dst len = none := by
  obtain ⟨-, -, -, -, -, htop, hmem, -⟩ := h
  exact accessFault_eq_none.mpr fun x hx => byteFault_eq_none.mpr ⟨by omega, (hmem x hx).2⟩

/-- The first piece of the buffers. -/
theorem take (h : s.StreamReady src dst nr (len + len')) : s.StreamReady src dst nr len := by
  obtain ⟨hidle, hcipher, hnr, haw, hsrc, hdst, hmem, hsd⟩ := h
  refine ⟨hidle, hcipher, hnr, haw, by omega, by omega, fun x hx => hmem x (by omega), ?_⟩
  rcases hsd with hsd | hsd | hsd <;> simp only [sameOrDisjoint] <;> omega

/-- What is left of the buffers once the first piece is handed off. -/
theorem drop (h : s.StreamReady src dst nr (len + len')) (ht : Streamed s src dst nr len blocks t) :
    t.StreamReady (src + len) (dst + len) nr len' := by
  obtain ⟨-, hcipher, hnr, haw, hsrc, hdst, hmem, hsd⟩ := h
  rw [← ht.platform] at haw hsrc hdst hmem
  refine ⟨ht.idle, fun i => by rw [ht.csSet]; exact hcipher i, hnr, haw, by omega, by omega, fun x hx => ?_, ?_⟩
  · rw [Nat.add_assoc, Nat.add_assoc]
    exact hmem (len + x) (by omega)
  · rcases hsd with hsd | hsd | hsd <;> simp only [sameOrDisjoint] <;> omega

end State.StreamReady

/-! ### The three ways a piece is handed off -/

/-- The state XFORM4 with these operands gives CMD in: the four operand registers written. -/
def State.withOperands (s : State) (src dst nr n : Nat) : State :=
  (((s.writeSrc (BitVec.ofNat 32 src)).writeDst (BitVec.ofNat 32 dst)).writeNbytes (BitVec.ofNat 32 n)).writeRounds
    (BitVec.ofNat 32 nr)

section handOff
variable {s : State} {src dst nr n rest : Nat}

/-- An address of the data space is held in full. -/
theorem addrField_ofNat_toNat {aw a : Nat} (haw : aw ≤ 32) (ha : a < 2 ^ aw) :
    (addrField aw (BitVec.ofNat 32 a)).toNat = a := by
  have hword : a < 2 ^ 32 := ha.trans_le (Nat.pow_le_pow_right Nat.two_pos haw)
  rw [addrField_toNat, BitVec.toNat_ofNat, Nat.mod_eq_of_lt hword, Nat.mod_eq_of_lt ha]

/-- The operand registers of a piece hold its operands in full. -/
theorem State.StreamReady.withOperands_toNat (h : s.StreamReady src dst nr n) (hlow : 64 < n) (hhigh : n ≤ 256) :
    (s.withOperands src dst nr n).src.toNat = src ∧ (s.withOperands src dst nr n).dst.toNat = dst
      ∧ (s.withOperands src dst nr n).nbytes.toNat = n ∧ (s.withOperands src dst nr n).rounds.toNat = nr := by
  obtain ⟨-, -, hnr, haw, hsrc, hdst, -, -⟩ := h
  refine ⟨addrField_ofNat_toNat haw (by omega), addrField_ofNat_toNat (aw := s.platform.aw) haw (by omega), ?_, ?_⟩
  · exact (BitVec.toNat_ofNat _ _).trans (Nat.mod_eq_of_lt (by omega))
  · exact (BitVec.toNat_ofNat _ _).trans (Nat.mod_eq_of_lt (by omega))

/-- The host's duties before STREAM make the command of a piece ready. -/
theorem State.StreamReady.ready (h : s.StreamReady src dst nr n) (hlow : 64 < n) (hhigh : n ≤ 256) :
    (s.withOperands src dst nr n).Ready ∧ (s.withOperands src dst nr n).byteCount = n
      ∧ (s.withOperands src dst nr n).roundCount = nr := by
  obtain ⟨hsrc, hdst, hn, hr⟩ := h.withOperands_toNat hlow hhigh
  obtain ⟨hidle, hcipher, hnr, haw, hsrcTop, hdstTop, hmem, hsd⟩ := h
  have hcount : (s.withOperands src dst nr n).byteCount = n := by
    rw [State.byteCount, nbytesField_toNat, hn]
    omega
  have hrounds : (s.withOperands src dst nr n).roundCount = nr := by
    rw [State.roundCount, roundsField_toNat, hr]
    omega
  refine ⟨⟨hidle, admission_eq_none ?_ ?_ ?_ ?_ ?_ hcipher⟩, hcount, hrounds⟩
  · rw [State.LengthOk, hn]
    omega
  · rw [State.RoundsOk, hr]
    omega
  · rw [State.RangeOk, hsrc, hdst, hcount]
    exact ⟨rfl, rfl, hsrcTop, hdstTop⟩
  · rw [State.MemoryOk, hsrc, hdst, hcount]
    exact hmem
  · rwa [State.RegionsOk, hsrc, hdst, hcount]

/-- A piece of 65 to 256 bytes goes to the engine (R110). -/
theorem State.StreamReady.xform4Operands_streamed (h : s.StreamReady src dst nr n) (hlow : 64 < n) (hhigh : n ≤ 256) :
    ∃ t, xform4Operands src dst nr n s = .next t ∧ Streamed s src dst nr n 0 t := by
  obtain ⟨hsrc, hdst, hn, hr⟩ := h.withOperands_toNat hlow hhigh
  obtain ⟨hready, hcount, hrounds⟩ := h.ready hlow hhigh
  obtain ⟨w, hw⟩ := hready.exec_xform4
  have hfit : operandsFit src dst nr n = true := by
    rw [operandsFit_iff, ← hsrc, ← hdst, ← hr, ← hn]
    exact ⟨BitVec.isLt _, BitVec.isLt _, BitVec.isLt _, BitVec.isLt _⟩
  refine ⟨_, (xform4Operands_eq h.idle hfit).trans hw, rfl, rfl, rfl, (blockInput_zero s.cs).symm, fun hm => ?_⟩
  have hwritten := hready.outputMem_written hm
  rw [hsrc, hdst, hcount, hrounds] at hwritten
  exact hwritten.xorWritten hhigh fun x => keystream_getElem s.cs nr x x.isLt

/-- A piece of 64 bytes goes to XFORM1 (R204). -/
theorem State.StreamReady.xform1_streamed (h : s.StreamReady src dst nr 64) :
    ∃ t, xform1 src dst nr s = .next t ∧ Streamed s src dst nr 64 0 t := by
  obtain ⟨bs, hx, hout⟩ := xform1_ok (nr := nr) h.readable h.writable
  exact ⟨_, hx, h.idle, rfl, rfl, (blockInput_zero s.cs).symm, hout⟩

/-- A shorter piece goes to XFORM1 through the staging buffer (R202). -/
theorem State.StreamReady.xform1Staged_streamed (h : s.StreamReady src dst nr rest) (hrest : rest ≤ 64) :
    ∃ t, xform1Staged src dst nr rest s = .next t ∧ Streamed s src dst nr rest 0 t := by
  obtain ⟨bs, c, hx, hout⟩ := xform1Staged_ok (nr := nr) h.readable h.writable hrest
  exact ⟨_, hx, h.idle, rfl, rfl, (blockInput_zero s.cs).symm, hout⟩

/-! ### The loop -/

/-- The last hand-off is nothing, or one block and CTRADV 1. -/
theorem State.StreamReady.streamTail_streamed (h : s.StreamReady src dst nr rest) (hrest : rest ≤ 64) :
    ∃ t, streamTail nr rest src dst s = .next t ∧ Streamed s src dst nr rest (blocksUsed rest) t := by
  unfold streamTail
  split
  · next h0 =>
    subst h0
    exact ⟨s, rfl, streamed_nothing h.idle⟩
  · next h0 =>
    have hblocks : blocksUsed rest = 1 := by unfold blocksUsed; omega
    obtain ⟨t, ht, hst⟩ : ∃ t, (if rest = 64 then xform1 src dst nr s
        else xform1Staged src dst nr rest s) = .next t ∧ Streamed s src dst nr rest 0 t := by
      split
      · next h64 =>
        subst h64
        exact h.xform1_streamed
      · exact h.xform1Staged_streamed hrest
    rw [ht, andThen_next, hblocks]
    exact hst.advance h.counterSet 1

/-- A turn takes 256 bytes, or all that is left. -/
theorem turn_cases (hlong : 64 < rest) : ∃ len len', min rest Config.nMax = len ∧ rest = len + len' ∧ 64 < len
    ∧ len ≤ 256 ∧ (len % 64 = 0 ∨ len' = 0) :=
  ⟨min rest 256, rest - min rest 256, rfl, by omega⟩

theorem State.StreamReady.streamLoop_streamed (fuel : Nat) (h : s.StreamReady src dst nr rest) (hfuel : rest ≤ fuel) :
    ∃ t, streamLoop nr fuel rest src dst s = .next t ∧ Streamed s src dst nr rest (blocksUsed rest) t := by
  induction fuel generalizing s src dst rest with
  | zero => exact h.streamTail_streamed (by omega)
  | succ fuel ih =>
    by_cases hlong : 64 < rest
    · obtain ⟨len, len', hlen, rfl, hlow, hhigh, hwhole⟩ := turn_cases hlong
      obtain ⟨t, ht, hst⟩ := h.take.xform4Operands_streamed hlow hhigh
      obtain ⟨t', ht', hst'⟩ := hst.advance h.counterSet (blocksUsed len)
      obtain ⟨u, hu, hsu⟩ := ih (h.drop hst') (by omega)
      refine ⟨u, ?_, hst'.append hsu hwhole h.regions⟩
      simp only [streamLoop, if_pos hlong, hlen, Nat.add_sub_cancel_left, ht, ht', andThen_next, hu]
    · obtain ⟨t, ht, hst⟩ := h.streamTail_streamed (by omega)
      exact ⟨t, (if_neg hlong).trans ht, hst⟩

/-- STREAM hands off the whole buffer: each turn takes at least one byte. -/
theorem State.StreamReady.stream_streamed (h : s.StreamReady src dst nr n) :
    ∃ t, stream src dst nr n s = .next t ∧ Streamed s src dst nr n (blocksUsed n) t := h.streamLoop_streamed n le_rfl

end handOff

/-- Settles O59: STREAM completes (`State.StreamReady.stream_streamed`), and CTRADV has advanced word 12 by one for each
block. -/
theorem streamAdvancesCounter : Obligations.StreamAdvancesCounter := by
  intro s src dst nr len h
  obtain ⟨t, ht, hst⟩ := h.stream_streamed
  refine ⟨t, ht, ?_, fun i hi => ?_⟩
  · simp [hst.cs, blockInput, blockCounter_toNat, blocksUsed]
  · have hval : 12 ≠ i.val := fun he => hi (Fin.ext he.symm)
    simp [hst.cs, blockInput, hval]

/-- Settles O60: STREAM completes (`State.StreamReady.stream_streamed`), and what it has written is the XOR with the key
bytes of the stream. -/
theorem streamEqualsReference : Obligations.StreamEqualsReference := by
  intro s src dst nr len h hm
  obtain ⟨t, ht, hst⟩ := h.stream_streamed
  obtain ⟨-, hout, hframe⟩ := hst.mem hm
  exact ⟨t, ht, hout, hframe⟩

end Sys2Proof.Machine

namespace Sys2Proof.Machine

/-! ### Data independence and the reset event -/

/-- Settles O23: the events each command adds are `commandTrace` of its registers (`exec_xform4_next`), and these are equal. -/
theorem traceIsDataIndependent : Obligations.TraceIsDataIndependent := by
  intro s₁ s₂ t₁ t₂ hidle₁ hidle₂ hsrc hdst hnbytes hrounds h₁ h₂
  obtain ⟨-, htrace₁⟩ := exec_xform4_next hidle₁ h₁
  obtain ⟨-, htrace₂⟩ := exec_xform4_next hidle₂ h₂
  have hn : s₂.byteCount = s₁.byteCount := by rw [State.byteCount, State.byteCount, hnbytes]
  have hnr : s₂.roundCount = s₁.roundCount := by rw [State.roundCount, State.roundCount, hrounds]
  rw [hn, hnr, ← hsrc, ← hdst] at htrace₂
  exact ⟨_, htrace₁, htrace₂⟩

/-- The reset event that an idle engine takes from its inputs (R250, R252). -/
theorem step_of_reset {s : State} {rest : List Input} (h : s.upc = none) (hi : s.inputs = .reset :: rest) :
    step s = .next { s with inputs := rest }.resetEvent := by
  simp [step, fetch, hostHeld_of_idle h, hi]

/-- Settles O12: the step is `State.resetEvent`, which clears the engine's state and leaves memory, history, platform and
replies. -/
theorem resetEventEffect : Obligations.ResetEventEffect := by
  intro s rest hidle hinput
  have hunwritten (i : Fin 16) : { s with inputs := rest }.resetEvent.csSet[i] = false := by simp
  exact ⟨_, step_of_reset hidle hinput, rfl, rfl, rfl, rfl, rfl, hunwritten, rfl, rfl, rfl, rfl, rfl, rfl, rfl, rfl⟩

end Sys2Proof.Machine

namespace Sys2Proof.Machine

/-! ### Reserved operands (R91) and the held host (R25) -/

/-- A micro-operation whose operand the code map reserves stops before it reads anything (R91). -/
theorem exec_of_not_wellFormed {i : Instr} (hw : i.wellFormed = false) (s : State) : exec i s = .fault .reservedUop := by
  cases i with
  | rotl32 | bshift | dblrnd | xfull => exact if_pos (by simpa [Instr.wellFormed] using hw)
  | xexact | xpart | xprev => exact if_neg (Bool.eq_false_iff.mp hw)
  | _ => cases hw

theorem whenIdle_of_held {s : State} (h : s.upc ≠ none) (k : Result) : whenIdle s k = .fault .hostHeld :=
  if_pos (Option.isSome_iff_ne_none.mpr h)

/-! ### Accesses to what is no ordinary memory (R53, R234) -/

section forbidden
variable {s : State} {a : Nat}

theorem exists_accessFault_of_not_canAccess {write : Bool} (h : ¬ s.CanAccess write a) :
    ∃ e, s.platform.accessFault write a 32 = some e :=
  Option.ne_none_iff_exists'.mp fun hnone =>
    h fun j hj => byteFault_eq_none.mp (accessFault_eq_none.mp hnone j hj)

theorem memRead_of_not_canAccess (h : ¬ s.CanAccess false a) (f : Chunk → State → Result) :
    ∃ e, memRead s a f = .fault e := by
  obtain ⟨e, he⟩ := exists_accessFault_of_not_canAccess h
  exact ⟨e, by rw [memRead, he]⟩

theorem memWrite_of_not_canAccess (h : ¬ s.CanAccess true a) (v : Chunk) (f : State → Result) :
    ∃ e, memWrite s a v f = .fault e := by
  obtain ⟨e, he⟩ := exists_accessFault_of_not_canAccess h
  exact ⟨e, by rw [memWrite, he]⟩

/-- A read followed by a fault faults, whether or not the read itself is allowed. -/
theorem memRead_fault {f : Chunk → State → Result} (h : ∃ e, f (s.mem.load a) (s.log (.read a)) = .fault e) :
    ∃ e, memRead s a f = .fault e := by
  cases ha : s.platform.accessFault false a 32 with
  | none => rwa [memRead_ok ha]
  | some e => exact ⟨e, by rw [memRead, ha]⟩

end forbidden

section stops
variable {s : State} (hu : s.upc ≠ none) (hl : s.work.live = Live.all)
include hu hl

/-- A running engine with all its working state written has every element but the slot. -/
theorem reading_of_allLive {es : List WorkElem} (hes : .slot ∉ es) (r : Result) : reading s es r = r := by
  refine reading_of_live fun e he => ?_
  cases e with
  | upc => exact Option.isSome_iff_ne_none.mpr hu
  | slot => exact absurd he hes
  | _ => simp [State.isLive, hl, Live.all]

variable {k kx : BitVec 3}

theorem exec_xfull_of_source_forbidden (h6 : k.toNat ≤ 6) (ha : ¬ s.CanAccess false (s.work.s.toNat + 32 * k.toNat)) :
    ∃ e, exec (.xfull k) s = .fault e := by
  obtain ⟨e, he⟩ := memRead_of_not_canAccess ha _
  exact ⟨e, (if_neg (Nat.not_lt.mpr h6)).trans ((reading_of_allLive hu hl (by decide) _).trans he)⟩

theorem exec_xexact_of_source_forbidden (h2 : 2 ≤ kx.toNat)
    (ha : ¬ s.CanAccess false (s.work.s.toNat + 32 * kx.toNat)) : ∃ e, exec (.xexact kx) s = .fault e := by
  obtain ⟨e, he⟩ := memRead_of_not_canAccess ha _
  exact ⟨e, (if_pos (decide_eq_true h2)).trans ((reading_of_allLive hu hl (by decide) _).trans he)⟩

theorem exec_xprev_of_destination_forbidden (h2 : 2 ≤ kx.toNat)
    (ha : ¬ s.CanAccess true (s.work.d.toNat + 32 * (kx.toNat - 1))) : ∃ e, exec (.xprev kx) s = .fault e := by
  rw [← subchunkAddr_pred _ (by omega)] at ha
  obtain ⟨e, he⟩ := memWrite_of_not_canAccess ha _ _
  exact ⟨e, (if_pos (decide_eq_true h2)).trans ((reading_of_allLive hu hl (by decide) _).trans he)⟩

/-- XPART reads its source first: it faults there already, or at the store. -/
theorem exec_xpart_of_destination_forbidden (h2 : 2 ≤ kx.toNat) (hn : 32 ≤ s.work.n.toNat)
    (ha : ¬ s.CanAccess true (s.work.d.toNat + (s.work.n.toNat - 32))) : ∃ e, exec (.xpart kx) s = .fault e := by
  have hexec : exec (.xpart kx) s = memRead s (s.work.s.toNat + (s.work.n.toNat - 32)) fun q s1 =>
      memWrite s1 (s.work.d.toNat + (s.work.n.toNat - 32)) (chunkXor q s.work.t) fun s2 => .next s2.advance := by
    refine (if_pos (decide_eq_true h2)).trans ((reading_of_allLive hu hl (by decide) _).trans ?_)
    rw [windowStart_eq hn, windowStart_eq hn]
  rw [hexec]
  exact memRead_fault (memWrite_of_not_canAccess (s := s.log _) ha _ _)

end stops

/-- Settles O32: reserved operands by `exec_of_not_wellFormed`, host operations by `whenIdle_of_held`, forbidden accesses by
the four lemmas of `stops`. -/
theorem reservedAndForbiddenStop : Obligations.ReservedAndForbiddenStop := by
  intro s
  refine ⟨fun rd => exec_of_not_wellFormed rfl s, exec_of_not_wellFormed rfl s, exec_of_not_wellFormed rfl s,
    exec_of_not_wellFormed rfl s, fun kx hkx => ?_, fun hu idx data => ?_, fun hu hl => ⟨fun k h6 ha => ?_, fun kx h2 => ?_⟩⟩
  · have hexit : exitIndexOk kx = false := decide_eq_false (Nat.not_le.mpr hkx)
    exact ⟨exec_of_not_wellFormed (i := .xexact kx) hexit s, exec_of_not_wellFormed (i := .xpart kx) hexit s,
      exec_of_not_wellFormed (i := .xprev kx) hexit s⟩
  · exact ⟨whenIdle_of_held hu _, whenIdle_of_held hu _, whenIdle_of_held hu _⟩
  · exact exec_xfull_of_source_forbidden hu hl h6 ha
  · exact ⟨exec_xexact_of_source_forbidden hu hl h2, exec_xprev_of_destination_forbidden hu hl h2,
      exec_xpart_of_destination_forbidden hu hl h2⟩

/-! ### The slots -/

/-- Settles O37: the eight slots, each compared with its row of the table. -/
theorem slotTable : Obligations.SlotTable := by
  unfold Obligations.SlotTable
  decide

end Sys2Proof.Machine
